-- ==== Sys2Proof/Word.lean ====
section
/-! DEFINITION. The bus word and the byte of HUFFCORE (spec/00_scope.md R7, spec/10_state.md R40). -/

namespace Sys2Proof

/-- A register's value, one 32-bit bus word; bit 0 is the least significant bit (R11, R40, R107). -/
abbrev Word := BitVec 32

/-- A CBUF element, a container byte, an opcode or an error code. -/
abbrev Byte := BitVec 8

end Sys2Proof
end

