-- ==== Sys2Proof/Config.lean ====
section
/-! DEFINITION. What an implementation fixes (the OPEN parameters of spec/00_scope.md R6) and the free values
the spec leaves open (spec/10_state.md R76, spec/70_reset_and_hazards.md R462). An `opaque` constant has no body:
no proof can see its value. -/

namespace Sys2Proof

/-- The implementation parameters of R6. They are OPEN: the spec only bounds them. -/
structure Params where
  /-- BASE, the byte address of the register window on the host bus; a multiple of 256. -/
  base    : Nat
  /-- SIN_CAP, the capacity of the symbol input buffer, in words. -/
  sinCap  : Nat
  /-- CBUF_CAP, the capacity of the container buffer, in bytes. -/
  cbufCap : Nat
  /-- SOUT_CAP, the capacity of the symbol output buffer, in symbols. -/
  soutCap : Nat
  deriving DecidableEq, Repr, Inhabited

/-- The bounds R6 sets on the parameters. -/
def Params.wf (p : Params) : Bool :=
  p.base % 256 == 0
    && (decide (1 ≤ p.sinCap) && decide (p.sinCap ≤ 2 ^ 30 - 1))
    && (decide (1 ≤ p.cbufCap) && decide (p.cbufCap ≤ 2 ^ 29 - 1))
    && (decide (1 ≤ p.soutCap) && decide (p.soutCap ≤ 2 ^ 32 - 1))

/-- Four numbers nothing is known of (log 1). -/
opaque Config.rawParams : Params

/-- The parameters of the machine at hand (log 1): any values R6 admits, by construction within its bounds, and
every admitted choice is one of them. Nothing else is known of them. -/
def Config.params : Params :=
  { base    := 256 * Config.rawParams.base
    sinCap  := Config.rawParams.sinCap % (2 ^ 30 - 1) + 1
    cbufCap := Config.rawParams.cbufCap % (2 ^ 29 - 1) + 1
    soutCap := Config.rawParams.soutCap % (2 ^ 32 - 1) + 1 }

/-- The free value of SIN word `i` after the reset numbered `epoch`, until the host writes it (R76; log 2). -/
opaque Config.sinDraw (epoch i : Nat) : Word

/-- The free value of CBUF byte `i` after the reset numbered `epoch`, until it is written (R76; log 2). -/
opaque Config.cbufDraw (epoch i : Nat) : Byte

/-- The free value of the `n`-th read made while BUSY (R462; log 3). -/
opaque Config.busyRead (n : Nat) : Word

end Sys2Proof
end

