-- ==== Sys2Proof/Syntax.lean ====
section
/-! DEFINITION. The commands of HUFFCORE: one constructor per row of spec/opcode_table.json
(spec/30_encoding.md R141). A command has no operand fields (R140): its operands are fixed registers, buffers and
stores (R143). -/

namespace Sys2Proof

/-- The twelve commands of R141. -/
inductive Instr where
  /-- NOP, opcode 0x00 (R200). -/
  | nop
  /-- FT_BUILD, opcode 0x01 (R230). -/
  | ftBuild
  /-- TREE_BUILD, opcode 0x02 (R250). -/
  | treeBuild
  /-- CB_GEN, opcode 0x03 (R280). -/
  | cbGen
  /-- ENCODE, opcode 0x04 (R290). -/
  | encode
  /-- PACK, opcode 0x05 (R310). -/
  | pack
  /-- SERIALIZE, opcode 0x06 (R350). -/
  | serialize
  /-- DESERIALIZE, opcode 0x07 (R354). -/
  | deserialize
  /-- UNPACK, opcode 0x08 (R320). -/
  | unpack
  /-- DECODE, opcode 0x09 (R330). -/
  | decode
  /-- COMPRESS, opcode 0x10 (R360). -/
  | compress
  /-- DECOMPRESS, opcode 0x11 (R362). -/
  | decompress
  deriving DecidableEq, Repr

end Sys2Proof
end

