-- ==== Sys2Proof/WellFormed.lean ====
section
/-! DEFINITION. Well-formedness: of a command, of a command word (spec/30_encoding.md R140, R142, R144). The
bounds of the parameters are `Params.wf` (spec/00_scope.md R6). -/

namespace Sys2Proof

/-- Every command is well formed: CMD32 has no operand field that could hold a bad value (R140, R143). -/
def Instr.wf : Instr → Bool
  | .nop => true
  | .ftBuild => true
  | .treeBuild => true
  | .cbGen => true
  | .encode => true
  | .pack => true
  | .serialize => true
  | .deserialize => true
  | .unpack => true
  | .decode => true
  | .compress => true
  | .decompress => true

/-- RSV, bits 31:8, must be 0 (R140). -/
def rsvClear (w : Word) : Bool := w >>> 8 == 0

/-- Bits 7:0 are an opcode in use: 0x00 .. 0x09, 0x10 or 0x11 (R142). -/
def opcodeInUse (w : Word) : Bool :=
  let opc := w.toNat % 256
  decide (opc ≤ 0x09) || opc == 0x10 || opc == 0x11

/-- A legal command word: RSV clear and the opcode in use. Every other word is IllegalCommand (R142, R144). -/
def wordWf (w : Word) : Bool := rsvClear w && opcodeInUse w

end Sys2Proof
end

