-- ==== Sys2Proof/Decode.lean ====
section
/-! DEFINITION. Decoding a command word, total on every 32-bit word and rejecting by name, and the encoder,
both from the opcode map (spec/30_encoding.md R140 to R145). -/

namespace Sys2Proof

/-- Why a word is no command. The machine runs either as IllegalCommand (R142, R201). -/
inductive DecodeError where
  /-- Bits 31:8 are not 0 (R140, R144). -/
  | reservedBits (w : Word)
  /-- The opcode is reserved: 0x0A .. 0x0F or 0x12 .. 0xFF (R144). -/
  | reservedOpcode (opc : Byte)
  deriving DecidableEq, Repr

/-- OPC, bits 7:0 (R140). -/
def opcField (w : Word) : Byte := w.setWidth 8

/-- RSV, bits 31:8 (R140). -/
def rsvField (w : Word) : BitVec 24 := w.extractLsb' 8 24

/-- The opcode map read from the left (R141). -/
def instrOfOpcode (opc : Byte) : Option Instr :=
  match opc.toNat with
  | 0x00 => some .nop
  | 0x01 => some .ftBuild
  | 0x02 => some .treeBuild
  | 0x03 => some .cbGen
  | 0x04 => some .encode
  | 0x05 => some .pack
  | 0x06 => some .serialize
  | 0x07 => some .deserialize
  | 0x08 => some .unpack
  | 0x09 => some .decode
  | 0x10 => some .compress
  | 0x11 => some .decompress
  | _ => none

/-- Decoding a latched command word (R142). -/
def decodeWord (w : Word) : Except DecodeError Instr :=
  if rsvField w = 0 then
    match instrOfOpcode (opcField w) with
    | some i => .ok i
    | none => .error (.reservedOpcode (opcField w))
  else .error (.reservedBits w)

/-- The opcode of a command: the opcode map read from the right (R141). -/
def opcodeOf : Instr → Byte
  | .nop => 0x00
  | .ftBuild => 0x01
  | .treeBuild => 0x02
  | .cbGen => 0x03
  | .encode => 0x04
  | .pack => 0x05
  | .serialize => 0x06
  | .deserialize => 0x07
  | .unpack => 0x08
  | .decode => 0x09
  | .compress => 0x10
  | .decompress => 0x11

/-- The command word of a command: OPC in bits 7:0, RSV = 0 (R140). -/
def encode (i : Instr) : Word := (opcodeOf i).setWidth 32

/-- The command word that the low `nbits` bits of `w` lay out. A command is one whole bus word, so no byte order
enters (spec/20_memory.md R107). -/
def tableWord (nbits w : Nat) : Word := BitVec.ofNat 32 (w % 2 ^ nbits)

/-- The command the decoder reads from a word of spec/opcode_table.json. -/
def decodeTableWord (nbits w : Nat) : Option Instr := (decodeWord (tableWord nbits w)).toOption

end Sys2Proof
end

