-- ==== Sys2Proof/Machine/State.lean ====
section
/-! DEFINITION. The state of HUFFCORE as plain data (spec/10_state.md), the reasons a step could stop, and the
state after reset (R75). -/

namespace Sys2Proof.Machine

open Sys2Proof

/-! ### What the stores hold -/

/-- An FT entry: a symbol (a Unicode scalar value, a natural number, R17) and its frequency (R60). -/
structure Entry where
  sym  : Nat
  freq : Nat
  deriving DecidableEq, Repr

/-- TREE's values (R62). A node's frequency is an unbounded natural number (R9). -/
inductive HuffTree where
  /-- A real leaf: one FT entry. -/
  | leaf (sym freq : Nat)
  /-- The unused leaf: no symbol, frequency 0. -/
  | placeholder
  /-- A node with exactly two children; `left` is the 0 branch, `right` the 1 branch. -/
  | node (left right : HuffTree) (freq : Nat)
  deriving DecidableEq, Repr

/-- A code: the path from the root to a leaf, first step first; `false` is bit 0, left, and `true` is bit 1, right
(R64, R11). -/
abbrev Code := List Bool

/-- The elements of a buffer that have been written since the last reset, as (index, element) pairs, indices strictly
rising. An unlisted index holds no value here: what it reads as is the free draw of R76 (log 2). -/
abbrev Memory (α : Type) := List (Nat × α)

/-! ### The host's side -/

/-- The size of a host transaction: 1, 2 or 4 bytes (R34). -/
inductive AccessSize where
  | byte
  | half
  | word
  deriving DecidableEq, Repr

/-- A host transaction (R34); `off` is the 8-bit byte offset in the register window (R33). -/
inductive Transaction where
  | read (off : BitVec 8) (size : AccessSize)
  | write (off : BitVec 8) (size : AccessSize) (data : Word)
  deriving DecidableEq, Repr

/-- One move of the agents and inputs that act on the state (R30, R33). -/
inductive Move where
  /-- The engine may take its completion step (R190). -/
  | engine
  /-- The host issues a transaction (R34). -/
  | host (t : Transaction)
  /-- The pin rst_n takes a level; `false` is low, in reset (R450). -/
  | rstPin (high : Bool)
  deriving DecidableEq, Repr

/-! ### Errors as results of a command -/

/-- The nine errors of spec/60_exceptions.md R401. -/
inductive ErrorCode where
  | emptyInput
  | formatLimit
  | malformedBuffer
  | corruptStream
  | inputUnavailable
  | outputWrite
  | illegalCommand
  | sequence
  | unknownSymbol
  deriving DecidableEq, Repr

/-! ### The state -/

/-- The engine's control state (R31). -/
inductive Engine where
  | idle
  /-- A command word has been accepted and its completion step is still to come. -/
  | busy (w : Word)
  deriving DecidableEq, Repr

/-- The state of one HUFFCORE, and of the outside world that acts on it. A store and its valid flag are one field:
`some` exactly when the flag is 1 (log 6). -/
structure State where
  /-- The OPEN parameters BASE, SIN_CAP, CBUF_CAP, SOUT_CAP (R6); no step changes them (log 1). -/
  cfg        : Params
  /-- The level of the pin rst_n; `false` is low (R33, R450). -/
  rstN       : Bool
  /-- eng (R31); STATUS.BUSY is a view of it. -/
  eng        : Engine
  /-- CTRL bit 0, IRQ_EN (R43). -/
  irqEn      : Bool
  /-- STATUS bit 1, DONE (R44). -/
  done       : Bool
  /-- STATUS bit 3, CMD_DROPPED (R44). -/
  cmdDropped : Bool
  /-- STATUS bit 4, WR_DROPPED (R44). -/
  wrDropped  : Bool
  /-- ERRCODE (R46); STATUS.ERR is a view of it. -/
  errcode    : Word
  /-- SIN_LEN (R47). -/
  sinLen     : Word
  /-- SIN_IDX (R48). -/
  sinIdx     : Word
  /-- CBUF_LEN (R49). -/
  cbufLen    : Word
  /-- CBUF_IDX (R50). -/
  cbufIdx    : Word
  /-- SOUT_IDX (R52). -/
  soutIdx    : Word
  /-- FT_IDX (R54). -/
  ftIdx      : Word
  /-- CB_BITPOS (R55). -/
  cbBitpos   : Word
  /-- BITS_IDX (R56). -/
  bitsIdx    : Word
  /-- PK_IDX (R57). -/
  pkIdx      : Word
  /-- ORIG_BYTES (R58). -/
  origBytes  : Word
  /-- COMP_BYTES (R59). -/
  compBytes  : Word
  /-- FT and FT_VALID, STATUS bit 8 (R60, R69). -/
  ft         : Option (List Entry)
  /-- TREE and TREE_VALID, STATUS bit 9 (R62, R69). -/
  tree       : Option HuffTree
  /-- CB and CB_VALID, STATUS bit 10 (R64, R69). -/
  cb         : Option (List Code)
  /-- BITS and BITS_VALID, STATUS bit 11 (R66, R69). -/
  bits       : Option (List Bool)
  /-- PK and PK_VALID, STATUS bit 12 (R68, R69). -/
  pk         : Option (List Byte)
  /-- SIN, the symbol input buffer: the words written since the last reset (R70, R76). -/
  sin        : Memory Word
  /-- CBUF, the container buffer: the bytes written since the last reset (R71, R76). -/
  cbuf       : Memory Byte
  /-- SOUT, the symbol output buffer, a list of scalar values (R72). -/
  sout       : List Nat
  /-- The model's own: what the host's most recent Read returned (R34; log 7). -/
  readData   : Option Word
  /-- The model's own: the moves still to come, in the order they are taken (log 4). -/
  agenda     : List Move
  /-- The model's own: how many resets there have been; it keys the draws of SIN and CBUF (log 2). -/
  epoch      : Nat
  /-- The model's own: how many reads have been answered by a draw (log 3). -/
  draws      : Nat
  deriving DecidableEq, Repr

/-- Reasons to stop with a fault. There is none, so the type has no constructor: HUFFCORE takes no trap and no
error is fatal to it (R400), and no transaction is refused with a bus error (R111). -/
inductive Fault where
  deriving DecidableEq, Repr

/-- Reasons to have no meaning for a command. -/
inductive Refusal where
  /-- Raised by an arm of `exec` whose command has no meaning yet; safe: a claim about the command is unprovable.
  No arm raises it in this model. -/
  | notModelled (mnemonic : String)
  deriving DecidableEq, Repr

/-- The state after reset of a HUFFCORE with the parameters `p`: every value of R75. The model's own fields start
empty, and the pin rst_n is high again (logs 4, 7, 8). -/
def State.resetFor (p : Params) : State :=
  { cfg := p, rstN := true, eng := .idle
    irqEn := false, done := false, cmdDropped := false, wrDropped := false, errcode := 0
    sinLen := 0, sinIdx := 0, cbufLen := 0, cbufIdx := 0, soutIdx := 0, ftIdx := 0
    cbBitpos := 0, bitsIdx := 0, pkIdx := 0, origBytes := 0, compBytes := 0
    ft := none, tree := none, cb := none, bits := none, pk := none
    sin := [], cbuf := [], sout := []
    readData := none, agenda := [], epoch := 0, draws := 0 }

/-- The machine right after reset (R75), its parameters OPEN (R6). -/
def State.reset : State := State.resetFor Config.params

end Sys2Proof.Machine
end

