-- ==== Sys2Proof/Machine/Ops.lean ====
section
/-! DEFINITION. The named operations over the buffers and the registers, and the three shared operations of every
command: acceptance, completion (with an error's entry) and reset (spec/20_memory.md, spec/40_command_model.md,
spec/60_exceptions.md, spec/70_reset_and_hazards.md). -/

namespace Sys2Proof.Machine

open Sys2Proof

/-! ### Buffers as written elements -/

/-- The element written at an index, if any. -/
def Memory.read? {α : Type} : Memory α → Nat → Option α
  | [], _ => none
  | (k, x) :: m, a => if k = a then some x else Memory.read? m a

/-- Write one element, keeping the indices strictly rising. -/
def Memory.write {α : Type} : Memory α → Nat → α → Memory α
  | [], a, v => [(a, v)]
  | (k, x) :: m, a, v =>
    if a < k then (a, v) :: (k, x) :: m
    else if a = k then (a, v) :: m
    else (k, x) :: Memory.write m a v

/-- Write consecutive elements from index `a` on (MemWrite, R102). -/
def Memory.writeList {α : Type} (m : Memory α) (a : Nat) : List α → Memory α
  | [] => m
  | v :: vs => Memory.writeList (Memory.write m a v) (a + 1) vs

/-- The listed indices rise strictly, and none is below `lo`. -/
def Memory.risingFrom {α : Type} (lo : Nat) : Memory α → Bool
  | [] => true
  | (k, _) :: m => decide (lo ≤ k) && Memory.risingFrom (k + 1) m

/-- The canonical form of a buffer: its listed indices rise strictly. An unlisted index holds no value, so no
entry can equal what an unlisted index holds. -/
def Memory.wf {α : Type} (m : Memory α) : Bool := Memory.risingFrom 0 m

/-- Every listed index lies inside a buffer of `cap` elements. -/
def Memory.within {α : Type} (cap : Nat) (m : Memory α) : Bool := m.all fun c => decide (c.1 < cap)

/-! ### The buffers' elements -/

/-- SIN[i] (R70): the word written there since the last reset, else the free draw of R76. -/
def State.sinAt (s : State) (i : Nat) : Word :=
  (Memory.read? s.sin i).getD (Config.sinDraw s.epoch i)

/-- CBUF[i] (R71): the byte written there since the last reset, else the free draw of R76. -/
def State.cbufAt (s : State) (i : Nat) : Byte :=
  (Memory.read? s.cbuf i).getD (Config.cbufDraw s.epoch i)

/-- MemRead(SIN:a, n) of R102. -/
def State.sinRead (s : State) (a n : Nat) : List Word := (List.range n).map fun k => s.sinAt (a + k)

/-- MemRead(CBUF:a, n) of R102. -/
def State.cbufRead (s : State) (a n : Nat) : List Byte := (List.range n).map fun k => s.cbufAt (a + k)

/-! ### The stores read as lists -/

/-- FT as a list: its entries, and [] when FT_VALID = 0 (R60, R75, R202). -/
def State.ftEntries (s : State) : List Entry := s.ft.getD []

/-- CB as a list (R64, R202). -/
def State.cbCodes (s : State) : List Code := s.cb.getD []

/-- BITS as a list (R66, R202). -/
def State.bitStream (s : State) : List Bool := s.bits.getD []

/-- PK as a list (R68, R202). -/
def State.pkBytes (s : State) : List Byte := s.pk.getD []

/-! ### Results of a command, and completion -/

/-- The outcome of a command's `exec` in R190: Ok with the updates applied, or Err with the error, the opcode of the
step command that raised it, and the failure updates applied (R192). -/
inductive CmdResult where
  | ok (s : State)
  | err (e : ErrorCode) (step : Byte) (s : State)
  deriving DecidableEq, Repr

/-- The number of an error, ERRCODE[7:0] (R401). -/
def errorNumber : ErrorCode → Byte
  | .emptyInput => 1
  | .formatLimit => 2
  | .malformedBuffer => 3
  | .corruptStream => 4
  | .inputUnavailable => 5
  | .outputWrite => 6
  | .illegalCommand => 7
  | .sequence => 8
  | .unknownSymbol => 9

/-- ERRCODE for an error: (step << 8) | code (R190, R46). -/
def errorWord (e : ErrorCode) (step : Byte) : Word :=
  step.setWidth 32 <<< 8 ||| (errorNumber e).setWidth 32

/-- `raise E` in the pseudocode of the step command `i`, leaving the failure updates `s` (R15, R192). -/
def raiseIn (i : Instr) (e : ErrorCode) (s : State) : CmdResult := .err e (opcodeOf i) s

/-- A failed `require FLAG`: SequenceError, and nothing changes (R193). -/
def sequenceError (i : Instr) (s : State) : CmdResult := raiseIn i .sequence s

/-- The completion step's last part: ERRCODE, eng and DONE, in the one step that applies the updates (R190, R32,
R420). -/
def completeWith (errcode : Word) (s : State) : State :=
  { s with errcode := errcode, eng := .idle, done := true }

/-- The completion step (R190). On an error this is all the entry there is (R400, R410): ERRCODE records the error,
nothing else is saved, no mode changes and no vector is taken. -/
def complete : CmdResult → State
  | .ok s => completeWith 0 s
  | .err e step s => completeWith (errorWord e step) s

/-- A command completes: every outcome of a command, an error too, is a next state (R190, R400). -/
def finish (r : CmdResult) : Host.Outcome State Fault Refusal := .next (complete r)

/-- Acceptance of a command word while IDLE (R45). It is also all the return from an error there is: no return
operation exists, and acceptance clears DONE and ERRCODE (R411). -/
def accept (w : Word) (s : State) : State :=
  { s with eng := .busy w, done := false, errcode := 0 }

/-- Composite sequencing (R361): each step command on the state its predecessor left, to the first that fails. -/
def runSequence : List (State → CmdResult) → State → CmdResult
  | [], s => .ok s
  | c :: cs, s =>
    match c s with
    | .ok s' => runSequence cs s'
    | .err e step s' => .err e step s'

/-! ### Failure effects and resets -/

/-- FT, TREE and CB become empty and invalid (R195, the failure column of FT_BUILD). -/
def State.clearTables (s : State) : State := { s with ft := none, tree := none, cb := none }

/-- The effects of a reset, hard or soft (R75, R451, R452): every value of R75, and fresh draws for SIN and CBUF
(R76). The outside world's moves, the pin's level and the parameters are not the block's to reset. -/
def resetBlock (s : State) : State :=
  { State.resetFor s.cfg with
    rstN := s.rstN, readData := s.readData, agenda := s.agenda, epoch := s.epoch + 1, draws := s.draws }

end Sys2Proof.Machine
end

