-- ==== Sys2Proof/Machine/Flags.lean ====
section
/-! DEFINITION. STATUS, CTRL and irq: every flag, how it is read and how it is written (spec/10_state.md R43, R44,
R73; spec/60_exceptions.md R421). HUFFCORE has no arithmetic condition codes (R73). -/

namespace Sys2Proof.Machine

open Sys2Proof

/-- STATUS.BUSY, bit 0: 1 exactly when eng = BUSY(w) (R31). -/
def State.busy (s : State) : Bool :=
  match s.eng with
  | .idle => false
  | .busy _ => true

/-- STATUS.ERR, bit 2: 1 exactly when ERRCODE[7:0] is not 0 (R44, R73). -/
def State.err (s : State) : Bool := !(s.errcode.setWidth 8 == (0 : Byte))

/-- STATUS.FT_VALID, bit 8 (R69). -/
def State.ftValid (s : State) : Bool := s.ft.isSome

/-- STATUS.TREE_VALID, bit 9 (R69). -/
def State.treeValid (s : State) : Bool := s.tree.isSome

/-- STATUS.CB_VALID, bit 10 (R69). -/
def State.cbValid (s : State) : Bool := s.cb.isSome

/-- STATUS.BITS_VALID, bit 11 (R69). -/
def State.bitsValid (s : State) : Bool := s.bits.isSome

/-- STATUS.PK_VALID, bit 12 (R69). -/
def State.pkValid (s : State) : Bool := s.pk.isSome

/-- The five valid flags, STATUS[12:8]: PK, BITS, CB, TREE, FT from bit 12 down (R44). -/
def State.validBits (s : State) : BitVec 5 :=
  BitVec.ofBool s.pkValid ++ BitVec.ofBool s.bitsValid ++ BitVec.ofBool s.cbValid
    ++ BitVec.ofBool s.treeValid ++ BitVec.ofBool s.ftValid

/-- STATUS[4:0]: WR_DROPPED, CMD_DROPPED, ERR, DONE, BUSY from bit 4 down (R44). -/
def State.lowBits (s : State) : BitVec 5 :=
  BitVec.ofBool s.wrDropped ++ BitVec.ofBool s.cmdDropped ++ BitVec.ofBool s.err
    ++ BitVec.ofBool s.done ++ BitVec.ofBool s.busy

/-- STATUS as one word from its two groups of bits; bits 7:5 and 31:13 are reserved and read 0 (R41, R44). -/
def statusWord (valid low : BitVec 5) : Word := (0 : BitVec 19) ++ valid ++ (0 : BitVec 3) ++ low

/-- STATUS while IDLE (R44). -/
def State.status (s : State) : Word := statusWord s.validBits s.lowBits

/-- CTRL read: IRQ_EN in bit 0, every other bit 0 (R43). -/
def State.ctrl (s : State) : Word := (BitVec.ofBool s.irqEn).setWidth 32

/-- The irq output: DONE AND CTRL.IRQ_EN at every moment, a level (R421). -/
def State.irq (s : State) : Bool := s.done && s.irqEn

/-- A write to STATUS clears each of bits 1, 3 and 4 that the value has set, and does nothing else (R44). -/
def writeStatus (v : Word) (s : State) : State :=
  { s with
    done := s.done && !v.getLsbD 1
    cmdDropped := s.cmdDropped && !v.getLsbD 3
    wrDropped := s.wrDropped && !v.getLsbD 4 }

/-- A write to CTRL: bit 1 performs a soft reset and the other bits are then ignored (R43, R452); else bit 0 is
IRQ_EN. -/
def writeCtrl (v : Word) (s : State) : State :=
  if v.getLsbD 1 then resetBlock s else { s with irqEn := v.getLsbD 0 }

end Sys2Proof.Machine
end

