-- ==== Sys2Proof/Machine/Operands.lean ====
section
/-! DEFINITION. The register map and every register's read and write form (spec/10_state.md R40 to R59,
spec/20_memory.md R111). These registers and the buffers behind them are the operands of every command
(spec/30_encoding.md R143). -/

namespace Sys2Proof.Machine

open Sys2Proof

/-- The registers of R40. -/
inductive Reg where
  | id
  | version
  | ctrl
  | status
  | cmd
  | errcode
  | sinLen
  | sinIdx
  | sinData
  | cbufLen
  | cbufIdx
  | cbufData
  | soutLen
  | soutIdx
  | soutData
  | ftCount
  | ftIdx
  | ftSym
  | ftFreq
  | cbLen
  | cbBitpos
  | cbBit
  | bitsLen
  | bitsIdx
  | bitsData
  | pkLen
  | pkIdx
  | pkData
  | origBytes
  | compBytes
  deriving DecidableEq, Repr

/-- Access codes of R40. -/
inductive Access where
  /-- Read only: writes are ignored. -/
  | ro
  /-- Read and write. -/
  | rw
  /-- Write only: reads return 0. -/
  | wo
  /-- Write 1 to clear (STATUS, RO/W1C). -/
  | w1c
  deriving DecidableEq, Repr

/-- The byte offset of a register from BASE (R40). -/
def regOffset : Reg → BitVec 8
  | .id => 0x00
  | .version => 0x04
  | .ctrl => 0x08
  | .status => 0x0C
  | .cmd => 0x10
  | .errcode => 0x14
  | .sinLen => 0x18
  | .sinIdx => 0x1C
  | .sinData => 0x20
  | .cbufLen => 0x24
  | .cbufIdx => 0x28
  | .cbufData => 0x2C
  | .soutLen => 0x30
  | .soutIdx => 0x34
  | .soutData => 0x38
  | .ftCount => 0x3C
  | .ftIdx => 0x40
  | .ftSym => 0x44
  | .ftFreq => 0x48
  | .cbLen => 0x4C
  | .cbBitpos => 0x50
  | .cbBit => 0x54
  | .bitsLen => 0x58
  | .bitsIdx => 0x5C
  | .bitsData => 0x60
  | .pkLen => 0x64
  | .pkIdx => 0x68
  | .pkData => 0x6C
  | .origBytes => 0x70
  | .compBytes => 0x74

/-- The access code of a register (R40). -/
def regAccess : Reg → Access
  | .id => .ro
  | .version => .ro
  | .ctrl => .rw
  | .status => .w1c
  | .cmd => .wo
  | .errcode => .ro
  | .sinLen => .rw
  | .sinIdx => .rw
  | .sinData => .rw
  | .cbufLen => .rw
  | .cbufIdx => .rw
  | .cbufData => .rw
  | .soutLen => .ro
  | .soutIdx => .rw
  | .soutData => .ro
  | .ftCount => .ro
  | .ftIdx => .rw
  | .ftSym => .ro
  | .ftFreq => .ro
  | .cbLen => .ro
  | .cbBitpos => .rw
  | .cbBit => .ro
  | .bitsLen => .ro
  | .bitsIdx => .rw
  | .bitsData => .ro
  | .pkLen => .ro
  | .pkIdx => .rw
  | .pkData => .ro
  | .origBytes => .ro
  | .compBytes => .ro

/-- The registers in the order of the map. -/
def allRegs : List Reg :=
  [.id, .version, .ctrl, .status, .cmd, .errcode, .sinLen, .sinIdx, .sinData, .cbufLen, .cbufIdx, .cbufData,
   .soutLen, .soutIdx, .soutData]
  ++ [.ftCount, .ftIdx, .ftSym, .ftFreq, .cbLen, .cbBitpos, .cbBit, .bitsLen, .bitsIdx, .bitsData, .pkLen, .pkIdx,
   .pkData, .origBytes, .compBytes]

/-- The register a transaction reaches: only with size 4 at a mapped, aligned offset (R34, R111). Every other
transaction reaches none, the reserved offsets 0x78 .. 0xFC too (R41). -/
def regAt (off : BitVec 8) (size : AccessSize) : Option Reg :=
  match size with
  | .byte => none
  | .half => none
  | .word => allRegs.find? fun r => regOffset r == off

/-- The offset in the register window that an address of the platform's bus names, if it lies in the window at BASE
(R33, R120). The platform's bus uses it; no rule of the block reads BASE (log 16). -/
def windowOffset (p : Params) (addr : Nat) : Option (BitVec 8) :=
  if p.base ≤ addr ∧ addr < p.base + 256 then some (BitVec.ofNat 8 (addr - p.base)) else none

/-- A natural number as a register value. -/
def asWord (n : Nat) : Word := BitVec.ofNat 32 n

/-- The value of a read of a register while IDLE (R42 to R59). No read has a side effect (R116). -/
def readRegister (s : State) : Reg → Word
  | .id => 0x48554646
  | .version => 7
  | .ctrl => s.ctrl
  | .status => s.status
  | .cmd => 0
  | .errcode => s.errcode
  | .sinLen => s.sinLen
  | .sinIdx => s.sinIdx
  | .sinData => if s.sinIdx.toNat < s.cfg.sinCap then s.sinAt s.sinIdx.toNat else 0
  | .cbufLen => s.cbufLen
  | .cbufIdx => s.cbufIdx
  | .cbufData => if s.cbufIdx.toNat < s.cfg.cbufCap then (s.cbufAt s.cbufIdx.toNat).setWidth 32 else 0
  | .soutLen => asWord s.sout.length
  | .soutIdx => s.soutIdx
  | .soutData => asWord (s.sout[s.soutIdx.toNat]?.getD 0)
  | .ftCount => asWord s.ftEntries.length
  | .ftIdx => s.ftIdx
  | .ftSym => asWord ((s.ftEntries[s.ftIdx.toNat]?.map Entry.sym).getD 0)
  | .ftFreq => asWord ((s.ftEntries[s.ftIdx.toNat]?.map Entry.freq).getD 0)
  | .cbLen => asWord ((s.cbCodes[s.ftIdx.toNat]?.map List.length).getD 0)
  | .cbBitpos => s.cbBitpos
  | .cbBit => asWord ((((s.cbCodes[s.ftIdx.toNat]?.getD [])[s.cbBitpos.toNat]?).map Bool.toNat).getD 0)
  | .bitsLen => asWord s.bitStream.length
  | .bitsIdx => s.bitsIdx
  | .bitsData => asWord ((s.bitStream[s.bitsIdx.toNat]?.map Bool.toNat).getD 0)
  | .pkLen => asWord s.pkBytes.length
  | .pkIdx => s.pkIdx
  | .pkData => asWord ((s.pkBytes[s.pkIdx.toNat]?.map BitVec.toNat).getD 0)
  | .origBytes => s.origBytes
  | .compBytes => s.compBytes

/-- The value of a read of a register while BUSY, `draw` being the free value of this read: ID, VERSION, CTRL, ERRCODE
and STATUS[4:0] are defined, STATUS[12:8] and every other register are drawn (R462; logs 3, 9, 10). -/
def readRegisterBusy (draw : Word) (s : State) : Reg → Word
  | .id => 0x48554646
  | .version => 7
  | .ctrl => s.ctrl
  | .status => statusWord (draw.extractLsb' 8 5) s.lowBits
  | .errcode => s.errcode
  | _ => draw

/-- The effect of a write to a RW register other than CTRL while IDLE (R47 to R57). A data write at or beyond the
buffer's end is ignored (R48, R50). Every other register: nothing. -/
def storeRegister (v : Word) (s : State) : Reg → State
  | .sinLen => { s with sinLen := v }
  | .sinIdx => { s with sinIdx := v }
  | .sinData =>
    if s.sinIdx.toNat < s.cfg.sinCap then { s with sin := Memory.write s.sin s.sinIdx.toNat v } else s
  | .cbufLen => { s with cbufLen := v }
  | .cbufIdx => { s with cbufIdx := v }
  | .cbufData =>
    if s.cbufIdx.toNat < s.cfg.cbufCap then
      { s with cbuf := Memory.write s.cbuf s.cbufIdx.toNat (v.setWidth 8) }
    else s
  | .soutIdx => { s with soutIdx := v }
  | .ftIdx => { s with ftIdx := v }
  | .cbBitpos => { s with cbBitpos := v }
  | .bitsIdx => { s with bitsIdx := v }
  | .pkIdx => { s with pkIdx := v }
  | _ => s

/-- A write to CMD: accepted while IDLE (R45); dropped while BUSY, and CMD_DROPPED is set (R460). -/
def writeCmd (v : Word) (s : State) : State :=
  if s.busy then { s with cmdDropped := true } else accept v s

/-- A write to a RW register other than CTRL: dropped while BUSY, and WR_DROPPED is set (R461). -/
def writeRw (r : Reg) (v : Word) (s : State) : State :=
  if s.busy then { s with wrDropped := true } else storeRegister v s r

/-- A write that reaches a register. CTRL and STATUS writes take effect while BUSY too; a write to a RO register does
nothing, BUSY or not (R461). -/
def writeRegister (r : Reg) (v : Word) (s : State) : State :=
  match r with
  | .ctrl => writeCtrl v s
  | .status => writeStatus v s
  | .cmd => writeCmd v s
  | r =>
    match regAccess r with
    | .rw => writeRw r v s
    | .ro => s
    | .wo => s
    | .w1c => s

end Sys2Proof.Machine
end

