-- ==== Sys2Proof/Machine/Bus.lean ====
section
/-! DEFINITION. Host transactions and the reset pin (spec/10_state.md R34, spec/70_reset_and_hazards.md R450). -/

namespace Sys2Proof.Machine

open Sys2Proof

/-- A Read (R34). It changes no state of the block (R116); the model's own fields record the value returned and, when
the register was read while BUSY, that one draw was used (R462). During reset it returns 0 (R450). -/
def hostRead (off : BitVec 8) (size : AccessSize) (s : State) : State :=
  if s.rstN then
    match regAt off size with
    | none => { s with readData := some 0 }
    | some r =>
      if s.busy then
        { s with readData := some (readRegisterBusy (Config.busyRead s.draws) s r), draws := s.draws + 1 }
      else { s with readData := some (readRegister s r) }
  else { s with readData := some 0 }

/-- A Write (R34). During reset it has no effect (R450). -/
def hostWrite (off : BitVec 8) (size : AccessSize) (data : Word) (s : State) : State :=
  if s.rstN then
    match regAt off size with
    | none => s
    | some r => writeRegister r data s
  else s

/-- A host transaction (R34). -/
def hostTransaction (t : Transaction) (s : State) : State :=
  match t with
  | .read off size => hostRead off size s
  | .write off size data => hostWrite off size data s

/-- The reset pin takes a level: low is a hard reset, and the state is held while the pin stays low; high ends it
(R450, R451; log 8). -/
def setResetPin (high : Bool) (s : State) : State :=
  if high then { s with rstN := true } else { resetBlock s with rstN := false }

end Sys2Proof.Machine
end

