-- ==== Sys2Proof/Machine/Control.lean ====
section
/-! DEFINITION. NOP and IllegalCommand (spec/40_command_model.md R200, R201). -/

namespace Sys2Proof.Machine

open Sys2Proof

/-- NOP as a command: no updates (R200). -/
def nopCmd (s : State) : CmdResult := .ok s

/-- NOP (R200). -/
def execNop (s : State) : Host.Outcome State Fault Refusal := finish (nopCmd s)

/-- IllegalCommand: error 7, STEP = w[7:0], no updates (R201). -/
def illegalCmd (w : Word) (s : State) : CmdResult := .err .illegalCommand (opcField w) s

/-- The completion of a word that is no command (R142, R201). -/
def execIllegal (w : Word) (s : State) : Host.Outcome State Fault Refusal := finish (illegalCmd w s)

end Sys2Proof.Machine
end

