-- ==== Sys2Proof/Machine/Formats.lean ====
section
/-! DEFINITION. The encodings of spec/30_encoding.md: big-endian fields, UTF-8 symbol bytes, the packed section and
the container. -/

namespace Sys2Proof.Machine

open Sys2Proof

/-! ### Big-endian fields (R13, R105) -/

/-- be16(v) (R13). -/
def be16 (v : Nat) : List Byte := [BitVec.ofNat 8 (v / 2 ^ 8), BitVec.ofNat 8 v]

/-- be32(v) (R13). -/
def be32 (v : Nat) : List Byte :=
  [BitVec.ofNat 8 (v / 2 ^ 24), BitVec.ofNat 8 (v / 2 ^ 16), BitVec.ofNat 8 (v / 2 ^ 8), BitVec.ofNat 8 v]

/-- unbe16(b0, b1) (R13). -/
def unbe16 (b0 b1 : Byte) : Nat := b0.toNat * 256 + b1.toNat

/-- unbe32(b0, b1, b2, b3) (R13). -/
def unbe32 (b0 b1 b2 b3 : Byte) : Nat :=
  ((b0.toNat * 256 + b1.toNat) * 256 + b2.toNat) * 256 + b3.toNat

/-! ### Symbols (R17, R170 to R172) -/

/-- scalar(s): a Unicode scalar value (R17). -/
def scalar (s : Nat) : Bool := decide (s ≤ 0x10FFFF) && !(decide (0xD800 ≤ s) && decide (s ≤ 0xDFFF))

/-- utf8(s) for a scalar value (R170). -/
def utf8 (s : Nat) : List Byte :=
  if s ≤ 0x7F then [BitVec.ofNat 8 s]
  else if s ≤ 0x7FF then
    [BitVec.ofNat 8 (0xC0 + s / 2 ^ 6), BitVec.ofNat 8 (0x80 + s % 2 ^ 6)]
  else if s ≤ 0xFFFF then
    [BitVec.ofNat 8 (0xE0 + s / 2 ^ 12), BitVec.ofNat 8 (0x80 + s / 2 ^ 6 % 2 ^ 6),
      BitVec.ofNat 8 (0x80 + s % 2 ^ 6)]
  else
    [BitVec.ofNat 8 (0xF0 + s / 2 ^ 18), BitVec.ofNat 8 (0x80 + s / 2 ^ 12 % 2 ^ 6),
      BitVec.ofNat 8 (0x80 + s / 2 ^ 6 % 2 ^ 6), BitVec.ofNat 8 (0x80 + s % 2 ^ 6)]

/-- utf8len(s) (R171). -/
def utf8len (s : Nat) : Nat := (utf8 s).length

/-- The only number whose UTF-8 encoding the bytes could be, by their count (R170). -/
def utf8Candidate : List Byte → Option Nat
  | [a] => some a.toNat
  | [a, b] => some (a.toNat % 2 ^ 5 * 2 ^ 6 + b.toNat % 2 ^ 6)
  | [a, b, c] => some ((a.toNat % 2 ^ 4 * 2 ^ 6 + b.toNat % 2 ^ 6) * 2 ^ 6 + c.toNat % 2 ^ 6)
  | [a, b, c, d] =>
    some (((a.toNat % 2 ^ 3 * 2 ^ 6 + b.toNat % 2 ^ 6) * 2 ^ 6 + c.toNat % 2 ^ 6) * 2 ^ 6 + d.toNat % 2 ^ 6)
  | _ => none

/-- unutf8(u): the scalar value whose UTF-8 encoding is u, none when u is no valid symbol encoding (R172). -/
def unutf8 (u : List Byte) : Option Nat :=
  match utf8Candidate u with
  | some s => if scalar s && utf8 s == u then some s else none
  | none => none

/-! ### The packed section (R106, R167) -/

/-- The padding count of an n-bit stream (R167, R311). -/
def padCount (n : Nat) : Nat := (8 - n % 8) % 8

/-- A group of eight bits as a byte, the first bit most significant (R106, R167). -/
def byteOfBits (b : List Bool) : Byte := BitVec.ofNat 8 (b.foldl (fun v x => 2 * v + x.toNat) 0)

/-- The first n groups of eight bits, each as a byte (R167). -/
def groupBytes : Nat → List Bool → List Byte
  | 0, _ => []
  | n + 1, b => byteOfBits (b.take 8) :: groupBytes n (b.drop 8)

/-- packed(b): the padding count, then the padded bits in groups of eight (R167). -/
def packed (b : List Bool) : List Byte :=
  let p := padCount b.length
  BitVec.ofNat 8 p :: groupBytes ((b.length + p) / 8) (b ++ List.replicate p false)

/-- The eight bits of a byte, most significant first (R106, R320). -/
def bitsOfByte (x : Byte) : List Bool := (List.range 8).map fun k => x.toNat / 2 ^ (7 - k) % 2 == 1

/-- The bits of a byte list, byte after byte (R320, R321). -/
def expandBytes (bs : List Byte) : List Bool := bs.flatMap bitsOfByte

/-! ### The container (R160, R161) -/

/-- entry((s, f)) (R161). -/
def entryBytes (e : Entry) : List Byte :=
  BitVec.ofNat 8 (utf8len e.sym) :: (utf8 e.sym ++ be32 e.freq)

/-- container(T, P) (R161). -/
def container (t : List Entry) (p : List Byte) : List Byte :=
  be16 t.length ++ (t.flatMap entryBytes ++ p)

end Sys2Proof.Machine
end

