-- ==== Sys2Proof/Machine/Bitpack.lean ====
section
/-! DEFINITION. The bit-packer, the bit-unpacker and the tree-descent decoder: PACK, UNPACK and DECODE
(spec/44_bitpack.md). -/

namespace Sys2Proof.Machine

open Sys2Proof

/-- PACK as a command (R310, R312). -/
def packCmd (s : State) : CmdResult :=
  match s.bits with
  | none => sequenceError .pack s
  | some b =>
    if s.cfg.cbufCap < (packed b).length then raiseIn .pack .outputWrite { s with pk := none }
    else .ok { s with pk := some (packed b) }

/-- PACK (R310). -/
def execPack (s : State) : Host.Outcome State Fault Refusal := finish (packCmd s)

/-- The bits of a packed section: the expansion of the bytes after PK[0] less its last min(PK[0], length) bits; none
stands for MalformedBufferError (R320 to R323). -/
def unpackBits : List Byte → Option (List Bool)
  | [] => none
  | p :: bs =>
    if 7 < p.toNat then none
    else some ((expandBytes bs).take ((expandBytes bs).length - min p.toNat (expandBytes bs).length))

/-- UNPACK as a command (R320). -/
def unpackCmd (s : State) : CmdResult :=
  match s.pk with
  | none => sequenceError .unpack s
  | some pk =>
    match unpackBits pk with
    | none => raiseIn .unpack .malformedBuffer { s with bits := none }
    | some b => .ok { s with bits := some b }

/-- UNPACK (R320). -/
def execUnpack (s : State) : Host.Outcome State Fault Refusal := finish (unpackCmd s)

/-- subtree(t, path) of R330; none off the tree, which the walk never asks for (R331; log 11). -/
def subtree : HuffTree → List Bool → Option HuffTree
  | t, [] => some t
  | .node l _ _, false :: q => subtree l q
  | .node _ r _, true :: q => subtree r q
  | .leaf _ _, _ :: _ => none
  | .placeholder, _ :: _ => none

/-- The loop of R330: `path` holds the bits read since the last emit. None stands for CorruptStreamError, at the
placeholder (R332) or at an end mid-code (R333). -/
def decodeWalk (t : HuffTree) : (path : List Bool) → List Bool → Option (List Nat)
  | [], [] => some []
  | _ :: _, [] => none
  | path, b :: bs =>
    match subtree t (path ++ [b]) with
    | some (.leaf x _) =>
      match decodeWalk t [] bs with
      | some out => some (x :: out)
      | none => none
    | some (.node _ _ _) => decodeWalk t (path ++ [b]) bs
    | some .placeholder => none
    | none => none

/-- W, the sum of FT's frequencies: the length of the original text (R334). -/
def totalFreq (ft : List Entry) : Nat := (ft.map Entry.freq).sum

/-- DECODE as a command (R330, R334, R335). -/
def decodeCmd (s : State) : CmdResult :=
  match s.tree, s.bits with
  | none, _ => sequenceError .decode s
  | some _, none => sequenceError .decode s
  | some t, some b =>
    match decodeWalk t [] b with
    | none => raiseIn .decode .corruptStream { s with sout := [] }
    | some out =>
      if out.length ≠ totalFreq s.ftEntries then raiseIn .decode .corruptStream { s with sout := [] }
      else if s.cfg.soutCap < out.length then raiseIn .decode .outputWrite { s with sout := [] }
      else .ok { s with sout := out }

/-- DECODE (R330). -/
def execDecode (s : State) : Host.Outcome State Fault Refusal := finish (decodeCmd s)

end Sys2Proof.Machine
end

