-- ==== Sys2Proof/Machine/FreqTable.lean ====
section
/-! DEFINITION. The frequency-table builder, FT_BUILD (spec/41_freq_table.md). -/

namespace Sys2Proof.Machine

open Sys2Proof

/-- Count one symbol: the entry that has it gets freq + 1, else a new last entry has freq 1 (R230, R232). -/
def countSymbol (x : Nat) : List Entry → List Entry
  | [] => [⟨x, 1⟩]
  | e :: t => if e.sym = x then ⟨e.sym, e.freq + 1⟩ :: t else e :: countSymbol x t

/-- The frequency table of a text, entries in order of first occurrence (R232). -/
def freqTable (txt : List Nat) : List Entry := txt.foldl (fun t x => countSymbol x t) []

/-- The text FT_BUILD and ENCODE read: the first SIN_LEN words of SIN (R47, R102). -/
def State.text (s : State) : List Nat := (s.sinRead 0 s.sinLen.toNat).map BitVec.toNat

/-- FT_BUILD as a command (R230). -/
def ftBuildCmd (s : State) : CmdResult :=
  if s.cfg.sinCap < s.sinLen.toNat then raiseIn .ftBuild .inputUnavailable s.clearTables
  else if s.text.all scalar = false then raiseIn .ftBuild .inputUnavailable s.clearTables
  else if 65535 < (freqTable s.text).length then raiseIn .ftBuild .formatLimit s.clearTables
  else if (freqTable s.text).any (fun e => decide (2 ^ 32 - 1 < e.freq)) then
    raiseIn .ftBuild .formatLimit s.clearTables
  else
    .ok { s with
          ft := some (freqTable s.text), tree := none, cb := none
          origBytes := BitVec.ofNat 32 ((s.text.map utf8len).sum) }

/-- FT_BUILD (R230). -/
def execFtBuild (s : State) : Host.Outcome State Fault Refusal := finish (ftBuildCmd s)

end Sys2Proof.Machine
end

