-- ==== Sys2Proof/Machine/Codebook.lean ====
section
/-! DEFINITION. The codebook generator and symbol encoder, CB_GEN and ENCODE (spec/43_codebook.md). -/

namespace Sys2Proof.Machine

open Sys2Proof

/-- C[j] <- path for the j with FT[j].sym = sym (R281). -/
def recordCode (sym : Nat) (path : Code) : List Entry → List Code → List Code
  | e :: ft, c :: cs => (if e.sym = sym then path else c) :: recordCode sym path ft cs
  | _, cs => cs

/-- walk(u, prefix) of R281 on the codes C; the placeholder records nothing (R282). -/
def walkCodes (ft : List Entry) : HuffTree → (path : Code) → List Code → List Code
  | .leaf sym _, path, cs => recordCode sym path ft cs
  | .placeholder, _, cs => cs
  | .node l r _, path, cs => walkCodes ft r (path ++ [true]) (walkCodes ft l (path ++ [false]) cs)

/-- codes(t, FT) (R281). -/
def codesOf (t : HuffTree) (ft : List Entry) : List Code :=
  walkCodes ft t [] (List.replicate ft.length [])

/-- CB_GEN as a command (R280). It reads FT for the entry indices, as R280 and R281 say; R143's row of CB_GEN lists TREE
and TREE_VALID alone, and the model follows the command's own rule (log 20). -/
def cbGenCmd (s : State) : CmdResult :=
  match s.tree with
  | none => sequenceError .cbGen s
  | some t => .ok { s with cb := some (codesOf t s.ftEntries) }

/-- CB_GEN (R280). -/
def execCbGen (s : State) : Host.Outcome State Fault Refusal := finish (cbGenCmd s)

/-- CB[j] for the j with FT[j].sym = x; none when no entry has the symbol (R290). -/
def codeFor (ft : List Entry) (cs : List Code) (x : Nat) : Option Code :=
  match ft, cs with
  | [], _ => none
  | e :: ft, cs => if e.sym = x then some (cs.headD []) else codeFor ft cs.tail x

/-- The codes of the text's symbols, one after the other; none stands for UnknownSymbol (R290, R292). -/
def encodeText (ft : List Entry) (cs : List Code) : List Nat → Option (List Bool)
  | [] => some []
  | x :: xs =>
    match codeFor ft cs x with
    | none => none
    | some c =>
      match encodeText ft cs xs with
      | none => none
      | some out => some (c ++ out)

/-- ENCODE as a command (R290, R291). -/
def encodeCmd (s : State) : CmdResult :=
  match s.cb with
  | none => sequenceError .encode s
  | some cs =>
    if s.cfg.sinCap < s.sinLen.toNat then raiseIn .encode .inputUnavailable { s with bits := none }
    else
      match encodeText s.ftEntries cs s.text with
      | none => raiseIn .encode .unknownSymbol { s with bits := none }
      | some out =>
        if 8 * s.cfg.cbufCap < out.length then raiseIn .encode .outputWrite { s with bits := none }
        else .ok { s with bits := some out }

/-- ENCODE (R290). -/
def execEncode (s : State) : Host.Outcome State Fault Refusal := finish (encodeCmd s)

end Sys2Proof.Machine
end

