-- ==== Sys2Proof/Machine/Container.lean ====
section
/-! DEFINITION. The container serializer and deserializer, SERIALIZE and DESERIALIZE (spec/45_container.md). -/

namespace Sys2Proof.Machine

open Sys2Proof

/-- SERIALIZE as a command (R350, R352, R353). -/
def serializeCmd (s : State) : CmdResult :=
  match s.ft, s.pk with
  | none, _ => sequenceError .serialize s
  | some _, none => sequenceError .serialize s
  | some ft, some pk =>
    if ft.length = 0 then raiseIn .serialize .emptyInput s
    else if 65535 < ft.length then raiseIn .serialize .formatLimit s
    else if s.cfg.cbufCap < (container ft pk).length then raiseIn .serialize .outputWrite s
    else
      .ok { s with
            cbuf := Memory.writeList s.cbuf 0 (container ft pk)
            cbufLen := BitVec.ofNat 32 (container ft pk).length
            compBytes := BitVec.ofNat 32 (container ft pk).length }

/-- SERIALIZE (R350). -/
def execSerialize (s : State) : Host.Outcome State Fault Refusal := finish (serializeCmd s)

/-- `count` more entries of the table, after the entries `t`, from the bytes `b`: the table and the bytes left. None
stands for CorruptStreamError (R354, R356, R357). -/
def parseEntries : (count : Nat) → (t : List Entry) → (b : List Byte) → Option (List Entry × List Byte)
  | 0, t, b => some (t, b)
  | _ + 1, _, [] => none
  | k + 1, t, n :: b =>
    if b.length < n.toNat then none
    else
      match unutf8 (b.take n.toNat) with
      | none => none
      | some x =>
        match b.drop n.toNat with
        | b0 :: b1 :: b2 :: b3 :: rest =>
          if unbe32 b0 b1 b2 b3 = 0 then none
          else if t.any (fun e => e.sym == x) then none
          else parseEntries k (t ++ [⟨x, unbe32 b0 b1 b2 b3⟩]) rest
        | _ => none

/-- A whole container: the table and the packed section, every byte after the last entry (R354, R358). None stands
for CorruptStreamError. -/
def parseContainer : List Byte → Option (List Entry × List Byte)
  | b0 :: b1 :: rest => parseEntries (unbe16 b0 b1) [] rest
  | _ => none

/-- The failure effects of DESERIALIZE (R195). -/
def State.clearParsed (s : State) : State := { s.clearTables with pk := none }

/-- DESERIALIZE as a command (R354, R355). -/
def deserializeCmd (s : State) : CmdResult :=
  if s.cfg.cbufCap < s.cbufLen.toNat then raiseIn .deserialize .inputUnavailable s.clearParsed
  else
    match parseContainer (s.cbufRead 0 s.cbufLen.toNat) with
    | none => raiseIn .deserialize .corruptStream s.clearParsed
    | some (t, p) => .ok { s with ft := some t, pk := some p, tree := none, cb := none }

/-- DESERIALIZE (R354). -/
def execDeserialize (s : State) : Host.Outcome State Fault Refusal := finish (deserializeCmd s)

end Sys2Proof.Machine
end

