-- ==== Sys2Proof/Machine/TreeBuild.lean ====
section
/-! DEFINITION. The Huffman tree synthesizer, TREE_BUILD (spec/42_tree.md). -/

namespace Sys2Proof.Machine

open Sys2Proof

/-- freq of a tree (R62). -/
def treeFreq : HuffTree → Nat
  | .leaf _ f => f
  | .placeholder => 0
  | .node _ _ f => f

/-- An element of the queue Q of R252, with its key (freq, seq) (R251). -/
structure QItem where
  freq : Nat
  seq  : Nat
  tree : HuffTree
  deriving DecidableEq, Repr

/-- The key order of R251: first freq, then seq. -/
def keyLt (a b : QItem) : Bool := decide (a.freq < b.freq) || (a.freq == b.freq && decide (a.seq < b.seq))

/-- The element with the least key of a non-empty queue, and the queue without it (R252). -/
def extractLeast (x : QItem) : List QItem → QItem × List QItem
  | [] => (x, [])
  | y :: q =>
    if keyLt y x then
      let r := extractLeast y q
      (r.1, x :: r.2)
    else
      let r := extractLeast x q
      (r.1, y :: r.2)

/-- The node made of the two elements extracted, in that order: first left, second right (R254). -/
def mergeItems (a b : QItem) (seq : Nat) : QItem :=
  { freq := a.freq + b.freq, seq := seq, tree := .node a.tree b.tree (a.freq + b.freq) }

/-- The loop of R252 on the non-empty queue `x :: q`, for `passes` passes, the next node's seq being `next`. It
stops early when one element is left. -/
def mergeLoop : (passes : Nat) → (next : Nat) → QItem → List QItem → HuffTree
  | 0, _, x, _ => x.tree
  | n + 1, next, x, q =>
    match extractLeast x q with
    | (a, []) => a.tree
    | (a, y :: q') =>
      match extractLeast y q' with
      | (b, q'') => mergeLoop n (next + 1) (mergeItems a b next) q''

/-- The leaves of an FT as queue elements, the first with seq `i` (R251). -/
def leafItems : (i : Nat) → List Entry → List QItem
  | _, [] => []
  | i, e :: t => { freq := e.freq, seq := i, tree := .leaf e.sym e.freq } :: leafItems (i + 1) t

/-- tree(FT) (R252): none stands for EmptyInputError (R255); one entry is the degenerate case (R253); else
|FT| - 1 merges (R254). -/
def huffmanTree (ft : List Entry) : Option HuffTree :=
  match ft with
  | [] => none
  | [e] => some (.node (.leaf e.sym e.freq) .placeholder e.freq)
  | e :: t =>
    some (mergeLoop t.length ft.length
      { freq := e.freq, seq := 0, tree := .leaf e.sym e.freq } (leafItems 1 t))

/-- TREE_BUILD as a command (R250). -/
def treeBuildCmd (s : State) : CmdResult :=
  match s.ft with
  | none => sequenceError .treeBuild s
  | some ft =>
    match huffmanTree ft with
    | none => raiseIn .treeBuild .emptyInput { s with tree := none, cb := none }
    | some t => .ok { s with tree := some t, cb := none }

/-- TREE_BUILD (R250). -/
def execTreeBuild (s : State) : Host.Outcome State Fault Refusal := finish (treeBuildCmd s)

end Sys2Proof.Machine
end

