-- ==== Sys2Proof/Machine/Pipeline.lean ====
section
/-! DEFINITION. The composite commands, COMPRESS and DECOMPRESS (spec/45_container.md R360 to R363). -/

namespace Sys2Proof.Machine

open Sys2Proof

/-- COMPRESS as a command (R360). -/
def compressCmd (s : State) : CmdResult :=
  runSequence [ftBuildCmd, treeBuildCmd, cbGenCmd, encodeCmd, packCmd, serializeCmd] s

/-- COMPRESS (R360): one completion step for the whole pipeline (R361). -/
def execCompress (s : State) : Host.Outcome State Fault Refusal := finish (compressCmd s)

/-- DECOMPRESS as a command (R362). -/
def decompressCmd (s : State) : CmdResult :=
  runSequence [deserializeCmd, treeBuildCmd, unpackCmd, decodeCmd] s

/-- DECOMPRESS (R362): one completion step for the whole pipeline (R361). -/
def execDecompress (s : State) : Host.Outcome State Fault Refusal := finish (decompressCmd s)

end Sys2Proof.Machine
end

