-- ==== Sys2Proof/Machine/Schedule.lean ====
section
/-! DEFINITION. Which agent moves, and the engine's move (spec/10_state.md R30 to R32, spec/70_reset_and_hazards.md
R470, R471; log 4). -/

namespace Sys2Proof.Machine

open Sys2Proof

/-- The completion step of the latched word `w`: the command it decodes to, or IllegalCommand (R142, R190, R201). -/
def completionStep (w : Word) (s : State) : Host.Outcome State Fault Refusal :=
  match decodeWord w with
  | .ok i => exec i s
  | .error _ => execIllegal w s

/-- A move that has nothing to do: the block holds its state (spec/60_exceptions.md R435). HUFFCORE has no power
states, so no other field says whether it does; a stopped clock is no step at all (log 18). -/
def holdState (s : State) : Host.Outcome State Fault Refusal := .next s

/-- The engine's move: the completion step while BUSY; while IDLE or in reset the block holds its state (R32, R435,
R450). -/
def engineMove (s : State) : Host.Outcome State Fault Refusal :=
  match s.eng with
  | .idle => holdState s
  | .busy w => if s.rstN then completionStep w s else holdState s

/-- One move taken from the agenda. -/
def takeMove (m : Move) (s : State) : Host.Outcome State Fault Refusal :=
  match m with
  | .engine => engineMove s
  | .host t => .next (hostTransaction t s)
  | .rstPin high => .next (setResetPin high s)

/-- The next step of the machine: the first move of the agenda; with the agenda used up the engine moves, so an
accepted command completes (R471). -/
def nextStep (s : State) : Host.Outcome State Fault Refusal :=
  match s.agenda with
  | [] => engineMove s
  | m :: rest => takeMove m { s with agenda := rest }

/-- The state with the command word `w` accepted and the engine to move next: what the host's CMD write leaves, with
the pin rst_n high (R45; log 5). -/
def latchCommand (w : Word) (s : State) : State :=
  { accept w s with rstN := true, agenda := .engine :: s.agenda }

end Sys2Proof.Machine
end

