-- ==== Sys2Proof/Machine/Step.lean ====
section
/-! DEFINITION. The step of the machine, and the state whose next step runs a given command word. -/

namespace Sys2Proof.Machine

open Sys2Proof

/-- One step: one move of one agent (spec/10_state.md R30, R32). -/
def step (s : State) : Host.Outcome State Fault Refusal := nextStep s

/-- The state whose very next step runs the command word in the low `nbits` bits of `w`. HUFFCORE fetches no
instruction: the word is latched in eng, as the acceptance of a CMD write leaves it (R31, R45; log 5). -/
def State.withFetchWord (s : State) (nbits w : Nat) : State := latchCommand (tableWord nbits w) s

end Sys2Proof.Machine
end

