-- ==== Sys2Proof/Machine/HostProgram.lean ====
section
/-! DEFINITION. The host-program notation of spec/30_encoding.md R146 and R147, as lists of moves for the agenda, and
the host's own arithmetic of spec/45_container.md R367. The machine's step uses none of it. -/

namespace Sys2Proof.Machine

open Sys2Proof

/-- `W <reg>, <value>`: Write(off, 4, value) (R146). -/
def writeMove (r : Reg) (v : Word) : Move := .host (.write (regOffset r) .word v)

/-- `R <reg>`: Read(off, 4) (R146). -/
def readMove (r : Reg) : Move := .host (.read (regOffset r) .word)

/-- LOADSIN (R147), from index `i` on. -/
def loadSinFrom (i : Nat) : List Word → List Move
  | [] => []
  | x :: xs => writeMove .sinIdx (asWord i) :: writeMove .sinData x :: loadSinFrom (i + 1) xs

/-- LOADSIN s0, s1, ... (R147). -/
def loadSin (xs : List Word) : List Move := loadSinFrom 0 xs ++ [writeMove .sinLen (asWord xs.length)]

/-- LOADCBUF (R147), from index `i` on. -/
def loadCbufFrom (i : Nat) : List Byte → List Move
  | [] => []
  | b :: bs => writeMove .cbufIdx (asWord i) :: writeMove .cbufData (b.setWidth 32) :: loadCbufFrom (i + 1) bs

/-- LOADCBUF b0, ... (R147). -/
def loadCbuf (bs : List Byte) : List Move := loadCbufFrom 0 bs ++ [writeMove .cbufLen (asWord bs.length)]

/-- POLL (R147) as a run sees it: `n` reads of STATUS that find BUSY, the completion step, and the read that ends the
loop (R470, R471). -/
def pollMoves (n : Nat) : List Move := List.replicate n (readMove .status) ++ [.engine, readMove .status]

/-- RUN <mnemonic> (R147), the completion coming after `n` polls. -/
def runMoves (i : Instr) (n : Nat) : List Move := writeMove .cmd (encode i) :: pollMoves n

/-- READSOUT (R147) for a SOUT of `m` symbols. -/
def readSout (m : Nat) : List Move :=
  readMove .soutLen :: (List.range m).flatMap fun i => [writeMove .soutIdx (asWord i), readMove .soutData]

/-- READCBUF (R147) for a CBUF_LEN of `m`. -/
def readCbuf (m : Nat) : List Move :=
  readMove .cbufLen :: (List.range m).flatMap fun i => [writeMove .cbufIdx (asWord i), readMove .cbufData]

/-- CLEARDONE (R147). -/
def clearDone : List Move := [writeMove .status 0x2]

/-- The compression ratio the host computes from the two sizes (R367). -/
def compressionRatio (s : State) : Rat := 1 - (s.compBytes.toNat : Rat) / (s.origBytes.toNat : Rat)

/-- The compression factor the host computes from the two sizes (R367). -/
def compressionFactor (s : State) : Rat := (s.origBytes.toNat : Rat) / (s.compBytes.toNat : Rat)

end Sys2Proof.Machine
end

