-- ==== Sys2Proof/Safety.lean ====
section
/-! DEFINITION. The terms claims are stated in: what holds in every state a run reaches, the shape of a tree, and what
a text compresses to. -/

namespace Sys2Proof.Machine

open Sys2Proof

/-! ### Trees and codebooks -/

/-- The real leaves of a tree, from left to right (spec/10_state.md R62). -/
def leavesOf : HuffTree → List Entry
  | .leaf sym freq => [⟨sym, freq⟩]
  | .placeholder => []
  | .node l r _ => leavesOf l ++ leavesOf r

/-- How many Nodes a tree has. -/
def nodeCount : HuffTree → Nat
  | .leaf _ _ => 0
  | .placeholder => 0
  | .node l r _ => nodeCount l + nodeCount r + 1

/-- How many Placeholders a tree has. -/
def placeholderCount : HuffTree → Nat
  | .leaf _ _ => 0
  | .placeholder => 1
  | .node l r _ => placeholderCount l + placeholderCount r

/-- Every Node's frequency is the sum of its children's (R62). -/
def sumsHold : HuffTree → Bool
  | .leaf _ _ => true
  | .placeholder => true
  | .node l r f => f == treeFreq l + treeFreq r && (sumsHold l && sumsHold r)

/-- No code is a prefix of another code in the list (spec/43_codebook.md R284). -/
def PrefixFree (cs : List Code) : Prop :=
  ∀ i j, (hi : i < cs.length) → (hj : j < cs.length) → i ≠ j → ¬ cs[i] <+: cs[j]

/-- The frequency table of a text said without the builder's loop (spec/41_freq_table.md R232): one entry per distinct
symbol, in order of first occurrence, with its number of occurrences. -/
def countsOf (txt : List Nat) : List Entry := txt.eraseDups.map fun x => ⟨x, txt.count x⟩

/-- The container a non-empty text compresses to (spec/45_container.md R360), none for the empty text. -/
def containerOfText (txt : List Nat) : Option (List Byte) :=
  match huffmanTree (freqTable txt) with
  | none => none
  | some t =>
    match encodeText (freqTable txt) (codesOf t (freqTable txt)) txt with
    | none => none
    | some b => some (container (freqTable txt) (packed b))

/-- The symbols of `txt` are text FT_BUILD accepts and can count: scalar values, at most 65535 distinct (R231,
R236). -/
def Countable (txt : List Nat) : Prop := txt.all scalar = true ∧ txt.eraseDups.length ≤ 65535

/-! ### What holds in every state a run reaches -/

/-- R61 of a table. -/
structure TableOk (ft : List Entry) : Prop where
  distinct : (ft.map Entry.sym).Nodup
  scalars  : ∀ e ∈ ft, scalar e.sym = true
  counts   : ∀ e ∈ ft, 1 ≤ e.freq ∧ e.freq ≤ 2 ^ 32 - 1
  size     : ft.length ≤ 65535

/-- The buffers are in canonical form, inside their capacities. -/
structure BuffersOk (s : State) : Prop where
  sinWf      : Memory.wf s.sin = true
  sinWithin  : Memory.within s.cfg.sinCap s.sin = true
  cbufWf     : Memory.wf s.cbuf = true
  cbufWithin : Memory.within s.cfg.cbufCap s.cbuf = true

/-- CB_VALID implies TREE_VALID implies FT_VALID (R197, R69). -/
structure FlagChain (s : State) : Prop where
  cbNeedsTree : s.cbValid = true → s.treeValid = true
  treeNeedsFt : s.treeValid = true → s.ftValid = true

/-- A valid FT meets R61; a valid TREE is exactly what TREE_BUILD computes from FT (R63); a valid CB is exactly what
CB_GEN computes from TREE (R44, R64). -/
structure StoresOk (s : State) : Prop where
  table    : ∀ ft ∈ s.ft, TableOk ft
  tree     : ∀ t ∈ s.tree, ∃ ft ∈ s.ft, huffmanTree ft = some t
  codebook : ∀ cs ∈ s.cb, ∃ t ∈ s.tree, cs = codesOf t s.ftEntries

/-- The length bounds R67, R68 and R72, and SOUT's symbols (R72). -/
structure LengthsOk (s : State) : Prop where
  bits    : ∀ b ∈ s.bits, b.length ≤ 8 * s.cfg.cbufCap
  pk      : ∀ p ∈ s.pk, p.length ≤ s.cfg.cbufCap
  sout    : s.sout.length ≤ s.cfg.soutCap
  symbols : ∀ x ∈ s.sout, scalar x = true

/-- While BUSY, DONE and ERRCODE are 0 (R45, R462); ERRCODE is 0 or an error of R401 with its STEP (R46). -/
structure ControlOk (s : State) : Prop where
  busyDone : s.busy = true → s.done = false
  busyErr  : s.busy = true → s.errcode = 0
  errcode  : s.errcode = 0 ∨ ∃ e step, s.errcode = errorWord e step

/-- While rst_n is low the block is held at the values of R75 (R450). -/
def HeldInReset (s : State) : Prop :=
  s.rstN = false →
    s = { State.resetFor s.cfg with
          rstN := false, readData := s.readData, agenda := s.agenda, epoch := s.epoch, draws := s.draws }

/-- What holds in every state a run reaches. -/
structure State.Inv (s : State) : Prop where
  params  : s.cfg.wf = true
  buffers : BuffersOk s
  stores  : StoresOk s
  lengths : LengthsOk s
  control : ControlOk s
  held    : HeldInReset s

/-- A move that resets the block: the pin going low, or a Write of CTRL with bit 1 set (R450, R452). -/
def resets : Move → Bool
  | .engine => false
  | .host (.read _ _) => false
  | .host (.write off size data) => regAt off size == some .ctrl && data.getLsbD 1
  | .rstPin high => !high

/-- While IDLE a Read at `off` answers `v` and changes nothing of the block (R116). -/
def ReadsAs (s : State) (off : BitVec 8) (v : Word) : Prop :=
  hostTransaction (.read off .word) s = { s with readData := some v }

/-- The commands run one after the other, each as a command of its own, up to the first whose ERRCODE is not 0. -/
def runUntilError : List Instr → State → Host.Outcome State Fault Refusal
  | [], s => .next s
  | i :: is, s =>
    match exec i s with
    | .next t => if t.err then .next t else runUntilError is t
    | .fault r => .fault r
    | .refused r => .refused r

/-- The bits of a text under a codebook said without the encoder's loop: each symbol's code, by its place in FT
(spec/43_codebook.md R290). -/
def codeBits (ft : List Entry) (cs : List Code) (txt : List Nat) : List Bool :=
  (txt.map fun x => cs.getD (ft.findIdx fun e => e.sym == x) []).flatten

/-- `p` is a list of (symbol, code) pairs, each code a non-empty path of `t` to the symbol's leaf. -/
def PathsOf (t : HuffTree) (p : List (Nat × Code)) : Prop :=
  ∀ q ∈ p, q.2 ≠ [] ∧ ∃ f, subtree t q.2 = some (.leaf q.1 f)

end Sys2Proof.Machine
end

