-- ==== Sys2Proof/Certificates/Slice0/Obligations.lean ====
section
/-! DEFINITION. The statements for the provers. Each formalises numbered rules of spec/ or is derived from them; a
docstring says which. -/

open Sys2Proof Sys2Proof.Machine

/-! ### Encoding and stepping -/

/-- Every row of spec/opcode_table.json, its word written out, decodes to its command (R141). -/
def Obligations.TableWordsDecode : Prop :=
  decodeTableWord 32 0x00000000 = some .nop ∧ decodeTableWord 32 0x00000001 = some .ftBuild
    ∧ decodeTableWord 32 0x00000002 = some .treeBuild ∧ decodeTableWord 32 0x00000003 = some .cbGen
    ∧ decodeTableWord 32 0x00000004 = some .encode ∧ decodeTableWord 32 0x00000005 = some .pack
    ∧ decodeTableWord 32 0x00000006 = some .serialize ∧ decodeTableWord 32 0x00000007 = some .deserialize
    ∧ decodeTableWord 32 0x00000008 = some .unpack ∧ decodeTableWord 32 0x00000009 = some .decode
    ∧ decodeTableWord 32 0x00000010 = some .compress ∧ decodeTableWord 32 0x00000011 = some .decompress

/-- Decode and encode agree both ways: over all 2^32 words a word decodes to a command exactly when it is that
command's word, and it decodes to some command exactly when it is a legal word. -/
def Obligations.DecodeAgreesWithEncode : Prop :=
  ∀ w : Word, (∀ i, decodeWord w = .ok i ↔ w = encode i) ∧ ((∃ i, decodeWord w = .ok i) ↔ wordWf w = true)

/-- R144 and R201: the completion step of a word with RSV not 0 or a reserved opcode is IllegalCommand: ERRCODE is
(w[7:0] << 8) | 7, STATUS.ERR reads 1, and nothing else but eng and DONE changes. -/
def Obligations.ReservedWordsRunIllegalCommand : Prop :=
  ∀ (s : State) (w : Word),
    (w.toNat / 2 ^ 8 ≠ 0 ∨ (0x0A ≤ w.toNat % 2 ^ 8 ∧ w.toNat % 2 ^ 8 ≤ 0x0F) ∨ 0x12 ≤ w.toNat % 2 ^ 8) →
    ∃ t, completionStep w s = .next t
      ∧ t = { s with errcode := BitVec.ofNat 32 (w.toNat % 2 ^ 8 * 2 ^ 8 + 7), eng := .idle, done := true }
      ∧ t.err = true

/-- What one step is. A host transaction or a pin level at the head of the agenda is that move, on the state with it
taken off. While IDLE the engine's move changes nothing: the block holds its state (R435). With the engine to move, or
the agenda used up, a BUSY block's step is the latched word's completion step; of a word that decodes to `i` that is
exec of `i`. From every state the one withFetchWord makes runs the given word, and while IDLE it does so on what a CMD
write leaves. The schedule and withFetchWord are the model's (logs 4 and 5). -/
def Obligations.StepRunsTheDecodedCommand : Prop :=
  ∀ s : State,
    (∀ x rest, s.agenda = .host x :: rest → step s = .next (hostTransaction x { s with agenda := rest }))
    ∧ (∀ b rest, s.agenda = .rstPin b :: rest → step s = .next (setResetPin b { s with agenda := rest }))
    ∧ (s.eng = .idle →
      (s.agenda = [] → step s = .next s)
      ∧ ∀ rest, s.agenda = .engine :: rest → step s = .next { s with agenda := rest })
    ∧ (∀ w, s.eng = .busy w → s.rstN = true →
      (s.agenda = [] → step s = completionStep w s)
      ∧ ∀ rest, s.agenda = .engine :: rest → step s = completionStep w { s with agenda := rest })
    ∧ (∀ w : Word, step (s.withFetchWord 32 w.toNat)
        = completionStep w { s with rstN := true, eng := .busy w, done := false, errcode := 0 })
    ∧ (∀ w : Word, s.eng = .idle → s.rstN = true →
      step (s.withFetchWord 32 w.toNat) = completionStep w (hostTransaction (.write 0x10 .word w) s))
    ∧ ∀ (w : Word) (i : Instr), decodeWord w = .ok i → completionStep w s = exec i s

/-- R400: no error is fatal. In every state the machine takes a step to a next state, and in every state every
command completes to an IDLE state with DONE set. -/
def Obligations.NothingStopsTheMachine : Prop :=
  (∀ s : State, ∃ t, step s = .next t)
    ∧ ∀ (i : Instr) (s : State), ∃ t, exec i s = .next t ∧ t.eng = .idle ∧ t.done = true

/-- R471, R129 and R126: if no reset is on the agenda, an accepted command's completion step is taken, after at most
as many moves as the agenda lists; the word latched is still the one accepted; and the inputs of the command are then
as at acceptance. The schedule is the model's agenda (log 4). -/
def Obligations.AcceptedCommandCompletes : Prop :=
  ∀ (s : State) (w : Word), s.eng = .busy w → s.rstN = true → (s.agenda.all fun m => !resets m) = true →
    ∃ (k : Nat) (u t : State), k ≤ s.agenda.length ∧ Host.Core.run Sys2Proof.core k s = .next u
      ∧ u.eng = .busy w ∧ step u = .next t ∧ t.eng = .idle ∧ t.done = true
      ∧ u.cfg = s.cfg ∧ u.sinLen = s.sinLen ∧ u.cbufLen = s.cbufLen ∧ u.ft = s.ft ∧ u.tree = s.tree ∧ u.cb = s.cb
      ∧ u.bits = s.bits ∧ u.pk = s.pk ∧ u.sin = s.sin ∧ u.cbuf = s.cbuf ∧ u.epoch = s.epoch

/-! ### NOP and the frequency table -/

/-- R200: NOP completes and updates nothing. -/
def Obligations.NopOnlyCompletes : Prop :=
  ∀ s : State, exec .nop s = .next { s with errcode := 0, eng := .idle, done := true }

/-- R232 and R233: FT_BUILD makes one entry per distinct symbol, in order of first occurrence, with its count, and
ORIG_BYTES the UTF-8 length of the text, which is at most 4 * (2^30 - 1) for every SIN_CAP R6 admits. -/
def Obligations.FtBuildCountsTheText : Prop :=
  ∀ s : State, s.sinLen.toNat ≤ s.cfg.sinCap → Countable s.text →
    exec .ftBuild s = .next { s with
      ft := some (countsOf s.text), tree := none, cb := none
      origBytes := BitVec.ofNat 32 ((s.text.map utf8len).sum), errcode := 0, eng := .idle, done := true }
    ∧ (s.cfg.wf = true → (s.text.map utf8len).sum ≤ 4 * (2 ^ 30 - 1))

/-- R231 and R236: FT_BUILD's errors. A length above SIN_CAP or a word that is no scalar value gives
InputUnavailableError, even when a limit is exceeded too; else more than 65535 distinct symbols give
FormatLimitExceeded. The tables are emptied, ORIG_BYTES is kept (R195). -/
def Obligations.FtBuildErrors : Prop :=
  ∀ s : State,
    ((s.cfg.sinCap < s.sinLen.toNat ∨ ∃ x ∈ s.text, scalar x = false) →
      exec .ftBuild s = .next { s with
        ft := none, tree := none, cb := none, errcode := 0x0105, eng := .idle, done := true })
    ∧ (s.sinLen.toNat ≤ s.cfg.sinCap → s.text.all scalar = true → 65535 < s.text.eraseDups.length →
      exec .ftBuild s = .next { s with
        ft := none, tree := none, cb := none, errcode := 0x0102, eng := .idle, done := true })

/-! ### The tree -/

/-- R257: TREE_BUILD of a non-empty table makes a tree whose real leaves are the FT entries, each once, with sum
frequencies and the root's frequency the sum of all; two entries or more give |FT| - 1 Nodes and no Placeholder, one
entry gives one Node and one Placeholder. -/
def Obligations.TreeBuildShape : Prop :=
  ∀ (s : State) (ft : List Entry), s.ft = some ft → ft ≠ [] →
    ∃ tr, exec .treeBuild s = .next { s with
        tree := some tr, cb := none, errcode := 0, eng := .idle, done := true }
      ∧ (leavesOf tr).Perm ft ∧ sumsHold tr = true ∧ treeFreq tr = totalFreq ft
      ∧ (2 ≤ ft.length → nodeCount tr = ft.length - 1 ∧ placeholderCount tr = 0)
      ∧ (ft.length = 1 → nodeCount tr = 1 ∧ placeholderCount tr = 1)

/-- R253 and R255: one entry gives the degenerate tree, the real leaf left, so its symbol's code is [0]; an empty table
gives EmptyInputError and no tree. -/
def Obligations.TreeBuildSmallTables : Prop :=
  ∀ (s : State) (e : Entry),
    (s.ft = some [e] → exec .treeBuild s = .next { s with
      tree := some (.node (.leaf e.sym e.freq) .placeholder e.freq), cb := none
      errcode := 0, eng := .idle, done := true })
    ∧ codesOf (.node (.leaf e.sym e.freq) .placeholder e.freq) [e] = [[false]]
    ∧ (s.ft = some [] → exec .treeBuild s = .next { s with
      tree := none, cb := none, errcode := 0x0201, eng := .idle, done := true })

/-- R251, R252 and R254: tree(FT) of two entries or more runs |FT| - 1 passes on leaves numbered by their FT index; each pass
takes the least element a, then the least remaining element b, and adds one node with a left, b right, the sum
frequency and the next seq; the keys (freq, seq) are compared lexicographically; of one element left the tree is the
answer. -/
def Obligations.MergePassTakesTheTwoLeast : Prop :=
  (∀ a b : QItem, keyLt a b = true ↔ a.freq < b.freq ∨ (a.freq = b.freq ∧ a.seq < b.seq)) ∧
  (∀ (e e' : Entry) (t : List Entry),
    huffmanTree (e :: e' :: t)
      = some (mergeLoop (t.length + 1) (t.length + 2) ⟨e.freq, 0, .leaf e.sym e.freq⟩ (leafItems 1 (e' :: t))))
  ∧ (∀ (ft : List Entry) (i j : Nat),
    (leafItems i ft)[j]? = ft[j]?.map fun e => ⟨e.freq, i + j, .leaf e.sym e.freq⟩)
  ∧ (∀ (n next : Nat) (x : QItem), mergeLoop n next x [] = x.tree)
  ∧ ∀ (n next : Nat) (x y : QItem) (q : List QItem),
    ∃ a b rest, (a :: b :: rest).Perm (x :: y :: q)
      ∧ (∀ z ∈ b :: rest, keyLt z a = false) ∧ (∀ z ∈ rest, keyLt z b = false)
      ∧ mergeLoop (n + 1) next x (y :: q)
        = mergeLoop n (next + 1) ⟨a.freq + b.freq, next, .node a.tree b.tree (a.freq + b.freq)⟩ rest

/-- R252: the positions of the queue's elements are irrelevant, because extraction is by key: two queues of the same
elements, their seqs distinct and below the next one, merge to the same tree. -/
def Obligations.QueuePositionsIrrelevant : Prop :=
  ∀ (n next : Nat) (x x' : QItem) (q q' : List QItem), q.length ≤ n → (x :: q).Perm (x' :: q') →
    ((x :: q).map QItem.seq).Nodup → (∀ z ∈ x :: q, z.seq < next) →
    mergeLoop n next x q = mergeLoop n next x' q'

/-! ### Codes -/

/-- R281 and R283 in every state the invariant allows: CB_GEN gives every FT entry one code, the path from the root to
its leaf, of length 1 to max(1, |FT| - 1) (R65). -/
def Obligations.CbGenGivesRootPaths : Prop :=
  ∀ (s : State) (tr : HuffTree), s.Inv → s.tree = some tr →
    ∃ cs, exec .cbGen s = .next { s with cb := some cs, errcode := 0, eng := .idle, done := true }
      ∧ cs.length = s.ftEntries.length
      ∧ ∀ (j : Nat) (e : Entry), s.ftEntries[j]? = some e →
        ∃ c, cs[j]? = some c ∧ subtree tr c = some (.leaf e.sym e.freq)
          ∧ 1 ≤ c.length ∧ c.length ≤ max 1 (s.ftEntries.length - 1)

/-- R284: in every state the invariant allows, the codes in a valid CB are prefix-free. -/
def Obligations.CodebookIsPrefixFree : Prop :=
  ∀ (s : State) (cs : List Code), s.Inv → s.cb = some cs → PrefixFree cs

/-- R290: ENCODE concatenates the codes of the text's symbols, in text order. -/
def Obligations.EncodeConcatenatesCodes : Prop :=
  ∀ (s : State) (cs : List Code), s.cb = some cs → s.sinLen.toNat ≤ s.cfg.sinCap →
    (∀ x ∈ s.text, ∃ e ∈ s.ftEntries, e.sym = x) →
    (codeBits s.ftEntries cs s.text).length ≤ 8 * s.cfg.cbufCap →
    exec .encode s = .next { s with
      bits := some (codeBits s.ftEntries cs s.text), errcode := 0, eng := .idle, done := true }

/-- ENCODE's errors in pseudocode order (R290 to R292): SIN_LEN above SIN_CAP, then a symbol with no FT entry, then a
stream longer than 8 * CBUF_CAP bits. BITS is emptied. -/
def Obligations.EncodeErrors : Prop :=
  ∀ (s : State) (cs : List Code), s.cb = some cs →
    (s.cfg.sinCap < s.sinLen.toNat →
      exec .encode s = .next { s with bits := none, errcode := 0x0405, eng := .idle, done := true })
    ∧ (s.sinLen.toNat ≤ s.cfg.sinCap → (∃ x ∈ s.text, ∀ e ∈ s.ftEntries, e.sym ≠ x) →
      exec .encode s = .next { s with bits := none, errcode := 0x0409, eng := .idle, done := true })
    ∧ (s.sinLen.toNat ≤ s.cfg.sinCap → (∀ x ∈ s.text, ∃ e ∈ s.ftEntries, e.sym = x) →
      8 * s.cfg.cbufCap < (codeBits s.ftEntries cs s.text).length →
      exec .encode s = .next { s with bits := none, errcode := 0x0406, eng := .idle, done := true })

/-- R293: when FT was built from the same SIN, no symbol is unknown and |BITS| is the sum of FT[j].freq * |CB[j]|. -/
def Obligations.EncodedLengthIsWeightedSum : Prop :=
  ∀ (s t : State) (cs : List Code), s.cb = some cs → s.ft = some (countsOf s.text) →
    cs.length = s.ftEntries.length → s.sinLen.toNat ≤ s.cfg.sinCap → exec .encode s = .next t →
    t.errcode ≠ 0x0409
      ∧ (t.errcode = 0 →
        t.bitStream.length = (List.zipWith (fun e c => e.freq * c.length) s.ftEntries cs).sum)

/-! ### Packing and decoding -/

/-- R311, R312, R313 and R168: PACK writes 1 + ceil(n/8) bytes: the padding count (8 - n mod 8) mod 8, then the bits, bit
k of the stream at bit 7 - k mod 8 of PK[1 + k div 8], then padding bits that are 0, so that (|PK| - 1) * 8 - PK[0] = n;
a section longer than CBUF_CAP bytes gives OutputWriteError and no PK. -/
def Obligations.PackLaysOutTheBits : Prop :=
  ∀ (s : State) (b : List Bool), s.bits = some b →
    (1 + (b.length + 7) / 8 ≤ s.cfg.cbufCap →
      ∃ (x : Byte) (bs : List Byte),
        exec .pack s = .next { s with pk := some (x :: bs), errcode := 0, eng := .idle, done := true }
        ∧ bs.length = (b.length + 7) / 8 ∧ x.toNat = (8 - b.length % 8) % 8 ∧ x.toNat ≤ 7
        ∧ bs.length * 8 = b.length + x.toNat
        ∧ (∀ k, k < b.length → bs[k / 8]?.map (fun y => y.getLsbD (7 - k % 8)) = b[k]?)
        ∧ ∀ k, b.length ≤ k → k < 8 * bs.length →
          bs[k / 8]?.map (fun y => y.getLsbD (7 - k % 8)) = some false)
    ∧ (s.cfg.cbufCap < 1 + (b.length + 7) / 8 →
      exec .pack s = .next { s with pk := none, errcode := 0x0506, eng := .idle, done := true })

/-- R320 to R323: UNPACK expands each byte after PK[0] most significant bit first and drops the last
min(PK[0], length) bits, whatever they are; an empty PK or PK[0] > 7 gives MalformedBufferError and no BITS. -/
def Obligations.UnpackExpandsBytes : Prop :=
  ∀ s : State,
    (∀ p bs, s.pk = some (p :: bs) → p.toNat ≤ 7 →
      ∃ b, exec .unpack s = .next { s with bits := some b, errcode := 0, eng := .idle, done := true }
        ∧ b.length = 8 * bs.length - p.toNat
        ∧ ∀ k, k < b.length → b[k]? = bs[k / 8]?.map fun x => x.getLsbD (7 - k % 8))
    ∧ ((s.pk = some [] ∨ ∃ p bs, s.pk = some (p :: bs) ∧ 7 < p.toNat) →
      exec .unpack s = .next { s with bits := none, errcode := 0x0803, eng := .idle, done := true })

/-- R324: UNPACK inverts PACK: of packed(b) it gives BITS = b, for every bit list b; and a PACK that succeeds, then
UNPACK, gives back the bitstream. -/
def Obligations.UnpackInvertsPack : Prop :=
  (∀ (s : State) (b : List Bool), s.pk = some (packed b) →
    exec .unpack s = .next { s with bits := some b, errcode := 0, eng := .idle, done := true })
  ∧ ∀ (s t : State) (b : List Bool), s.bits = some b → exec .pack s = .next t → t.errcode = 0 →
    exec .unpack t = .next { t with bits := some b }

/-- R331 and R334: a stream that is the concatenation of paths to real leaves, as many as W, decodes to those leaves'
symbols. -/
def Obligations.DecodeEmitsLeafSymbols : Prop :=
  ∀ (s : State) (tr : HuffTree) (p : List (Nat × Code)), s.tree = some tr → PathsOf tr p →
    s.bits = some (p.map Prod.snd).flatten → p.length = totalFreq s.ftEntries → p.length ≤ s.cfg.soutCap →
    exec .decode s = .next { s with sout := p.map Prod.fst, errcode := 0, eng := .idle, done := true }

/-- DECODE's errors (R332 to R335). After whole codes: a path to the placeholder, whatever follows, or an end at a
Node below the root, gives CorruptStreamError; so does a number of symbols other than W; a count that agrees but
exceeds SOUT_CAP gives OutputWriteError. SOUT is emptied. -/
def Obligations.DecodeErrors : Prop :=
  ∀ (s : State) (tr : HuffTree) (p : List (Nat × Code)), s.tree = some tr → PathsOf tr p →
    (∀ c rest, subtree tr c = some .placeholder → c ≠ [] → s.bits = some ((p.map Prod.snd).flatten ++ c ++ rest) →
      exec .decode s = .next { s with sout := [], errcode := 0x0904, eng := .idle, done := true })
    ∧ (∀ c l r f, subtree tr c = some (.node l r f) → c ≠ [] → s.bits = some ((p.map Prod.snd).flatten ++ c) →
      exec .decode s = .next { s with sout := [], errcode := 0x0904, eng := .idle, done := true })
    ∧ (s.bits = some (p.map Prod.snd).flatten → p.length ≠ totalFreq s.ftEntries →
      exec .decode s = .next { s with sout := [], errcode := 0x0904, eng := .idle, done := true })
    ∧ (s.bits = some (p.map Prod.snd).flatten → p.length = totalFreq s.ftEntries → s.cfg.soutCap < p.length →
      exec .decode s = .next { s with sout := [], errcode := 0x0906, eng := .idle, done := true })

/-- R336: with FT, TREE and CB built from the text in SIN and BITS by ENCODE, the walk emits exactly the text, with no
bits left mid-code and no placeholder reached (decodeWalk answers it), W is its length, and DECODE gives it when it
fits SOUT_CAP. -/
def Obligations.DecodeInvertsEncode : Prop :=
  ∀ (s t : State) (tr : HuffTree), s.Inv → s.ft = some (countsOf s.text) → s.tree = some tr → s.cbValid = true →
    exec .encode s = .next t → t.errcode = 0 →
    decodeWalk tr [] t.bitStream = some s.text ∧ totalFreq t.ftEntries = s.text.length
      ∧ (s.text.length ≤ s.cfg.soutCap → exec .decode t = .next { t with sout := s.text })

/-! ### The container -/

/-- R172: unutf8 finds exactly the scalar value whose UTF-8 encoding the bytes are, and that value is unique.
The bytes themselves are those of R170's table, by range, which the spec takes from general knowledge (log 13). -/
def Obligations.SymbolBytesHaveOneScalar : Prop :=
  (∀ (u : List Byte) (x : Nat), unutf8 u = some x ↔ scalar x = true ∧ utf8 x = u)
    ∧ (∀ x y : Nat, scalar x = true → scalar y = true → utf8 x = utf8 y → x = y)
    ∧ ∀ x : Nat, scalar x = true →
      (x ≤ 0x7F → (utf8 x).map BitVec.toNat = [x])
      ∧ (0x80 ≤ x → x ≤ 0x7FF → (utf8 x).map BitVec.toNat = [0xC0 + x / 2 ^ 6, 0x80 + x % 2 ^ 6])
      ∧ (0x800 ≤ x → x ≤ 0xFFFF →
        (utf8 x).map BitVec.toNat = [0xE0 + x / 2 ^ 12, 0x80 + x / 2 ^ 6 % 2 ^ 6, 0x80 + x % 2 ^ 6])
      ∧ (0x10000 ≤ x → x ≤ 0x10FFFF →
        (utf8 x).map BitVec.toNat
          = [0xF0 + x / 2 ^ 18, 0x80 + x / 2 ^ 12 % 2 ^ 6, 0x80 + x / 2 ^ 6 % 2 ^ 6, 0x80 + x % 2 ^ 6])

/-- R350, R161, R162 and R105: SERIALIZE writes the container, 2 + the sum over entries of (5 + |utf8(s)|) + |P| = T bytes, at
CBUF[0 .. T), keeps the bytes from T on, and sets CBUF_LEN and COMP_BYTES to T. Byte by byte the container is the entry count, high
byte first; per entry the length of its UTF-8 bytes, those bytes and the frequency, highest byte first; then P. -/
def Obligations.SerializeWritesTheContainer : Prop :=
  ∀ (s : State) (ft : List Entry) (p : List Byte), s.cfg.wf = true → s.ft = some ft → s.pk = some p →
    ft ≠ [] → ft.length ≤ 65535 → (container ft p).length ≤ s.cfg.cbufCap →
    ∃ t m, exec .serialize s = .next t
      ∧ t = { s with
          cbuf := m, cbufLen := BitVec.ofNat 32 (container ft p).length
          compBytes := BitVec.ofNat 32 (container ft p).length, errcode := 0, eng := .idle, done := true }
      ∧ t.cbufLen.toNat = 2 + (ft.map fun e => 5 + (utf8 e.sym).length).sum + p.length
      ∧ t.cbufRead 0 t.cbufLen.toNat = container ft p
      ∧ (∀ a, (container ft p).length ≤ a → t.cbufAt a = s.cbufAt a)
      ∧ ((∀ e ∈ ft, e.freq ≤ 2 ^ 32 - 1) →
        (t.cbufRead 0 t.cbufLen.toNat).map BitVec.toNat
          = [ft.length / 2 ^ 8, ft.length % 2 ^ 8]
            ++ (ft.flatMap fun e => (utf8 e.sym).length :: (utf8 e.sym).map BitVec.toNat
                ++ [e.freq / 2 ^ 24, e.freq / 2 ^ 16 % 2 ^ 8, e.freq / 2 ^ 8 % 2 ^ 8, e.freq % 2 ^ 8])
            ++ p.map BitVec.toNat)

/-- R352 and R353: an empty table gives EmptyInputError, a container longer than CBUF_CAP OutputWriteError; no SERIALIZE
that fails, for these reasons or any other, writes CBUF, CBUF_LEN or COMP_BYTES, or anything but ERRCODE, eng and
DONE. -/
def Obligations.SerializeErrorsWriteNothing : Prop :=
  (∀ (s : State) (ft : List Entry) (p : List Byte), s.ft = some ft → s.pk = some p →
    (ft = [] → exec .serialize s = .next { s with errcode := 0x0601, eng := .idle, done := true })
    ∧ (ft ≠ [] → ft.length ≤ 65535 → s.cfg.cbufCap < (container ft p).length →
      exec .serialize s = .next { s with errcode := 0x0606, eng := .idle, done := true }))
  ∧ ∀ s t : State, exec .serialize s = .next t → t.errcode ≠ 0 →
    t = { s with errcode := t.errcode, eng := .idle, done := true }

/-- R359: DESERIALIZE inverts SERIALIZE: of the container of a table that meets R61 and any byte list it gives back
both. -/
def Obligations.DeserializeInvertsSerialize : Prop :=
  ∀ (s : State) (ft : List Entry) (p : List Byte), TableOk ft → s.cbufLen.toNat ≤ s.cfg.cbufCap →
    s.cbufRead 0 s.cbufLen.toNat = container ft p →
    exec .deserialize s = .next { s with
      ft := some ft, pk := some p, tree := none, cb := none, errcode := 0, eng := .idle, done := true }

/-- From R355 to R358: a length above CBUF_CAP gives InputUnavailableError; within it, DESERIALIZE succeeds on the
container of a table that meets R61, giving back the table and the packed section, and gives CorruptStreamError on every
byte string that is no such container (derived from R356 to R358 and R161). On failure FT, PK, TREE and CB are
emptied. -/
def Obligations.DeserializeAcceptsExactlyContainers : Prop :=
  ∀ s : State,
    (s.cfg.cbufCap < s.cbufLen.toNat →
      exec .deserialize s = .next { s with
        ft := none, pk := none, tree := none, cb := none, errcode := 0x0705, eng := .idle, done := true })
    ∧ (s.cbufLen.toNat ≤ s.cfg.cbufCap →
      (∀ ft p, TableOk ft → s.cbufRead 0 s.cbufLen.toNat = container ft p →
        exec .deserialize s = .next { s with
          ft := some ft, pk := some p, tree := none, cb := none, errcode := 0, eng := .idle, done := true })
      ∧ ((¬ ∃ ft p, TableOk ft ∧ s.cbufRead 0 s.cbufLen.toNat = container ft p) →
        exec .deserialize s = .next { s with
          ft := none, pk := none, tree := none, cb := none, errcode := 0x0704, eng := .idle, done := true }))

/-! ### The composites -/

/-- R360 and the condition of R364: COMPRESS of a non-empty text succeeds exactly when its container fits CBUF_CAP;
the container is then in CBUF. -/
def Obligations.CompressSucceedsWhenContainerFits : Prop :=
  ∀ (s : State) (c : List Byte), s.cfg.wf = true → s.sinLen.toNat ≤ s.cfg.sinCap → Countable s.text →
    containerOfText s.text = some c →
    ∃ t, exec .compress s = .next t ∧ t.eng = .idle ∧ t.done = true
      ∧ (t.errcode = 0 ↔ c.length ≤ s.cfg.cbufCap)
      ∧ (t.errcode = 0 →
        t.cbufRead 0 t.cbufLen.toNat = c ∧ t.cbufLen.toNat = c.length ∧ t.compBytes = t.cbufLen
          ∧ t.ft = some (countsOf s.text) ∧ (∀ a, c.length ≤ a → t.cbufAt a = s.cbufAt a))

/-- R360's corner case: COMPRESS of the empty text fails with EmptyInputError at TREE_BUILD; FT is then valid and
empty, and CBUF is untouched. -/
def Obligations.CompressOfEmptyText : Prop :=
  ∀ s : State, s.sinLen = 0 →
    exec .compress s = .next { s with
      ft := some [], tree := none, cb := none, origBytes := 0, errcode := 0x0201, eng := .idle, done := true }

/-- R361: a composite is its step commands in order, each on the state its predecessor left, to the first that fails,
whose ERRCODE it keeps. -/
def Obligations.CompositesRunTheirSteps : Prop :=
  ∀ s : State,
    exec .compress s = runUntilError [.ftBuild, .treeBuild, .cbGen, .encode, .pack, .serialize] s
    ∧ exec .decompress s = runUntilError [.deserialize, .treeBuild, .unpack, .decode] s

/-- The success of DECOMPRESS (R362) on the container of a table that meets R61, with a packed section that unpacks to
a stream of W codes. -/
def Obligations.DecompressSucceeds : Prop :=
  ∀ (s : State) (ft : List Entry) (pk : List Byte) (tr : HuffTree) (p : List (Nat × Code)),
    s.cbufLen.toNat ≤ s.cfg.cbufCap → TableOk ft → s.cbufRead 0 s.cbufLen.toNat = container ft pk →
    huffmanTree ft = some tr → PathsOf tr p → unpackBits pk = some (p.map Prod.snd).flatten →
    p.length = totalFreq ft → p.length ≤ s.cfg.soutCap →
    exec .decompress s = .next { s with
      ft := some ft, tree := some tr, cb := none, pk := some pk, bits := some (p.map Prod.snd).flatten
      sout := p.map Prod.fst, errcode := 0, eng := .idle, done := true }

/-- R364: the round trip. If COMPRESS on a text succeeds and SOUT can hold it, DECOMPRESS on the CBUF and CBUF_LEN it
left succeeds with SOUT the text. -/
def Obligations.DecompressInvertsCompress : Prop :=
  ∀ s t : State, s.cfg.wf = true → exec .compress s = .next t → t.errcode = 0 → s.text.length ≤ s.cfg.soutCap →
    ∃ u, exec .decompress t = .next u ∧ u.errcode = 0 ∧ u.sout = s.text

/-- R368: truncation is detected. DECOMPRESS of a container COMPRESS wrote, with CBUF_LEN one less, fails with
CorruptStreamError at STEP 0x09. -/
def Obligations.TruncationIsDetected : Prop :=
  ∀ s t : State, s.cfg.wf = true → exec .compress s = .next t → t.errcode = 0 →
    ∃ u, exec .decompress { t with cbufLen := t.cbufLen - 1 } = .next u ∧ u.errcode = 0x0904 ∧ u.sout = []

/-- R365: two COMPRESS commands on the same SIN contents and SIN_LEN, on blocks with the same parameters and whatever
else they hold, end with the same ERRCODE and, on success, write identical containers. -/
def Obligations.CompressIsDeterministic : Prop :=
  ∀ s₁ s₂ t₁ t₂ : State, s₁.cfg = s₂.cfg → s₁.sinLen = s₂.sinLen → s₁.text = s₂.text → s₁.cfg.wf = true →
    exec .compress s₁ = .next t₁ → exec .compress s₂ = .next t₂ →
    t₁.errcode = t₂.errcode
      ∧ (t₁.errcode = 0 → t₁.cbufRead 0 t₁.cbufLen.toNat = t₂.cbufRead 0 t₂.cbufLen.toNat)

/-- R367: after a successful COMPRESS, ORIG_BYTES >= 1 and COMP_BYTES >= 10, so neither quotient divides by 0. -/
def Obligations.SizesAfterCompress : Prop :=
  ∀ s t : State, s.cfg.wf = true → exec .compress s = .next t → t.errcode = 0 →
    1 ≤ t.origBytes.toNat ∧ 10 ≤ t.compBytes.toNat

/-! ### Errors and frames -/

/-- R193: a step command whose prerequisite flag is 0 raises SequenceError, and no store, flag or length changes. -/
def Obligations.MissingPrerequisite : Prop :=
  ∀ s : State,
    (s.ftValid = false → exec .treeBuild s = .next { s with errcode := 0x0208, eng := .idle, done := true })
    ∧ (s.treeValid = false → exec .cbGen s = .next { s with errcode := 0x0308, eng := .idle, done := true })
    ∧ (s.cbValid = false → exec .encode s = .next { s with errcode := 0x0408, eng := .idle, done := true })
    ∧ (s.bitsValid = false → exec .pack s = .next { s with errcode := 0x0508, eng := .idle, done := true })
    ∧ ((s.ftValid = false ∨ s.pkValid = false) →
      exec .serialize s = .next { s with errcode := 0x0608, eng := .idle, done := true })
    ∧ (s.pkValid = false → exec .unpack s = .next { s with errcode := 0x0808, eng := .idle, done := true })
    ∧ ((s.treeValid = false ∨ s.bitsValid = false) →
      exec .decode s = .next { s with errcode := 0x0908, eng := .idle, done := true })

/-- R403 with the STEPs of R360 and R362: which ERRCODE each command can leave, in every state the invariant allows. -/
def Obligations.ErrorsOfEachCommand : Prop :=
  ∀ (i : Instr) (s t : State), s.Inv → exec i s = .next t →
    t.errcode ∈ (match i with
      | .nop => [0]
      | .ftBuild => [0, 0x0102, 0x0105]
      | .treeBuild => [0, 0x0201, 0x0208]
      | .cbGen => [0, 0x0308]
      | .encode => [0, 0x0405, 0x0406, 0x0408, 0x0409]
      | .pack => [0, 0x0506, 0x0508]
      | .serialize => [0, 0x0601, 0x0606, 0x0608]
      | .deserialize => [0, 0x0704, 0x0705]
      | .unpack => [0, 0x0803, 0x0808]
      | .decode => [0, 0x0904, 0x0906, 0x0908]
      | .compress => [0, 0x0102, 0x0105, 0x0201, 0x0406, 0x0506, 0x0606]
      | .decompress => [0, 0x0201, 0x0704, 0x0705, 0x0803, 0x0904, 0x0906] : List Word)

/-- R194: a command writes only the registers, stores and buffers of its row of R143, beside ERRCODE, eng and DONE: the
frame of all twelve commands. -/
def Obligations.CommandsWriteOnlyTheirRow : Prop :=
  ∀ (i : Instr) (s t : State), exec i s = .next t →
    (t.cfg = s.cfg ∧ t.rstN = s.rstN ∧ t.irqEn = s.irqEn ∧ t.cmdDropped = s.cmdDropped
      ∧ t.wrDropped = s.wrDropped ∧ t.sinLen = s.sinLen ∧ t.sinIdx = s.sinIdx ∧ t.cbufIdx = s.cbufIdx
      ∧ t.soutIdx = s.soutIdx ∧ t.ftIdx = s.ftIdx ∧ t.cbBitpos = s.cbBitpos ∧ t.bitsIdx = s.bitsIdx
      ∧ t.pkIdx = s.pkIdx ∧ t.readData = s.readData ∧ t.agenda = s.agenda ∧ t.epoch = s.epoch
      ∧ t.draws = s.draws ∧ t.sin = s.sin)
    ∧ (i ∉ [.ftBuild, .deserialize, .compress, .decompress] → t.ft = s.ft)
    ∧ (i ∉ [.ftBuild, .treeBuild, .deserialize, .compress, .decompress] → t.tree = s.tree)
    ∧ (i ∉ [.ftBuild, .treeBuild, .cbGen, .deserialize, .compress, .decompress] → t.cb = s.cb)
    ∧ (i ∉ [.encode, .unpack, .compress, .decompress] → t.bits = s.bits)
    ∧ (i ∉ [.pack, .deserialize, .compress, .decompress] → t.pk = s.pk)
    ∧ (i ∉ [.decode, .decompress] → t.sout = s.sout)
    ∧ (i ∉ [.serialize, .compress] → t.cbufLen = s.cbufLen ∧ t.compBytes = s.compBytes ∧ t.cbuf = s.cbuf)
    ∧ (i ∉ [.ftBuild, .compress] → t.origBytes = s.origBytes)

/-- R194 and R352 for the buffers: no command writes SIN; only SERIALIZE and COMPRESS write CBUF, only on success, and
only the bytes of the container, computed as SERIALIZE computes it. -/
def Obligations.BuffersOutsideTheContainerKept : Prop :=
  ∀ (i : Instr) (s t : State), exec i s = .next t →
    (∀ a, t.sinAt a = s.sinAt a)
    ∧ (i ∉ [.serialize, .compress] → ∀ a, t.cbufAt a = s.cbufAt a)
    ∧ (t.errcode ≠ 0 → ∀ a, t.cbufAt a = s.cbufAt a)
    ∧ (i = .serialize → ∀ a, (container s.ftEntries s.pkBytes).length ≤ a → t.cbufAt a = s.cbufAt a)
    ∧ (i = .compress → ∀ a, (container t.ftEntries t.pkBytes).length ≤ a → t.cbufAt a = s.cbufAt a)

/-- R191: a command's result depends on no host-side value: with other index registers, CTRL, drop flags, DONE,
ERRCODE, latched word, moves to come and host-side records, the command gives the same result and keeps those. -/
def Obligations.ResultsIgnoreTheHostSide : Prop :=
  ∀ (i : Instr) (s t h : State), exec i s = .next t →
    exec i { s with
        eng := h.eng, irqEn := h.irqEn, done := h.done, cmdDropped := h.cmdDropped, wrDropped := h.wrDropped
        errcode := h.errcode, sinIdx := h.sinIdx, cbufIdx := h.cbufIdx, soutIdx := h.soutIdx, ftIdx := h.ftIdx
        cbBitpos := h.cbBitpos, bitsIdx := h.bitsIdx, pkIdx := h.pkIdx, readData := h.readData
        agenda := h.agenda, draws := h.draws }
      = .next { t with
        irqEn := h.irqEn, cmdDropped := h.cmdDropped, wrDropped := h.wrDropped
        sinIdx := h.sinIdx, cbufIdx := h.cbufIdx, soutIdx := h.soutIdx, ftIdx := h.ftIdx
        cbBitpos := h.cbBitpos, bitsIdx := h.bitsIdx, pkIdx := h.pkIdx, readData := h.readData
        agenda := h.agenda, draws := h.draws }

/-! ### Registers and the host's transactions -/

/-- R111 and R40: a transaction reaches a register exactly when size = 4, off mod 4 = 0 and off <= 0x74; any other
Write has no effect, and any other Read returns 0 and has no effect. -/
def Obligations.OtherAccessesHaveNoEffect : Prop :=
  ∀ (off : BitVec 8) (size : AccessSize),
    ((regAt off size).isSome = true ↔ size = .word ∧ off.toNat % 4 = 0 ∧ off.toNat ≤ 0x74)
    ∧ (∀ r, regAt off size = some r → regOffset r = off)
    ∧ ∀ s : State, ¬ (size = .word ∧ off.toNat % 4 = 0 ∧ off.toNat ≤ 0x74) →
      (∀ v, hostTransaction (.write off size v) s = s)
      ∧ hostTransaction (.read off size) s = { s with readData := some 0 }

/-- R42: ID reads 0x48554646 and VERSION 7, IDLE or BUSY, and both ignore writes. -/
def Obligations.IdAndVersionAreConstant : Prop :=
  ∀ (s : State) (v : Word), s.rstN = true →
    (hostTransaction (.read 0x00 .word) s).readData = some 0x48554646
    ∧ (hostTransaction (.read 0x04 .word) s).readData = some 0x00000007
    ∧ hostTransaction (.write 0x00 .word v) s = s ∧ hostTransaction (.write 0x04 .word v) s = s

/-- R44: STATUS while IDLE, bit by bit; ERR is a function of ERRCODE, the reserved bits read 0. -/
def Obligations.StatusReadsItsFlags : Prop :=
  ∀ s : State, s.rstN = true → s.eng = .idle →
    ∃ v : Word, ReadsAs s 0x0C v
      ∧ v.getLsbD 0 = false ∧ v.getLsbD 1 = s.done ∧ (v.getLsbD 2 = true ↔ s.errcode.toNat % 2 ^ 8 ≠ 0)
      ∧ v.getLsbD 3 = s.cmdDropped ∧ v.getLsbD 4 = s.wrDropped
      ∧ v.getLsbD 8 = s.ft.isSome ∧ v.getLsbD 9 = s.tree.isSome ∧ v.getLsbD 10 = s.cb.isSome
      ∧ v.getLsbD 11 = s.bits.isSome ∧ v.getLsbD 12 = s.pk.isSome
      ∧ ∀ k, (5 ≤ k ∧ k ≤ 7) ∨ 13 ≤ k → v.getLsbD k = false

/-- R44 and R43: a STATUS write clears each of bits 1, 3 and 4 that the value has set, and a CTRL write with bit 1 = 0
sets IRQ_EN to bit 0, BUSY or not; neither has another effect. -/
def Obligations.StatusAndCtrlWrites : Prop :=
  ∀ (s : State) (v : Word), s.rstN = true →
    hostTransaction (.write 0x0C .word v) s = { s with
      done := s.done && !v.getLsbD 1, cmdDropped := s.cmdDropped && !v.getLsbD 3
      wrDropped := s.wrDropped && !v.getLsbD 4 }
    ∧ (v.getLsbD 1 = false →
      hostTransaction (.write 0x08 .word v) s = { s with irqEn := v.getLsbD 0 })

/-- R460, and R45 while IDLE: CMD then reads 0; a CMD write while IDLE latches the word, clears DONE and ERRCODE and changes nothing else;
while BUSY it is dropped and sets CMD_DROPPED, and the running command's word stays. -/
def Obligations.CmdWriteIsAcceptedOrDropped : Prop :=
  ∀ (s : State) (v : Word), s.rstN = true →
    (s.eng = .idle → ReadsAs s 0x10 0 ∧
      hostTransaction (.write 0x10 .word v) s = { s with eng := .busy v, done := false, errcode := 0 })
    ∧ (∀ w, s.eng = .busy w → hostTransaction (.write 0x10 .word v) s = { s with cmdDropped := true })

/-- R461: while BUSY a write to a RW register other than CTRL is dropped and sets WR_DROPPED, and CTRL and STATUS writes
take effect; a write to a RO register or a reserved offset has no effect, BUSY or not, and sets no flag. -/
def Obligations.WritesWhileBusyAreDropped : Prop :=
  ∀ (s : State) (v : Word), s.rstN = true →
    (∀ w, s.eng = .busy w →
      ∀ off ∈ ([0x18, 0x1C, 0x20, 0x24, 0x28, 0x2C, 0x34, 0x40, 0x50, 0x5C, 0x68] : List (BitVec 8)),
        hostTransaction (.write off .word v) s = { s with wrDropped := true })
    ∧ (∀ w, s.eng = .busy w →
      hostTransaction (.write 0x08 .word v) s = writeCtrl v s
      ∧ hostTransaction (.write 0x0C .word v) s = writeStatus v s)
    ∧ (∀ off ∈ ([0x00, 0x04, 0x14, 0x30, 0x38, 0x3C, 0x44, 0x48, 0x4C, 0x54, 0x58, 0x60, 0x64, 0x6C, 0x70, 0x74]
          : List (BitVec 8)), hostTransaction (.write off .word v) s = s)
    ∧ ∀ off : BitVec 8, 0x78 ≤ off.toNat → hostTransaction (.write off .word v) s = s

/-- R462's reads: while BUSY, in the states the invariant allows, ID, VERSION and CTRL read as ever, STATUS[4:0] read
BUSY = 1, DONE = 0, ERR = 0 and the two drop flags, and ERRCODE reads 0. That STATUS[12:8] and every other register,
CMD too, read the free value of this read, and that each read of a register uses up one free value, so that no two reads
share one, is the model's form of R462 (logs 3 and 9). -/
def Obligations.ReadsWhileBusy : Prop :=
  ∀ (s : State) (w : Word), s.Inv → s.rstN = true → s.eng = .busy w →
    (hostTransaction (.read 0x00 .word) s).readData = some 0x48554646
    ∧ (hostTransaction (.read 0x04 .word) s).readData = some 7
    ∧ (hostTransaction (.read 0x08 .word) s).readData = some (if s.irqEn then 1 else 0)
    ∧ (hostTransaction (.read 0x14 .word) s).readData = some 0
    ∧ (∃ v, (hostTransaction (.read 0x0C .word) s).readData = some v
      ∧ v.getLsbD 0 = true ∧ v.getLsbD 1 = false ∧ v.getLsbD 2 = false ∧ v.getLsbD 3 = s.cmdDropped
      ∧ v.getLsbD 4 = s.wrDropped ∧ ∀ k, 8 ≤ k → k ≤ 12 → v.getLsbD k = (Config.busyRead s.draws).getLsbD k)
    ∧ ∀ off : BitVec 8, off.toNat % 4 = 0 → off.toNat ≤ 0x74 →
      (hostTransaction (.read off .word) s).draws = s.draws + 1
      ∧ (off ∉ ([0x00, 0x04, 0x08, 0x0C, 0x14] : List (BitVec 8)) →
        (hostTransaction (.read off .word) s).readData = some (Config.busyRead s.draws))

/-- R116: no read has a side effect: a Read changes no register, store, buffer, flag or engine state, only the model's
records (logs 3 and 7); while IDLE a second Read of the same offset returns the same value. -/
def Obligations.ReadsHaveNoSideEffect : Prop :=
  ∀ (s : State) (off : BitVec 8) (size : AccessSize),
    hostTransaction (.read off size) s = { s with
      readData := (hostTransaction (.read off size) s).readData
      draws := (hostTransaction (.read off size) s).draws }
    ∧ (s.eng = .idle → (hostTransaction (.read off size) s).draws = s.draws
      ∧ (hostTransaction (.read off size) (hostTransaction (.read off size) s)).readData
        = (hostTransaction (.read off size) s).readData)

/-- R48 and R50: the SIN and CBUF data ports. In range a write sets the indexed element alone, all 32 bits or the low 8,
and a read gives it; at or beyond the capacity a write is ignored and a read gives 0. -/
def Obligations.BufferPorts : Prop :=
  ∀ (s : State) (v : Word), s.rstN = true → s.eng = .idle →
    (s.sinIdx.toNat < s.cfg.sinCap →
      ReadsAs s 0x20 (s.sinAt s.sinIdx.toNat)
      ∧ ∃ m, hostTransaction (.write 0x20 .word v) s = { s with sin := m }
        ∧ ∀ a, State.sinAt { s with sin := m } a = if a = s.sinIdx.toNat then v else s.sinAt a)
    ∧ (s.cfg.sinCap ≤ s.sinIdx.toNat → ReadsAs s 0x20 0 ∧ hostTransaction (.write 0x20 .word v) s = s)
    ∧ (s.cbufIdx.toNat < s.cfg.cbufCap →
      ReadsAs s 0x2C ((s.cbufAt s.cbufIdx.toNat).setWidth 32)
      ∧ ∃ m, hostTransaction (.write 0x2C .word v) s = { s with cbuf := m }
        ∧ ∀ a, State.cbufAt { s with cbuf := m } a = if a = s.cbufIdx.toNat then v.setWidth 8 else s.cbufAt a)
    ∧ (s.cfg.cbufCap ≤ s.cbufIdx.toNat → ReadsAs s 0x2C 0 ∧ hostTransaction (.write 0x2C .word v) s = s)

/-- R47, R49 and the index registers' rules: while IDLE a length or index register takes any 32-bit value and reads it
back, and the write changes nothing else. -/
def Obligations.LengthAndIndexRegisters : Prop :=
  ∀ (s : State) (v : Word), s.rstN = true → s.eng = .idle →
    hostTransaction (.write 0x18 .word v) s = { s with sinLen := v } ∧ ReadsAs s 0x18 s.sinLen
    ∧ hostTransaction (.write 0x1C .word v) s = { s with sinIdx := v } ∧ ReadsAs s 0x1C s.sinIdx
    ∧ hostTransaction (.write 0x24 .word v) s = { s with cbufLen := v } ∧ ReadsAs s 0x24 s.cbufLen
    ∧ hostTransaction (.write 0x28 .word v) s = { s with cbufIdx := v } ∧ ReadsAs s 0x28 s.cbufIdx
    ∧ hostTransaction (.write 0x34 .word v) s = { s with soutIdx := v } ∧ ReadsAs s 0x34 s.soutIdx
    ∧ hostTransaction (.write 0x40 .word v) s = { s with ftIdx := v } ∧ ReadsAs s 0x40 s.ftIdx
    ∧ hostTransaction (.write 0x50 .word v) s = { s with cbBitpos := v } ∧ ReadsAs s 0x50 s.cbBitpos
    ∧ hostTransaction (.write 0x5C .word v) s = { s with bitsIdx := v } ∧ ReadsAs s 0x5C s.bitsIdx
    ∧ hostTransaction (.write 0x68 .word v) s = { s with pkIdx := v } ∧ ReadsAs s 0x68 s.pkIdx

/-- R43, R46, R51 to R59: the readback registers while IDLE: CTRL as IRQ_EN in bit 0, ERRCODE, ORIG_BYTES and COMP_BYTES
as they stand, the lengths, and the element the index registers select, of a valid
store; 0 for an invalid store and for an index at or beyond the length. -/
def Obligations.ReadbackRegisters : Prop :=
  ∀ s : State, s.rstN = true → s.eng = .idle →
    ReadsAs s 0x08 (if s.irqEn then 1 else 0) ∧ ReadsAs s 0x14 s.errcode
    ∧ ReadsAs s 0x70 s.origBytes ∧ ReadsAs s 0x74 s.compBytes
    ∧ ReadsAs s 0x30 (BitVec.ofNat 32 s.sout.length)
    ∧ (∀ h : s.soutIdx.toNat < s.sout.length, ReadsAs s 0x38 (BitVec.ofNat 32 s.sout[s.soutIdx.toNat]))
    ∧ (s.sout.length ≤ s.soutIdx.toNat → ReadsAs s 0x38 0)
    ∧ (s.ft = none → ReadsAs s 0x3C 0 ∧ ReadsAs s 0x44 0 ∧ ReadsAs s 0x48 0)
    ∧ (∀ ft, s.ft = some ft → ReadsAs s 0x3C (BitVec.ofNat 32 ft.length)
      ∧ (∀ h : s.ftIdx.toNat < ft.length, ReadsAs s 0x44 (BitVec.ofNat 32 ft[s.ftIdx.toNat].sym)
        ∧ ReadsAs s 0x48 (BitVec.ofNat 32 ft[s.ftIdx.toNat].freq))
      ∧ (ft.length ≤ s.ftIdx.toNat → ReadsAs s 0x44 0 ∧ ReadsAs s 0x48 0))
    ∧ (s.cb = none → ReadsAs s 0x4C 0 ∧ ReadsAs s 0x54 0)
    ∧ (∀ cs, s.cb = some cs →
      (∀ h : s.ftIdx.toNat < cs.length, ReadsAs s 0x4C (BitVec.ofNat 32 cs[s.ftIdx.toNat].length)
        ∧ (∀ k : s.cbBitpos.toNat < cs[s.ftIdx.toNat].length,
          ReadsAs s 0x54 (if cs[s.ftIdx.toNat][s.cbBitpos.toNat] then 1 else 0))
        ∧ (cs[s.ftIdx.toNat].length ≤ s.cbBitpos.toNat → ReadsAs s 0x54 0))
      ∧ (cs.length ≤ s.ftIdx.toNat → ReadsAs s 0x4C 0 ∧ ReadsAs s 0x54 0))
    ∧ (s.bits = none → ReadsAs s 0x58 0 ∧ ReadsAs s 0x60 0)
    ∧ (∀ b, s.bits = some b → ReadsAs s 0x58 (BitVec.ofNat 32 b.length)
      ∧ (∀ h : s.bitsIdx.toNat < b.length, ReadsAs s 0x60 (if b[s.bitsIdx.toNat] then 1 else 0))
      ∧ (b.length ≤ s.bitsIdx.toNat → ReadsAs s 0x60 0))
    ∧ (s.pk = none → ReadsAs s 0x64 0 ∧ ReadsAs s 0x6C 0)
    ∧ (∀ p, s.pk = some p → ReadsAs s 0x64 (BitVec.ofNat 32 p.length)
      ∧ (∀ h : s.pkIdx.toNat < p.length, ReadsAs s 0x6C (p[s.pkIdx.toNat].setWidth 32))
      ∧ (p.length ≤ s.pkIdx.toNat → ReadsAs s 0x6C 0))

/-- R421: irq is DONE AND CTRL.IRQ_EN; every completion sets DONE, so irq is then CTRL.IRQ_EN; setting IRQ_EN while
DONE = 1 raises irq at once, and clearing either bit lowers it. -/
def Obligations.InterruptFollowsDone : Prop :=
  (∀ s : State, s.irq = true ↔ s.done = true ∧ s.irqEn = true)
    ∧ (∀ (i : Instr) (s t : State), exec i s = .next t → t.irq = s.irqEn)
    ∧ ∀ s : State, s.rstN = true → s.done = true →
      (hostTransaction (.write 0x08 .word 1) s).irq = true ∧ (hostTransaction (.write 0x08 .word 0) s).irq = false
      ∧ (hostTransaction (.write 0x0C .word 2) s).irq = false

/-! ### Reset and invariants -/

/-- R75: the values right after reset, read through the registers where the host reads them. -/
def Obligations.ResetValues : Prop :=
  (∀ off ∈ ([0x08, 0x0C, 0x10, 0x14, 0x18, 0x1C, 0x24, 0x28, 0x30, 0x34, 0x3C, 0x40, 0x4C, 0x50, 0x58, 0x5C, 0x64,
      0x68, 0x70, 0x74] : List (BitVec 8)), ReadsAs State.reset off 0)
    ∧ State.reset.eng = .idle ∧ State.reset.irq = false ∧ State.reset.ft = none ∧ State.reset.tree = none
    ∧ State.reset.cb = none ∧ State.reset.bits = none ∧ State.reset.pk = none ∧ State.reset.sout = []

/-- R450 to R452: a soft reset and the pin going low both give every value of R75, from IDLE and BUSY alike, with no
completion; SIN and CBUF then hold the draws of a new reset. What stays is the host's side and the parameters. While
the pin is low, Writes have no effect, Reads return 0 and the engine does nothing; when it goes high the block is as
the reset left it. The draws of each reset and a low pin's handling of moves are the model's (logs 2 and 8). -/
def Obligations.ResetsGiveTheResetState : Prop :=
  ∀ (s : State) (v : Word),
    (s.rstN = true → v.getLsbD 1 = true →
      hostTransaction (.write 0x08 .word v) s = { State.resetFor s.cfg with
        readData := s.readData, agenda := s.agenda, epoch := s.epoch + 1, draws := s.draws })
    ∧ setResetPin false s = { State.resetFor s.cfg with
        rstN := false, readData := s.readData, agenda := s.agenda, epoch := s.epoch + 1, draws := s.draws }
    ∧ (∀ a, (setResetPin false s).sinAt a = Config.sinDraw (s.epoch + 1) a
      ∧ (setResetPin false s).cbufAt a = Config.cbufDraw (s.epoch + 1) a)
    ∧ (s.rstN = false →
      (∀ off size, hostTransaction (.write off size v) s = s
        ∧ hostTransaction (.read off size) s = { s with readData := some 0 })
      ∧ (s.agenda = [] → step s = .next s)
      ∧ (∀ rest, s.agenda = .engine :: rest → step s = .next { s with agenda := rest })
      ∧ setResetPin true s = { s with rstN := true })

/-- The invariant holds at reset. -/
def Obligations.ResetMeetsTheInvariant : Prop := State.reset.Inv

/-- Every step keeps the invariant: legal parameters, buffers in canonical form and in range, the rules R61, R63, R64,
R67, R68 and R72 on the stores, the control fields, and the reset hold. The canonical form and the fields kept in
reset are the model's (logs 2 and 8). -/
def Obligations.StepKeepsTheInvariant : Prop :=
  ∀ s t : State, s.Inv → step s = .next t → t.Inv

/-- R197: CB_VALID = 1 implies TREE_VALID = 1, and TREE_VALID = 1 implies FT_VALID = 1: at reset, and every step from any
state in which the chain holds keeps it. -/
def Obligations.StepKeepsTheFlagChain : Prop :=
  FlagChain State.reset ∧ ∀ s t : State, FlagChain s → step s = .next t → FlagChain t

/-- Every step keeps SIN and CBUF in canonical form, inside their capacities, whatever the rest of the state; that form is the
model's (log 2). -/
def Obligations.StepKeepsBuffersCanonical : Prop :=
  ∀ s t : State, BuffersOk s → step s = .next t → BuffersOk t
end

