-- ==== Sys2Proof/Laws/Formats.lean ====
section
/-! SUPPORT. The laws of the encodings: big-endian fields, UTF-8 symbol bytes, packed sections,
container sizes. -/

namespace Sys2Proof.Machine
open Sys2Proof

/-! ### Big-endian fields -/

@[simp] theorem be16_length (v : Nat) : (be16 v).length = 2 := rfl
@[simp] theorem be32_length (v : Nat) : (be32 v).length = 4 := rfl

theorem unbe16_be16 {v : Nat} (h : v < 2 ^ 16) :
    unbe16 (BitVec.ofNat 8 (v / 2 ^ 8)) (BitVec.ofNat 8 v) = v := by
  simp only [unbe16, BitVec.toNat_ofNat]
  omega

theorem unbe32_be32 {v : Nat} (h : v < 2 ^ 32) :
    unbe32 (BitVec.ofNat 8 (v / 2 ^ 24)) (BitVec.ofNat 8 (v / 2 ^ 16)) (BitVec.ofNat 8 (v / 2 ^ 8)) (BitVec.ofNat 8 v)
      = v := by
  simp only [unbe32, BitVec.toNat_ofNat]
  omega

theorem be16_unbe16 (b0 b1 : Byte) : be16 (unbe16 b0 b1) = [b0, b1] := by
  simp only [be16, unbe16, List.cons.injEq, and_true]
  refine ⟨?_, ?_⟩ <;> apply BitVec.eq_of_toNat_eq <;> simp only [BitVec.toNat_ofNat] <;> omega

theorem be32_unbe32 (b0 b1 b2 b3 : Byte) : be32 (unbe32 b0 b1 b2 b3) = [b0, b1, b2, b3] := by
  simp only [be32, unbe32, List.cons.injEq, and_true]
  refine ⟨?_, ?_, ?_, ?_⟩ <;> apply BitVec.eq_of_toNat_eq <;> simp only [BitVec.toNat_ofNat] <;> omega

theorem unbe16_lt (b0 b1 : Byte) : unbe16 b0 b1 < 2 ^ 16 := by
  simp only [unbe16]; omega

theorem unbe32_lt (b0 b1 b2 b3 : Byte) : unbe32 b0 b1 b2 b3 < 2 ^ 32 := by
  simp only [unbe32]; omega

/-- be16's two bytes as numbers, the high byte first (R13). -/
theorem be16_toNat {v : Nat} (h : v < 2 ^ 16) : (be16 v).map BitVec.toNat = [v / 2 ^ 8, v % 2 ^ 8] := by
  simp only [be16, List.map_cons, List.map_nil, BitVec.toNat_ofNat]
  rw [Nat.mod_eq_of_lt (by omega : v / 2 ^ 8 < 2 ^ 8)]

/-- be32's four bytes as numbers, the highest byte first (R13). -/
theorem be32_toNat {v : Nat} (h : v < 2 ^ 32) :
    (be32 v).map BitVec.toNat = [v / 2 ^ 24, v / 2 ^ 16 % 2 ^ 8, v / 2 ^ 8 % 2 ^ 8, v % 2 ^ 8] := by
  simp only [be32, List.map_cons, List.map_nil, BitVec.toNat_ofNat]
  rw [Nat.mod_eq_of_lt (by omega : v / 2 ^ 24 < 2 ^ 8)]

/-! ### UTF-8 -/

theorem scalar_iff (s : Nat) : scalar s = true ↔ s ≤ 0x10FFFF ∧ ¬ (0xD800 ≤ s ∧ s ≤ 0xDFFF) := by
  simp only [scalar, Bool.and_eq_true, decide_eq_true_eq, Bool.not_eq_true', Bool.and_eq_false_iff, decide_eq_false_iff_not]
  omega

theorem utf8_length (s : Nat) :
    (utf8 s).length = if s ≤ 0x7F then 1 else if s ≤ 0x7FF then 2 else if s ≤ 0xFFFF then 3 else 4 := by
  unfold utf8; split_ifs <;> rfl

theorem utf8_length_pos (s : Nat) : 1 ≤ (utf8 s).length := by
  rw [utf8_length]; split_ifs <;> omega

theorem utf8_length_le (s : Nat) : (utf8 s).length ≤ 4 := by
  rw [utf8_length]; split_ifs <;> omega

/-- The bytes of an encoding as numbers (R170). -/
theorem utf8_toNat {s : Nat} (h : s ≤ 0x10FFFF) : (utf8 s).map BitVec.toNat =
    if s ≤ 0x7F then [s] else if s ≤ 0x7FF then [0xC0 + s / 2 ^ 6, 0x80 + s % 2 ^ 6]
    else if s ≤ 0xFFFF then [0xE0 + s / 2 ^ 12, 0x80 + s / 2 ^ 6 % 2 ^ 6, 0x80 + s % 2 ^ 6]
    else [0xF0 + s / 2 ^ 18, 0x80 + s / 2 ^ 12 % 2 ^ 6, 0x80 + s / 2 ^ 6 % 2 ^ 6, 0x80 + s % 2 ^ 6] := by
  unfold utf8
  split_ifs <;> simp only [List.map_cons, List.map_nil, BitVec.toNat_ofNat, List.cons.injEq, and_true] <;> omega

/-- The bytes of a scalar value's encoding name it back. -/
theorem utf8Candidate_utf8 {s : Nat} (h : s ≤ 0x10FFFF) : utf8Candidate (utf8 s) = some s := by
  unfold utf8
  split_ifs <;> simp only [utf8Candidate, BitVec.toNat_ofNat, Option.some.injEq] <;> omega

/-- unutf8 finds exactly the scalar value that has the encoding (R172). -/
theorem unutf8_eq_some {u : List Byte} {x : Nat} : unutf8 u = some x ↔ scalar x = true ∧ utf8 x = u := by
  constructor
  · intro h
    unfold unutf8 at h
    split at h
    · split_ifs at h with hc
      simp only [Bool.and_eq_true, beq_iff_eq] at hc
      cases h; exact hc
    · cases h
  · rintro ⟨h, rfl⟩
    simp [unutf8, utf8Candidate_utf8 ((scalar_iff x).1 h).1, h]

/-! ### The packed section -/

theorem padCount_le (n : Nat) : padCount n ≤ 7 := by unfold padCount; omega

theorem padCount_spec (n : Nat) : n + padCount n = 8 * ((n + 7) / 8) := by unfold padCount; omega

@[simp] theorem groupBytes_length (n : Nat) (b : List Bool) : (groupBytes n b).length = n := by
  induction n generalizing b with
  | zero => rfl
  | succ n ih => simp [groupBytes, ih]

@[simp] theorem bitsOfByte_length (x : Byte) : (bitsOfByte x).length = 8 := by simp [bitsOfByte]

theorem bitsOfByte_byteOfBits {b : List Bool} (h : b.length = 8) : bitsOfByte (byteOfBits b) = b := by
  match b, h with
  | [b0, b1, b2, b3, b4, b5, b6, b7], _ =>
    revert b0 b1 b2 b3 b4 b5 b6 b7
    decide

theorem bitsOfByte_getElem? (x : Byte) {k : Nat} (h : k < 8) : (bitsOfByte x)[k]? = some (x.getLsbD (7 - k)) := by
  simp [bitsOfByte, h, BitVec.getLsbD, Nat.testBit_eq_decide_div_mod_eq]
  rfl

theorem expandBytes_cons (x : Byte) (bs : List Byte) : expandBytes (x :: bs) = bitsOfByte x ++ expandBytes bs := rfl

theorem expandBytes_append (as bs : List Byte) : expandBytes (as ++ bs) = expandBytes as ++ expandBytes bs := by
  simp [expandBytes]

@[simp] theorem expandBytes_length (bs : List Byte) : (expandBytes bs).length = 8 * bs.length := by
  induction bs with
  | nil => rfl
  | cons x bs ih => rw [expandBytes_cons, List.length_append, ih, bitsOfByte_length, List.length_cons]; omega

/-- Bit k of the expansion is bit 7 - k mod 8 of byte k div 8 (R106, R321). -/
theorem expandBytes_getElem? (bs : List Byte) (k : Nat) :
    (expandBytes bs)[k]? = bs[k / 8]?.map fun x => x.getLsbD (7 - k % 8) := by
  induction bs generalizing k with
  | nil => simp [expandBytes]
  | cons x bs ih =>
    rw [expandBytes_cons]
    by_cases h : k < 8
    · rw [List.getElem?_append_left (by simpa using h), bitsOfByte_getElem? x h]
      have : k / 8 = 0 := by omega
      have h2 : k % 8 = k := by omega
      simp [this, h2]
    · rw [List.getElem?_append_right (by simp; omega), bitsOfByte_length, ih]
      have : k / 8 = (k - 8) / 8 + 1 := by omega
      have h2 : k % 8 = (k - 8) % 8 := by omega
      rw [this, h2, List.getElem?_cons_succ]

/-- Expanding the groups gives the grouped bits back. -/
theorem expandBytes_groupBytes (n : Nat) (b : List Bool) (h : b.length = 8 * n) :
    expandBytes (groupBytes n b) = b := by
  induction n generalizing b with
  | zero =>
    have : b = [] := List.length_eq_zero_iff.mp (by omega)
    subst this; rfl
  | succ n ih =>
    rw [groupBytes, expandBytes_cons, bitsOfByte_byteOfBits (by simp; omega), ih _ (by simp; omega), List.take_append_drop]

/-- The packed section without its let: the padding count and the groups of the padded bits (R167). -/
theorem packed_eq (b : List Bool) :
    packed b = BitVec.ofNat 8 (padCount b.length)
      :: groupBytes ((b.length + 7) / 8) (b ++ List.replicate (padCount b.length) false) := by
  have : (b.length + padCount b.length) / 8 = (b.length + 7) / 8 := by
    rw [padCount_spec]; omega
  simp only [packed, this]

/-- |packed(b)| = 1 + ceil(n/8) (R167). -/
@[simp] theorem packed_length (b : List Bool) : (packed b).length = 1 + (b.length + 7) / 8 := by
  rw [packed_eq, List.length_cons, groupBytes_length]; omega

theorem expandBytes_packed_tail (b : List Bool) :
    expandBytes (groupBytes ((b.length + 7) / 8) (b ++ List.replicate (padCount b.length) false))
      = b ++ List.replicate (padCount b.length) false :=
  expandBytes_groupBytes _ _ (by rw [List.length_append, List.length_replicate, padCount_spec])

/-! ### The container -/

theorem entryBytes_eq (e : Entry) :
    entryBytes e = BitVec.ofNat 8 (utf8 e.sym).length :: (utf8 e.sym ++ be32 e.freq) := rfl

theorem entryBytes_length (e : Entry) : (entryBytes e).length = 5 + (utf8 e.sym).length := by
  rw [entryBytes_eq, List.length_cons, List.length_append, be32_length]; omega

/-- The container's size (R162). -/
theorem container_length (t : List Entry) (p : List Byte) :
    (container t p).length = 2 + (t.map fun e => 5 + (utf8 e.sym).length).sum + p.length := by
  have : (t.flatMap entryBytes).length = (t.map fun e => 5 + (utf8 e.sym).length).sum := by
    induction t with
    | nil => rfl
    | cons e t ih => rw [List.flatMap_cons, List.length_append, ih, entryBytes_length, List.map_cons, List.sum_cons]
  rw [container, List.length_append, List.length_append, be16_length, this]
  omega

/-- An entry's bytes as numbers (R161). -/
theorem entryBytes_toNat {e : Entry} (h : e.freq < 2 ^ 32) :
    (entryBytes e).map BitVec.toNat = (utf8 e.sym).length :: (utf8 e.sym).map BitVec.toNat
      ++ [e.freq / 2 ^ 24, e.freq / 2 ^ 16 % 2 ^ 8, e.freq / 2 ^ 8 % 2 ^ 8, e.freq % 2 ^ 8] := by
  have hl := utf8_length_le e.sym
  rw [entryBytes_eq, List.map_cons, List.map_append, be32_toNat h, BitVec.toNat_ofNat, Nat.mod_eq_of_lt (by omega)]
  rfl

/-- The container's bytes as numbers, field after field (R160, R161). -/
theorem container_toNat {t : List Entry} {p : List Byte} (hl : t.length < 2 ^ 16) (h : ∀ e ∈ t, e.freq < 2 ^ 32) :
    (container t p).map BitVec.toNat = [t.length / 2 ^ 8, t.length % 2 ^ 8]
      ++ (t.flatMap fun e => (utf8 e.sym).length :: (utf8 e.sym).map BitVec.toNat
          ++ [e.freq / 2 ^ 24, e.freq / 2 ^ 16 % 2 ^ 8, e.freq / 2 ^ 8 % 2 ^ 8, e.freq % 2 ^ 8])
      ++ p.map BitVec.toNat := by
  rw [container, List.map_append, List.map_append, be16_toNat hl, List.map_flatMap, List.append_assoc]
  congr 2
  exact List.flatMap_congr fun e he => entryBytes_toNat (h e he)

end Sys2Proof.Machine
end

