-- ==== Sys2Proof/Laws/Bitpack.lean ====
section
/-! SUPPORT. The laws of unpacking and of the decoder's walk over a tree. -/

namespace Sys2Proof.Machine
open Sys2Proof

theorem unpackBits_cons {p : Byte} {bs : List Byte} (h : p.toNat ≤ 7) :
    unpackBits (p :: bs) = some ((expandBytes bs).take (8 * bs.length - p.toNat)) := by
  rw [unpackBits, if_neg (by omega), expandBytes_length]
  congr 2
  omega

/-- UNPACK of packed(b) gives b (R324). -/
theorem unpackBits_packed (b : List Bool) : unpackBits (packed b) = some b := by
  have hp := padCount_le b.length
  have hs := padCount_spec b.length
  have hn : (BitVec.ofNat 8 (padCount b.length)).toNat = padCount b.length := by
    rw [BitVec.toNat_ofNat]; omega
  rw [packed_eq, unpackBits_cons (by omega), expandBytes_packed_tail, groupBytes_length, hn]
  congr 1
  rw [show 8 * ((b.length + 7) / 8) - padCount b.length = b.length by omega]
  simp

theorem unpackBits_eq_none {pk : List Byte} :
    unpackBits pk = none ↔ pk = [] ∨ ∃ p bs, pk = p :: bs ∧ 7 < p.toNat := by
  cases pk with
  | nil => simp [unpackBits]
  | cons p bs => simp [unpackBits]

theorem unpackBits_length_le {pk : List Byte} {b : List Bool} (h : unpackBits pk = some b) :
    b.length ≤ 8 * (pk.length - 1) := by
  cases pk with
  | nil => simp [unpackBits] at h
  | cons p bs =>
    simp only [unpackBits] at h
    split_ifs at h
    simp only [Option.some.injEq] at h
    rw [← h, List.length_take, expandBytes_length]
    simp

/-! ### Descent -/

theorem subtree_append (t : HuffTree) (p q : List Bool) :
    subtree t (p ++ q) = (subtree t p).bind fun u => subtree u q := by
  induction p generalizing t with
  | nil => simp [subtree]
  | cons x p ih =>
    cases t with
    | leaf s f => simp [subtree]
    | placeholder => simp [subtree]
    | node l r f => cases x <;> simp [subtree, ih]

/-- A position that goes on is a Node. -/
theorem subtree_prefix_node {t v : HuffTree} {p q : List Bool} (hq : q ≠ []) (h : subtree t (p ++ q) = some v) :
    ∃ l r f, subtree t p = some (.node l r f) := by
  rw [subtree_append] at h
  cases hu : subtree t p with
  | none => rw [hu] at h; cases h
  | some u =>
    rw [hu] at h
    cases q with
    | nil => exact absurd rfl hq
    | cons x q =>
      cases u with
      | leaf s f => simp [subtree] at h
      | placeholder => simp [subtree] at h
      | node l r f => exact ⟨l, r, f, rfl⟩

theorem decodeWalk_nil (t : HuffTree) : decodeWalk t [] [] = some [] := by simp [decodeWalk]

theorem decodeWalk_midcode (t : HuffTree) {p : List Bool} (h : p ≠ []) : decodeWalk t p [] = none := by
  cases p with
  | nil => exact absurd rfl h
  | cons x p => simp [decodeWalk]

theorem decodeWalk_cons (t : HuffTree) (p : List Bool) (b : Bool) (bs : List Bool) :
    decodeWalk t p (b :: bs) =
      match subtree t (p ++ [b]) with
      | some (.leaf x _) => (decodeWalk t [] bs).map (x :: ·)
      | some (.node _ _ _) => decodeWalk t (p ++ [b]) bs
      | some .placeholder => none
      | none => none := by
  cases p <;>
  · rw [decodeWalk]
    split <;> simp_all
    split <;> simp_all

/-- While the path leads to a Node the walk goes on. -/
theorem decodeWalk_through {t l r : HuffTree} {f : Nat} {p q : List Bool} (rest : List Bool)
    (h : subtree t (p ++ q) = some (.node l r f)) : decodeWalk t p (q ++ rest) = decodeWalk t (p ++ q) rest := by
  induction q generalizing p with
  | nil => simp
  | cons x q ih =>
    have h' : subtree t (p ++ [x] ++ q) = some (.node l r f) := by simpa using h
    have hn : ∃ l' r' f', subtree t (p ++ [x]) = some (.node l' r' f') := by
      cases q with
      | nil => exact ⟨l, r, f, by simpa using h'⟩
      | cons y q => exact subtree_prefix_node (by simp) h'
    obtain ⟨l', r', f', hn⟩ := hn
    rw [List.cons_append, decodeWalk_cons, hn]
    simpa using ih h'

/-- A path to a real leaf emits its symbol and returns to the root (R331). -/
theorem decodeWalk_code {t : HuffTree} {c : List Bool} {x f : Nat} (rest : List Bool) (hc : c ≠ [])
    (h : subtree t c = some (.leaf x f)) :
    decodeWalk t [] (c ++ rest) = (decodeWalk t [] rest).map (x :: ·) := by
  obtain ⟨q, b, rfl⟩ : ∃ q b, c = q ++ [b] := ⟨c.dropLast, c.getLast hc, (List.dropLast_append_getLast hc).symm⟩
  obtain ⟨l, r, g, hn⟩ := subtree_prefix_node (q := [b]) (by simp) h
  rw [List.append_assoc, decodeWalk_through (p := []) (q := q) ([b] ++ rest) (by simpa using hn)]
  rw [List.singleton_append, decodeWalk_cons, List.nil_append, h]

/-- A path to the placeholder is an error, whatever follows (R332). -/
theorem decodeWalk_placeholder {t : HuffTree} {c : List Bool} (rest : List Bool) (hc : c ≠ [])
    (h : subtree t c = some .placeholder) : decodeWalk t [] (c ++ rest) = none := by
  obtain ⟨q, b, rfl⟩ : ∃ q b, c = q ++ [b] := ⟨c.dropLast, c.getLast hc, (List.dropLast_append_getLast hc).symm⟩
  obtain ⟨l, r, g, hn⟩ := subtree_prefix_node (q := [b]) (by simp) h
  rw [List.append_assoc, decodeWalk_through (p := []) (q := q) ([b] ++ rest) (by simpa using hn)]
  rw [List.singleton_append, decodeWalk_cons, List.nil_append, h]

/-- A list of (symbol, code) pairs of a tree decodes to its symbols, then the walk goes on from the root. -/
theorem decodeWalk_codes {t : HuffTree} {p : List (Nat × Code)} (hp : PathsOf t p) (rest : List Bool) :
    decodeWalk t [] ((p.map Prod.snd).flatten ++ rest) = (decodeWalk t [] rest).map (p.map Prod.fst ++ ·) := by
  induction p with
  | nil => simp
  | cons q p ih =>
    obtain ⟨hne, f, hq⟩ := hp q (by simp)
    have ih := ih fun q' h' => hp q' (by simp [h'])
    rw [List.map_cons, List.flatten_cons, List.append_assoc, decodeWalk_code _ hne hq, ih]
    simp [Option.map_map, Function.comp_def]

/-- Walks compose: what the first part decodes to comes first. -/
theorem decodeWalk_append {t : HuffTree} {p b₁ b₂ : List Bool} {out : List Nat}
    (h : decodeWalk t p b₁ = some out) : decodeWalk t p (b₁ ++ b₂) = (decodeWalk t [] b₂).map (out ++ ·) := by
  induction b₁ generalizing p out with
  | nil =>
    cases p with
    | nil => rw [decodeWalk_nil] at h; cases h; simp
    | cons x p => simp [decodeWalk] at h
  | cons x b₁ ih =>
    rw [decodeWalk_cons] at h
    rw [List.cons_append, decodeWalk_cons]
    split at h
    · rename_i y f hs
      rw [Option.map_eq_some_iff] at h
      obtain ⟨o, ho, rfl⟩ := h
      rw [ih ho]
      simp [Option.map_map, Function.comp_def]
    · rename_i l r f hs
      exact ih h
    · cases h
    · cases h

/-- A walk that succeeds on some bits, or from below the root, emits a symbol. -/
theorem decodeWalk_emits {t : HuffTree} {p b : List Bool} {out : List Nat} (hb : b ≠ [])
    (h : decodeWalk t p b = some out) : out ≠ [] := by
  induction b generalizing p out with
  | nil => exact absurd rfl hb
  | cons x b ih =>
    rw [decodeWalk_cons] at h
    split at h
    · rw [Option.map_eq_some_iff] at h
      obtain ⟨o, _, rfl⟩ := h
      simp
    · cases b with
      | nil => rw [decodeWalk_midcode _ (by simp)] at h; cases h
      | cons y b => exact ih (by simp) h
    · cases h
    · cases h

/-- Every symbol a walk emits is a real leaf's. -/
theorem decodeWalk_symbols {t : HuffTree} {p b : List Bool} {out : List Nat} (h : decodeWalk t p b = some out) :
    ∀ x ∈ out, ∃ q f, subtree t q = some (.leaf x f) := by
  induction b generalizing p out with
  | nil =>
    cases p with
    | nil => rw [decodeWalk_nil] at h; cases h; simp
    | cons x p => simp [decodeWalk] at h
  | cons x b ih =>
    rw [decodeWalk_cons] at h
    split at h
    · rename_i y f hs
      rw [Option.map_eq_some_iff] at h
      obtain ⟨o, ho, rfl⟩ := h
      intro z hz
      rcases List.mem_cons.1 hz with rfl | hz
      · exact ⟨_, _, hs⟩
      · exact ih ho z hz
    · exact ih h
    · cases h
    · cases h

theorem subtree_leaf_mem {t : HuffTree} {p : List Bool} {x f : Nat} (h : subtree t p = some (.leaf x f)) :
    (⟨x, f⟩ : Entry) ∈ leavesOf t := by
  induction t generalizing p with
  | leaf s g =>
    cases p with
    | nil => simp only [subtree, Option.some.injEq, HuffTree.leaf.injEq] at h; simp [leavesOf, h]
    | cons b p => simp [subtree] at h
  | placeholder => cases p <;> simp [subtree] at h
  | node l r g ihl ihr =>
    cases p with
    | nil => simp [subtree] at h
    | cons b p =>
      cases b
      · simp [leavesOf, ihl (by simpa [subtree] using h)]
      · simp [leavesOf, ihr (by simpa [subtree] using h)]

/-- A path that stays on the tree is no longer than its Nodes. -/
theorem subtree_length_le {t u : HuffTree} {p : List Bool} (h : subtree t p = some u) : p.length ≤ nodeCount t := by
  induction t generalizing p with
  | leaf s g => cases p with
    | nil => simp
    | cons b p => simp [subtree] at h
  | placeholder => cases p with
    | nil => simp
    | cons b p => simp [subtree] at h
  | node l r g ihl ihr =>
    cases p with
    | nil => simp
    | cons b p =>
      cases b
      · have := ihl (p := p) (by simpa [subtree] using h); simp [nodeCount]; omega
      · have := ihr (p := p) (by simpa [subtree] using h); simp [nodeCount]; omega

theorem packed_dropLast_unpacks {b : List Bool} (hb : b ≠ []) :
    ∃ b' r, unpackBits (packed b).dropLast = some b' ∧ b = b' ++ r ∧ r ≠ [] := by
  have hp := padCount_le b.length
  have hs := padCount_spec b.length
  have hpos : 1 ≤ b.length := by cases b <;> simp_all
  have hn : (BitVec.ofNat 8 (padCount b.length)).toNat = padCount b.length := by
    rw [BitVec.toNat_ofNat]; omega
  have hne : groupBytes ((b.length + 7) / 8) (b ++ List.replicate (padCount b.length) false) ≠ [] := by
    intro h
    have := congrArg List.length h
    rw [groupBytes_length, List.length_nil] at this
    omega
  have hx : ∀ bs : List Byte, expandBytes bs.dropLast = (expandBytes bs).take (8 * (bs.length - 1)) := by
    intro bs
    rcases List.eq_nil_or_concat bs with rfl | ⟨l, x, rfl⟩
    · rfl
    · simp only [List.concat_eq_append, List.dropLast_concat, List.length_append, List.length_singleton,
        Nat.add_sub_cancel, expandBytes_append]
      rw [List.take_left' (by simp)]
  rw [packed_eq, List.dropLast_cons_of_ne_nil hne, unpackBits_cons (by omega), hn, hx,
    expandBytes_packed_tail, List.length_dropLast, groupBytes_length, List.take_take]
  rw [List.take_append_of_le_length (by omega)]
  refine ⟨_, b.drop _, rfl, (List.take_append_drop _ b).symm, ?_⟩
  intro h
  have := congrArg List.length h
  simp at this
  omega

end Sys2Proof.Machine
end

