-- ==== Sys2Proof/Laws/Bus.lean ====
section
/-! SUPPORT. Everything a host transaction can do, while IDLE, while BUSY and in reset, and the bits of
STATUS. -/

namespace Sys2Proof.Machine
open Sys2Proof

/-! ### Host transactions -/

/-- A register is reached only at its own offset (R40). -/
theorem regAt_offset {off : BitVec 8} {size : AccessSize} {r : Reg} (h : regAt off size = some r) :
    size = .word ∧ regOffset r = off := by
  cases size with
  | byte => cases h
  | half => cases h
  | word => exact ⟨rfl, by simpa using List.find?_some h⟩

/-- Every register is reached at its offset with size 4 (R40, R111). -/
theorem regAt_regOffset (r : Reg) : regAt (regOffset r) .word = some r := by cases r <;> decide

/-- The offsets that reach a register (R111). -/
theorem regAt_word_isSome (off : BitVec 8) :
    (regAt off .word).isSome = true ↔ off.toNat % 4 = 0 ∧ off.toNat ≤ 0x74 := by
  revert off; decide +kernel

/-- A Read changes at most the model's own records (R116). -/
theorem hostRead_cases (off : BitVec 8) (size : AccessSize) (s : State) :
    ∃ v d, hostRead off size s = { s with readData := some v, draws := d } ∧ (s.busy = false → d = s.draws) := by
  unfold hostRead
  split
  · split
    · exact ⟨_, _, rfl, fun _ => rfl⟩
    · split
      · rename_i hb
        exact ⟨_, _, rfl, fun h => by rw [h] at hb; cases hb⟩
      · exact ⟨_, _, rfl, fun _ => rfl⟩
  · exact ⟨_, _, rfl, fun _ => rfl⟩

/-- A Read of a register while IDLE answers its value and changes nothing else (R116). -/
theorem hostRead_idle {s : State} {off : BitVec 8} {r : Reg} (h : s.rstN = true) (hi : s.eng = .idle)
    (hr : regAt off .word = some r) :
    hostTransaction (.read off .word) s = { s with readData := some (readRegister s r) } := by
  simp only [hostTransaction, hostRead, h, hr, State.busy, hi, if_true, Bool.false_eq_true, if_false]

/-- A Read of a register while BUSY (R462). -/
theorem hostRead_busy {s : State} {off : BitVec 8} {r : Reg} {w : Word} (h : s.rstN = true) (hb : s.eng = .busy w)
    (hr : regAt off .word = some r) :
    (hostTransaction (.read off .word) s).readData = some (readRegisterBusy (Config.busyRead s.draws) s r) := by
  simp only [hostTransaction, hostRead, h, hr, State.busy, hb, if_true]

/-- A Write of a register outside reset (R34). -/
theorem hostWrite_reg {s : State} {off : BitVec 8} {r : Reg} (v : Word) (h : s.rstN = true)
    (hr : regAt off .word = some r) : hostTransaction (.write off .word v) s = writeRegister r v s := by
  simp only [hostTransaction, hostWrite, h, hr, if_true]

/-- Every effect of a write to a RW register other than CTRL while IDLE (R47 to R57). -/
theorem storeRegister_cases (v : Word) (s : State) (r : Reg) :
    (∃ sl si cl ci so fi cp bi pi, storeRegister v s r = { s with
        sinLen := sl, sinIdx := si, cbufLen := cl, cbufIdx := ci, soutIdx := so, ftIdx := fi
        cbBitpos := cp, bitsIdx := bi, pkIdx := pi })
    ∨ (s.sinIdx.toNat < s.cfg.sinCap
      ∧ storeRegister v s r = { s with sin := Memory.write s.sin s.sinIdx.toNat v })
    ∨ (s.cbufIdx.toNat < s.cfg.cbufCap
      ∧ storeRegister v s r = { s with cbuf := Memory.write s.cbuf s.cbufIdx.toNat (v.setWidth 8) }) := by
  cases r
  case sinData =>
    simp only [storeRegister]
    split
    · exact .inr (.inl ⟨‹_›, rfl⟩)
    · exact .inl ⟨_, _, _, _, _, _, _, _, _, rfl⟩
  case cbufData =>
    simp only [storeRegister]
    split
    · exact .inr (.inr ⟨‹_›, rfl⟩)
    · exact .inl ⟨_, _, _, _, _, _, _, _, _, rfl⟩
  all_goals exact .inl ⟨_, _, _, _, _, _, _, _, _, rfl⟩

/-- Everything a Write that reaches a register can do (R43 to R59, R460, R461): a soft reset, a change of the control
bits, an acceptance while IDLE, or the store of a RW register while IDLE. -/
theorem writeRegister_cases (r : Reg) (v : Word) (s : State) :
    (r = .ctrl ∧ v.getLsbD 1 = true ∧ writeRegister r v s = resetBlock s)
    ∨ (¬ (r = .ctrl ∧ v.getLsbD 1 = true) ∧
      ((∃ q d c w, (d = true → s.done = true) ∧
          writeRegister r v s = { s with irqEn := q, done := d, cmdDropped := c, wrDropped := w })
        ∨ (s.eng = .idle ∧ writeRegister r v s = accept v s)
        ∨ (s.eng = .idle ∧ writeRegister r v s = storeRegister v s r))) := by
  have hrw : ∀ r', r' = r → ¬ r = .ctrl → writeRegister r v s = writeRw r v s →
      (¬ (r = .ctrl ∧ v.getLsbD 1 = true) ∧
      ((∃ q d c w, (d = true → s.done = true) ∧
          writeRegister r v s = { s with irqEn := q, done := d, cmdDropped := c, wrDropped := w })
        ∨ (s.eng = .idle ∧ writeRegister r v s = accept v s)
        ∨ (s.eng = .idle ∧ writeRegister r v s = storeRegister v s r))) := by
    intro r' _ hne hw
    refine ⟨fun h => hne h.1, ?_⟩
    rw [hw, writeRw]
    cases he : s.eng with
    | idle => exact .inr (.inr ⟨rfl, by simp [State.busy, he]⟩)
    | busy w => exact .inl ⟨s.irqEn, s.done, s.cmdDropped, true, id, by simp [State.busy, he]⟩
  cases r
  case ctrl =>
    simp only [writeRegister, writeCtrl]
    cases hv : v.getLsbD 1
    · exact .inr ⟨by simp, .inl ⟨_, s.done, s.cmdDropped, s.wrDropped, id, rfl⟩⟩
    · exact .inl ⟨by trivial, rfl, by trivial⟩
  case status =>
    refine .inr ⟨by simp, .inl ⟨s.irqEn, _, _, _, ?_, rfl⟩⟩
    intro h
    exact (Bool.and_eq_true_iff.1 h).1
  case cmd =>
    refine .inr ⟨by simp, ?_⟩
    simp only [writeRegister, writeCmd]
    cases he : s.eng with
    | idle => exact .inr (.inl ⟨rfl, by simp [State.busy, he]⟩)
    | busy w => exact .inl ⟨s.irqEn, s.done, true, s.wrDropped, id, by simp [State.busy, he]⟩
  all_goals
    first
    | exact .inr (hrw _ rfl (by decide) rfl)
    | exact .inr ⟨by simp, .inl ⟨s.irqEn, s.done, s.cmdDropped, s.wrDropped, id, rfl⟩⟩

/-- Everything a host transaction can do (R34). -/
theorem hostTransaction_cases (t : Transaction) (s : State) :
    (s.rstN = true ∧ resets (.host t) = true ∧ hostTransaction t s = resetBlock s)
    ∨ ((s.rstN = true → resets (.host t) = false) ∧
      ((∃ v d, hostTransaction t s = { s with readData := v, draws := d })
        ∨ (∃ q d c w, s.rstN = true ∧ (d = true → s.done = true) ∧
          hostTransaction t s = { s with irqEn := q, done := d, cmdDropped := c, wrDropped := w })
        ∨ (s.rstN = true ∧ s.eng = .idle ∧ ∃ v, hostTransaction t s = accept v s)
        ∨ (s.rstN = true ∧ s.eng = .idle ∧ ∃ v r, hostTransaction t s = storeRegister v s r))) := by
  cases t with
  | read off size =>
    obtain ⟨v, d, h, -⟩ := hostRead_cases off size s
    exact .inr ⟨fun _ => rfl, .inl ⟨some v, d, h⟩⟩
  | write off size data =>
    have hsame : ∀ {x : State}, x = s → ∃ v d, x = { s with readData := v, draws := d } :=
      fun h => ⟨s.readData, s.draws, h⟩
    by_cases hr : s.rstN = true
    swap
    · exact .inr ⟨fun h => absurd h hr, .inl (hsame (if_neg hr))⟩
    cases ha : regAt off size with
    | none => exact .inr ⟨fun _ => (by simp [resets, ha]), .inl (hsame (by simp [hostTransaction, hostWrite, ha]))⟩
    | some r =>
      have hw : hostTransaction (.write off size data) s = writeRegister r data s := by
        simp [hostTransaction, hostWrite, ha, hr]
      rcases writeRegister_cases r data s with ⟨h1, h2, h3⟩ | ⟨h1, h2⟩
      · exact .inl ⟨hr, by simp [resets, ha, h1, h2], hw.trans h3⟩
      · refine .inr ⟨fun _ => ?_, ?_⟩
        · simp only [resets, ha]
          cases hd : data.getLsbD 1 <;> simp_all
        · rcases h2 with ⟨q, d, c, w, hd, h⟩ | ⟨hi, h⟩ | ⟨hi, h⟩
          · exact .inr (.inl ⟨q, d, c, w, hr, hd, hw.trans h⟩)
          · exact .inr (.inr (.inl ⟨hr, hi, data, hw.trans h⟩))
          · exact .inr (.inr (.inr ⟨hr, hi, data, r, hw.trans h⟩))

/-- While BUSY a transaction that is no reset changes only control bits and the model's records: the inputs of the
accepted command stay (R126, R129). -/
theorem hostTransaction_busy {t : Transaction} {s : State} {w : Word} (hb : s.eng = .busy w)
    (hn : resets (.host t) = false) : ∃ q d c x v n, (d = true → s.done = true) ∧
      hostTransaction t s = { s with
        irqEn := q, done := d, cmdDropped := c, wrDropped := x, readData := v, draws := n } := by
  rcases hostTransaction_cases t s with ⟨-, h, -⟩ | ⟨-, ⟨v, d, h⟩ | ⟨q, d, c, x, -, hd, h⟩ | ⟨-, h, -⟩ | ⟨-, h, -⟩⟩
  · rw [hn] at h; cases h
  · exact ⟨s.irqEn, s.done, s.cmdDropped, s.wrDropped, v, d, id, h⟩
  · exact ⟨q, d, c, x, s.readData, s.draws, hd, h⟩
  · rw [hb] at h; cases h
  · rw [hb] at h; cases h

/-! ### STATUS bit by bit -/

theorem statusWord_bits (a b : BitVec 5) (k : Nat) : (statusWord a b).getLsbD k =
    if k < 5 then b.getLsbD k else if k < 8 then false else if k < 13 then a.getLsbD (k - 8) else false := by
  simp only [statusWord, BitVec.getLsbD_append]
  by_cases h : k < 5
  · simp [h]
  · by_cases h2 : k < 8
    · simp [h, h2, show k - 5 < 3 by omega]
    · by_cases h3 : k < 13
      · simp [h, h2, h3, show ¬ (k - 5 < 3) by omega, show k - 5 - 3 = k - 8 by omega, show k - 8 < 5 by omega]
      · simp [h, h2, h3, show ¬ (k - 5 < 3) by omega, show k - 5 - 3 = k - 8 by omega, show ¬ k - 8 < 5 by omega]

theorem err_iff (s : State) : s.err = true ↔ s.errcode.toNat % 2 ^ 8 ≠ 0 := by
  simp only [State.err, Bool.not_eq_true', beq_eq_false_iff_ne, ne_eq]
  rw [← BitVec.toNat_inj]
  simp

theorem validBits_bits (s : State) : s.validBits.getLsbD 0 = s.ft.isSome ∧ s.validBits.getLsbD 1 = s.tree.isSome
  ∧ s.validBits.getLsbD 2 = s.cb.isSome ∧ s.validBits.getLsbD 3 = s.bits.isSome ∧ s.validBits.getLsbD 4 = s.pk.isSome := by
  simp only [State.validBits, State.ftValid, State.treeValid, State.cbValid, State.bitsValid, State.pkValid]
  generalize s.ft.isSome = a; generalize s.tree.isSome = b; generalize s.cb.isSome = c
  generalize s.bits.isSome = d; generalize s.pk.isSome = e
  revert a b c d e; decide

theorem lowBits_bits (s : State) : s.lowBits.getLsbD 0 = s.busy ∧ s.lowBits.getLsbD 1 = s.done
  ∧ s.lowBits.getLsbD 2 = s.err ∧ s.lowBits.getLsbD 3 = s.cmdDropped ∧ s.lowBits.getLsbD 4 = s.wrDropped := by
  simp only [State.lowBits]
  generalize s.busy = a; generalize s.done = b; generalize s.err = c
  generalize s.cmdDropped = d; generalize s.wrDropped = e
  revert a b c d e; decide

end Sys2Proof.Machine
end

