-- ==== Sys2Proof/Laws/FreqTable.lean ====
section
/-! SUPPORT. The laws of the frequency table, and everything FT_BUILD can do. -/

namespace Sys2Proof.Machine
open Sys2Proof

theorem eraseDups_concat (txt : List Nat) (x : Nat) :
    (txt ++ [x]).eraseDups = txt.eraseDups ++ if x ∈ txt then [] else [x] := by
  rw [List.eraseDups_append]
  by_cases h : x ∈ txt <;> simp [List.removeAll, h, List.eraseDups_cons]

theorem eraseDups_nodup (txt : List Nat) : txt.eraseDups.Nodup := by
  induction txt using List.reverseRecOn with
  | nil => simp
  | append_singleton txt x ih =>
    rw [eraseDups_concat]
    split
    · simpa using ih
    · rename_i h
      exact List.Nodup.append ih (by simp) (by simpa using h)

/-- The symbols of countsOf are the distinct symbols of the text. -/
theorem countsOf_syms (txt : List Nat) : (countsOf txt).map Entry.sym = txt.eraseDups := by
  simp [countsOf, Function.comp_def]

theorem countSymbol_of_mem {x : Nat} {f : Nat → Nat} {l : List Nat} (h : x ∈ l) (hn : l.Nodup) :
    countSymbol x (l.map fun y => ⟨y, f y⟩) = l.map fun y => ⟨y, if y = x then f y + 1 else f y⟩ := by
  induction l with
  | nil => cases h
  | cons y l ih =>
    simp only [List.map_cons, countSymbol]
    rw [List.nodup_cons] at hn
    by_cases hy : y = x
    · subst hy
      rw [if_pos rfl]
      simp only [if_pos, List.cons.injEq, true_and]
      apply List.map_congr_left
      intro z hz
      have : z ≠ y := fun e => hn.1 (e ▸ hz)
      simp [this]
    · rw [if_neg hy, ih (by simpa [Ne.symm hy] using h) hn.2]
      simp [hy]

theorem countSymbol_of_not_mem {x : Nat} {f : Nat → Nat} {l : List Nat} (h : x ∉ l) :
    countSymbol x (l.map fun y => ⟨y, f y⟩) = (l.map fun y => ⟨y, f y⟩) ++ [⟨x, 1⟩] := by
  induction l with
  | nil => rfl
  | cons y l ih =>
    rw [List.mem_cons, not_or] at h
    simp [countSymbol, Ne.symm h.1, ih h.2]

/-- FT_BUILD's loop makes the table of counts (R232). -/
theorem freqTable_eq_countsOf (txt : List Nat) : freqTable txt = countsOf txt := by
  induction txt using List.reverseRecOn with
  | nil => simp [freqTable, countsOf]
  | append_singleton txt x ih =>
    have hstep : freqTable (txt ++ [x]) = countSymbol x (freqTable txt) := by
      simp [freqTable, List.foldl_append]
    rw [hstep, ih]
    unfold countsOf
    rw [eraseDups_concat]
    by_cases h : x ∈ txt
    · rw [if_pos h, List.append_nil, countSymbol_of_mem (List.mem_eraseDups.2 h) (eraseDups_nodup txt)]
      apply List.map_congr_left
      intro y _
      by_cases hy : y = x
      · subst hy; simp
      · simp [hy, Ne.symm hy]
    · rw [if_neg h, countSymbol_of_not_mem (fun h' => h (List.mem_eraseDups.1 h'))]
      simp only [List.map_append, List.map_cons, List.map_nil]
      have hx : List.count x (txt ++ [x]) = 1 := by simp [List.count_eq_zero.2 h]
      rw [hx]
      congr 1
      apply List.map_congr_left
      intro y hy
      have : y ≠ x := fun e => h (List.mem_eraseDups.1 (e ▸ hy))
      simp [Ne.symm this]

theorem countsOf_length (txt : List Nat) : (countsOf txt).length = txt.eraseDups.length := by simp [countsOf]

theorem countsOf_freq {txt : List Nat} {e : Entry} (h : e ∈ countsOf txt) :
    1 ≤ e.freq ∧ e.freq ≤ txt.length ∧ e.sym ∈ txt := by
  obtain ⟨x, hx, rfl⟩ := List.mem_map.1 h
  rw [List.mem_eraseDups] at hx
  exact ⟨List.count_pos_iff.2 hx, List.count_le_length, hx⟩

/-- The text's length is the sum of its counts (W of R334). -/
theorem totalFreq_countsOf (txt : List Nat) : totalFreq (countsOf txt) = txt.length := by
  have h : txt.eraseDups.Perm txt.dedup :=
    (List.perm_ext_iff_of_nodup (eraseDups_nodup txt) (List.nodup_dedup txt)).2 fun x => by simp
  rw [← List.sum_map_count_dedup_eq_length txt]
  simp only [totalFreq, countsOf, List.map_map]
  exact (h.map _).sum_eq

@[simp] theorem text_length (s : State) : s.text.length = s.sinLen.toNat := by
  simp [State.text, State.sinRead]

/-- A countable text's table meets R61 (R235). -/
theorem tableOk_countsOf {txt : List Nat} (h : Countable txt) (hl : txt.length ≤ 2 ^ 32 - 1) :
    TableOk (countsOf txt) where
  distinct := by rw [countsOf_syms]; exact eraseDups_nodup txt
  scalars := fun e he => by
    have := (countsOf_freq he).2.2
    exact List.all_eq_true.1 h.1 _ this
  counts := fun e he => ⟨(countsOf_freq he).1, (countsOf_freq he).2.1.trans hl⟩
  size := by rw [countsOf_length]; exact h.2

theorem utf8len_sum_le (txt : List Nat) : (txt.map utf8len).sum ≤ 4 * txt.length := by
  induction txt with
  | nil => simp
  | cons x txt ih =>
    have := utf8_length_le x
    simp only [List.map_cons, List.sum_cons, List.length_cons, utf8len] at *
    omega

theorem length_le_utf8len_sum (txt : List Nat) : txt.length ≤ (txt.map utf8len).sum := by
  induction txt with
  | nil => simp
  | cons x txt ih =>
    have := utf8_length_pos x
    simp only [List.map_cons, List.sum_cons, List.length_cons, utf8len] at *
    omega

/-- Everything FT_BUILD can do (R230, R231, R236). -/
theorem ftBuildCmd_cases (s : State) :
    (s.sinLen.toNat ≤ s.cfg.sinCap ∧ Countable s.text ∧
      ftBuildCmd s = .ok { s with
        ft := some (countsOf s.text), tree := none, cb := none
        origBytes := BitVec.ofNat 32 ((s.text.map utf8len).sum) })
    ∨ ((s.cfg.sinCap < s.sinLen.toNat ∨ s.text.all scalar = false) ∧
      ftBuildCmd s = .err .inputUnavailable 0x01 s.clearTables)
    ∨ (s.sinLen.toNat ≤ s.cfg.sinCap ∧ s.text.all scalar = true ∧ 65535 < s.text.eraseDups.length ∧
      ftBuildCmd s = .err .formatLimit 0x01 s.clearTables) := by
  unfold ftBuildCmd
  by_cases h1 : s.cfg.sinCap < s.sinLen.toNat
  · exact .inr (.inl ⟨.inl h1, by rw [if_pos h1]; rfl⟩)
  rw [if_neg h1]
  by_cases h2 : s.text.all scalar = false
  · exact .inr (.inl ⟨.inr h2, by rw [if_pos h2]; rfl⟩)
  rw [if_neg h2, freqTable_eq_countsOf, countsOf_length]
  simp only [Bool.not_eq_false] at h2
  by_cases h3 : 65535 < s.text.eraseDups.length
  · exact .inr (.inr ⟨by omega, h2, h3, by rw [if_pos h3]; rfl⟩)
  rw [if_neg h3]
  have h4 : ((countsOf s.text).any fun e => decide (2 ^ 32 - 1 < e.freq)) = false := by
    rw [List.any_eq_false]
    intro e he
    have := (countsOf_freq he).2.1
    rw [text_length] at this
    have := s.sinLen.isLt
    simp only [decide_eq_true_eq]
    omega
  rw [h4]
  exact .inl ⟨by omega, ⟨h2, by omega⟩, rfl⟩

theorem sum_by_counts (txt : List Nat) (g : Nat → Nat) :
    (txt.map g).sum = (txt.eraseDups.map fun x => txt.count x * g x).sum := by
  rw [Finset.sum_list_map_count, ← List.sum_toFinset _ (eraseDups_nodup txt)]
  have : txt.eraseDups.toFinset = txt.toFinset := by ext x; simp
  rw [this]
  simp

end Sys2Proof.Machine
end

