-- ==== Sys2Proof/Laws/TreeBuild.lean ====
section
/-! SUPPORT. The laws of the merge loop and of the tree it makes. -/

namespace Sys2Proof.Machine
open Sys2Proof

/-! ### The key order (R251) -/

theorem keyLt_iff (a b : QItem) :
    keyLt a b = true ↔ a.freq < b.freq ∨ (a.freq = b.freq ∧ a.seq < b.seq) := by
  simp [keyLt]

theorem keyLt_false_iff (a b : QItem) :
    keyLt a b = false ↔ b.freq < a.freq ∨ (b.freq = a.freq ∧ b.seq ≤ a.seq) := by
  rw [← Bool.not_eq_true, keyLt_iff]; omega

theorem keyLt_trans_false {a b c : QItem} (h1 : keyLt a b = false) (h2 : keyLt b c = false) : keyLt a c = false := by
  rw [keyLt_false_iff] at *; omega

theorem keyLt_asymm {a b : QItem} (h : keyLt a b = true) : keyLt b a = false := by
  rw [keyLt_iff] at h; rw [keyLt_false_iff]; omega

/-! ### Extraction (R252) -/

/-- Extraction takes an element out and leaves the others. -/
theorem extractLeast_perm (x : QItem) (q : List QItem) :
    ((extractLeast x q).1 :: (extractLeast x q).2).Perm (x :: q) := by
  induction q generalizing x with
  | nil => exact .refl _
  | cons y q ih =>
    unfold extractLeast
    split
    · exact (List.Perm.swap _ _ _).trans ((ih y).cons x)
    · exact (List.Perm.swap _ _ _).trans (((ih x).cons y).trans (List.Perm.swap _ _ _))

/-- What is extracted has the least key. -/
theorem extractLeast_least (x : QItem) (q : List QItem) :
    ∀ z ∈ x :: q, keyLt z (extractLeast x q).1 = false := by
  induction q generalizing x with
  | nil => intro z hz; rw [List.mem_singleton] at hz; subst hz; rw [keyLt_false_iff]; simp [extractLeast]
  | cons y q ih =>
    unfold extractLeast
    split
    · rename_i h
      have hy := ih y
      intro z hz
      rcases List.mem_cons.1 hz with rfl | hz
      · exact keyLt_trans_false (keyLt_asymm h) (hy y (by simp))
      · exact hy z hz
    · rename_i h
      have hx := ih x
      intro z hz
      rcases List.mem_cons.1 hz with rfl | hz
      · exact hx z (by simp)
      · rcases List.mem_cons.1 hz with rfl | hz
        · exact keyLt_trans_false (by simpa using h) (hx x (by simp))
        · exact hx z (by simp [hz])

theorem extractLeast_length (x : QItem) (q : List QItem) : (extractLeast x q).2.length = q.length := by
  have := (extractLeast_perm x q).length_eq
  simpa using this

/-- One pass of the merge loop (R254): the least element, the least remaining one, and the node made of them. -/
theorem mergeLoop_pass (n next : Nat) (x y : QItem) (q : List QItem) :
    ∃ a b rest, (a :: b :: rest).Perm (x :: y :: q)
      ∧ (∀ z ∈ b :: rest, keyLt z a = false) ∧ (∀ z ∈ rest, keyLt z b = false)
      ∧ mergeLoop (n + 1) next x (y :: q) = mergeLoop n (next + 1) (mergeItems a b next) rest := by
  have hp := extractLeast_perm x (y :: q)
  have hl := extractLeast_least x (y :: q)
  have hlen := extractLeast_length x (y :: q)
  rcases he : extractLeast x (y :: q) with ⟨a, r⟩
  rw [he] at hp hl hlen
  cases r with
  | nil => simp at hlen
  | cons w r =>
    have hp2 := extractLeast_perm w r
    have hl2 := extractLeast_least w r
    refine ⟨a, (extractLeast w r).1, (extractLeast w r).2, (hp2.cons a).trans hp, ?_, ?_, ?_⟩
    · intro z hz
      exact hl z (hp.subset (List.mem_cons_of_mem _ (hp2.subset hz)))
    · intro z hz
      exact hl2 z (hp2.subset (List.mem_cons_of_mem _ hz))
    · rw [mergeLoop, he]

theorem mergeLoop_single (n next : Nat) (x : QItem) : mergeLoop n next x [] = x.tree := by
  cases n <;> rfl

/-! ### What the loop keeps (R257) -/

/-- A property of queue elements that merging keeps holds of the resulting tree. -/
theorem mergeLoop_induct {P : QItem → Prop} (hm : ∀ a b next, P a → P b → P (mergeItems a b next))
    (n next : Nat) (x : QItem) (q : List QItem) (h : ∀ z ∈ x :: q, P z) :
    ∃ z, P z ∧ mergeLoop n next x q = z.tree := by
  induction n generalizing next x q with
  | zero => exact ⟨x, h x (by simp), rfl⟩
  | succ n ih =>
    cases q with
    | nil => exact ⟨x, h x (by simp), mergeLoop_single _ _ _⟩
    | cons y q =>
      obtain ⟨a, b, rest, hp, -, -, he⟩ := mergeLoop_pass n next x y q
      rw [he]
      apply ih
      intro z hz
      rcases List.mem_cons.1 hz with rfl | hz
      · exact hm _ _ _ (h _ (hp.subset (by simp))) (h _ (hp.subset (by simp)))
      · exact h _ (hp.subset (by simp [hz]))

/-- The loop's tree holds the leaves of the whole queue, and one Node more for each merge. -/
theorem mergeLoop_leaves (n next : Nat) (x : QItem) (q : List QItem) (hq : q.length ≤ n) :
    (leavesOf (mergeLoop n next x q)).Perm ((x :: q).flatMap fun z => leavesOf z.tree)
      ∧ nodeCount (mergeLoop n next x q) = ((x :: q).map fun z => nodeCount z.tree).sum + q.length
      ∧ placeholderCount (mergeLoop n next x q) = ((x :: q).map fun z => placeholderCount z.tree).sum
      ∧ (q ≠ [] → treeFreq (mergeLoop n next x q) = ((x :: q).map QItem.freq).sum) := by
  induction n generalizing next x q with
  | zero =>
    have : q = [] := List.length_eq_zero_iff.1 (by omega)
    subst this
    simp [mergeLoop]
  | succ n ih =>
    cases q with
    | nil => rw [mergeLoop_single]; simp
    | cons y q =>
      obtain ⟨a, b, rest, hp, -, -, he⟩ := mergeLoop_pass n next x y q
      have hlen : rest.length = q.length := by simpa using hp.length_eq
      obtain ⟨h1, h2, h3, h4⟩ := ih (next + 1) (mergeItems a b next) rest (by simp at hq; omega)
      rw [he]
      refine ⟨?_, ?_, ?_, ?_⟩
      · refine h1.trans (List.Perm.trans ?_ (hp.flatMap_right _))
        simp [mergeItems, leavesOf]
      · have := (hp.map fun z => nodeCount z.tree).sum_eq
        rw [h2, ← this]
        simp [mergeItems, nodeCount]
        omega
      · have := (hp.map fun z => placeholderCount z.tree).sum_eq
        rw [h3, ← this]
        simp [mergeItems, placeholderCount]
        omega
      · intro _
        have := (hp.map QItem.freq).sum_eq
        rw [← this]
        cases rest with
        | nil => rw [mergeLoop_single]; simp [mergeItems, treeFreq]
        | cons z rest => rw [h4 (by simp)]; simp [mergeItems]; omega

theorem leafItems_getElem? (i : Nat) (ft : List Entry) (j : Nat) :
    (leafItems i ft)[j]? = ft[j]?.map fun e => ⟨e.freq, i + j, .leaf e.sym e.freq⟩ := by
  induction ft generalizing i j with
  | nil => simp [leafItems]
  | cons e ft ih =>
    cases j with
    | zero => simp [leafItems]
    | succ j =>
      rw [leafItems, List.getElem?_cons_succ, ih, List.getElem?_cons_succ]
      congr 1; funext e; congr 1; omega

theorem leafItems_length (i : Nat) (ft : List Entry) : (leafItems i ft).length = ft.length := by
  induction ft generalizing i with
  | nil => rfl
  | cons e ft ih => simp [leafItems, ih]

theorem leafItems_leaves (i : Nat) (ft : List Entry) :
    ((leafItems i ft).flatMap fun z => leavesOf z.tree) = ft
      ∧ ((leafItems i ft).map fun z => nodeCount z.tree).sum = 0
      ∧ ((leafItems i ft).map fun z => placeholderCount z.tree).sum = 0
      ∧ ((leafItems i ft).map QItem.freq).sum = totalFreq ft := by
  induction ft generalizing i with
  | nil => simp [leafItems, totalFreq]
  | cons e ft ih =>
    obtain ⟨h1, h2, h3, h4⟩ := ih (i + 1)
    refine ⟨?_, ?_, ?_, ?_⟩ <;> simp_all [leafItems, leavesOf, nodeCount, placeholderCount, totalFreq]

theorem leafItems_mem {i : Nat} {ft : List Entry} {z : QItem} (h : z ∈ leafItems i ft) :
    ∃ e : Entry, z.freq = e.freq ∧ z.tree = .leaf e.sym e.freq := by
  induction ft generalizing i with
  | nil => cases h
  | cons e ft ih =>
    rcases List.mem_cons.1 h with rfl | h
    · exact ⟨e, rfl, rfl⟩
    · exact ih h

/-! ### tree(FT) -/

theorem huffmanTree_eq_none {ft : List Entry} : huffmanTree ft = none ↔ ft = [] := by
  rcases ft with _ | ⟨e, _ | ⟨e', t⟩⟩ <;> simp [huffmanTree]

/-- R257 for two entries or more. -/
theorem huffmanTree_shape {ft : List Entry} (h : 2 ≤ ft.length) :
    ∃ t, huffmanTree ft = some t ∧ (leavesOf t).Perm ft ∧ nodeCount t = ft.length - 1 ∧ placeholderCount t = 0
      ∧ sumsHold t = true ∧ treeFreq t = totalFreq ft := by
  rcases ft with _ | ⟨e, _ | ⟨e', r⟩⟩
  · simp at h
  · simp at h
  refine ⟨_, rfl, ?_⟩
  generalize hq : leafItems 1 (e' :: r) = q
  obtain ⟨l1, l2, l3, l4⟩ := leafItems_leaves 1 (e' :: r)
  have llen := leafItems_length 1 (e' :: r)
  rw [hq] at l1 l2 l3 l4 llen
  obtain ⟨h1, h2, h3, h4⟩ := mergeLoop_leaves (e' :: r).length (e :: e' :: r).length
    { freq := e.freq, seq := 0, tree := .leaf e.sym e.freq } q (by omega)
  obtain ⟨z, hz, hze⟩ := mergeLoop_induct (P := fun z => sumsHold z.tree = true ∧ treeFreq z.tree = z.freq)
    (by rintro a b next ⟨ha, ha'⟩ ⟨hb, hb'⟩
        exact ⟨by simp [mergeItems, sumsHold, ha, hb, ha', hb'], rfl⟩)
    (e' :: r).length (e :: e' :: r).length { freq := e.freq, seq := 0, tree := .leaf e.sym e.freq } q (by
      intro z hz
      rcases List.mem_cons.1 hz with rfl | hz
      · simp [sumsHold, treeFreq]
      · rw [← hq] at hz
        obtain ⟨e'', he, ht⟩ := leafItems_mem hz
        simp [ht, he, sumsHold, treeFreq])
  refine ⟨?_, ?_, ?_, ?_, ?_⟩
  · refine h1.trans ?_
    rw [List.flatMap_cons, l1]
    simp [leavesOf]
  · rw [h2, List.map_cons, List.sum_cons, l2, llen]; simp [nodeCount]
  · rw [h3, List.map_cons, List.sum_cons, l3]; simp [placeholderCount]
  · rw [hze]; exact hz.1
  · rw [h4 (by intro hn; rw [hn] at llen; simp at llen), List.map_cons, List.sum_cons, l4]; simp [totalFreq]

/-- The leaves of every tree TREE_BUILD makes are the table's entries, and its Nodes are max(1, |FT| - 1). -/
theorem huffmanTree_leaves {ft : List Entry} {t : HuffTree} (h : huffmanTree ft = some t) :
    (leavesOf t).Perm ft ∧ nodeCount t = max 1 (ft.length - 1) ∧ (∃ l r f, t = .node l r f) := by
  have hroot : ∀ {t : HuffTree}, 1 ≤ nodeCount t → ∃ l r f, t = .node l r f := by
    intro t ht
    cases t with
    | leaf s f => simp [nodeCount] at ht
    | placeholder => simp [nodeCount] at ht
    | node l r f => exact ⟨l, r, f, rfl⟩
  rcases ft with _ | ⟨e, _ | ⟨e', r⟩⟩
  · simp [huffmanTree] at h
  · simp only [huffmanTree, Option.some.injEq] at h
    subst h
    refine ⟨by simp [leavesOf], by simp [nodeCount], _, _, _, rfl⟩
  · obtain ⟨t', ht', h1, h2, -⟩ := huffmanTree_shape (ft := e :: e' :: r) (by simp)
    rw [h] at ht'
    cases ht'
    have : nodeCount t = max 1 ((e :: e' :: r).length - 1) := by rw [h2]; simp
    exact ⟨h1, this, hroot (by rw [this]; exact le_max_left _ _)⟩

theorem keyLt_total {a b : QItem} (h1 : keyLt a b = false) (h2 : keyLt b a = false) : a.seq = b.seq := by
  rw [keyLt_false_iff] at h1 h2
  omega

theorem least_unique {l l' : List QItem} (hp : l.Perm l') (hn : (l.map QItem.seq).Nodup) {a a' : QItem}
    {r r' : List QItem} (h : (a :: r).Perm l) (h' : (a' :: r').Perm l')
    (hm : ∀ z ∈ r, keyLt z a = false) (hm' : ∀ z ∈ r', keyLt z a' = false) : a = a' ∧ r.Perm r' := by
  have h2 : (a :: r).Perm (a' :: r') := h.trans (hp.trans h'.symm)
  have hself : ∀ z : QItem, keyLt z z = false := by intro z; rw [keyLt_false_iff]; omega
  have ha : a ∈ a' :: r' := h2.subset (by simp)
  have ha' : a' ∈ a :: r := h2.symm.subset (by simp)
  have h3 : keyLt a a' = false := by
    rcases List.mem_cons.1 ha with rfl | h
    · exact hself _
    · exact hm' _ h
  have h4 : keyLt a' a = false := by
    rcases List.mem_cons.1 ha' with rfl | h
    · exact hself _
    · exact hm _ h
  have hs := keyLt_total h3 h4
  have : a = a' := List.inj_on_of_nodup_map hn (h.subset (by simp)) (hp.symm.subset (h'.subset (by simp))) hs
  subst this
  exact ⟨rfl, h2.cons_inv⟩

end Sys2Proof.Machine
end

