-- ==== Sys2Proof/Laws/Codebook.lean ====
section
/-! SUPPORT. The laws of the codebook and of encoding, and everything ENCODE can do. -/

namespace Sys2Proof.Machine
open Sys2Proof

@[simp] theorem recordCode_length (sym : Nat) (path : Code) (ft : List Entry) (cs : List Code) :
    (recordCode sym path ft cs).length = cs.length := by
  induction ft generalizing cs with
  | nil => cases cs <;> rfl
  | cons e ft ih => cases cs with
    | nil => rfl
    | cons c cs => simp [recordCode, ih]

@[simp] theorem walkCodes_length (ft : List Entry) (u : HuffTree) (path : Code) (cs : List Code) :
    (walkCodes ft u path cs).length = cs.length := by
  induction u generalizing path cs with
  | leaf s f => simp [walkCodes]
  | placeholder => rfl
  | node l r f ihl ihr => simp [walkCodes, ihl, ihr]

/-- CB has one code per FT entry (R64). -/
@[simp] theorem codesOf_length (t : HuffTree) (ft : List Entry) : (codesOf t ft).length = ft.length := by
  simp [codesOf]

theorem recordCode_getElem? {sym : Nat} {path : Code} {ft : List Entry} {cs : List Code} {j : Nat} {e : Entry} {c : Code}
    (he : ft[j]? = some e) (hc : cs[j]? = some c) :
    (recordCode sym path ft cs)[j]? = some (if e.sym = sym then path else c) := by
  induction ft generalizing cs j with
  | nil => simp at he
  | cons e' ft ih =>
    cases cs with
    | nil => simp at hc
    | cons c' cs =>
      cases j with
      | zero => simp only [List.getElem?_cons_zero, Option.some.injEq] at he hc; subst he hc; simp [recordCode]
      | succ j => rw [recordCode, List.getElem?_cons_succ]; exact ih (by simpa using he) (by simpa using hc)

/-- The walk writes the path to an entry's leaf where the walked tree has one, and keeps the code elsewhere (R281). -/
theorem walkCodes_getElem? {ft : List Entry} {j : Nat} {e : Entry} (he : ft[j]? = some e) (u : HuffTree) (path : Code)
    (cs : List Code) {c : Code} (hc : cs[j]? = some c) :
    ∃ c', (walkCodes ft u path cs)[j]? = some c'
      ∧ (e.sym ∈ (leavesOf u).map Entry.sym → ∃ q g, c' = path ++ q ∧ subtree u q = some (.leaf e.sym g))
      ∧ (e.sym ∉ (leavesOf u).map Entry.sym → c' = c) := by
  induction u generalizing path cs c with
  | leaf s f =>
    refine ⟨_, recordCode_getElem? he hc, ?_, ?_⟩
    · intro h
      simp only [leavesOf, List.map_cons, List.map_nil, List.mem_singleton] at h
      subst h
      exact ⟨[], f, by simp, rfl⟩
    · intro h
      simp only [leavesOf, List.map_cons, List.map_nil, List.mem_singleton] at h
      rw [if_neg h]
  | placeholder => exact ⟨c, hc, by simp [leavesOf], fun _ => rfl⟩
  | node l r f ihl ihr =>
    obtain ⟨c1, h1, h1l, h1n⟩ := ihl (path ++ [false]) cs hc
    obtain ⟨c2, h2, h2r, h2n⟩ := ihr (path ++ [true]) _ h1
    refine ⟨c2, h2, ?_, ?_⟩
    · intro h
      by_cases hr : e.sym ∈ (leavesOf r).map Entry.sym
      · obtain ⟨q, g, hq, hs⟩ := h2r hr
        exact ⟨true :: q, g, by simp [hq], by simpa [subtree] using hs⟩
      · have hl : e.sym ∈ (leavesOf l).map Entry.sym := by
          simp only [leavesOf, List.map_append, List.mem_append] at h
          exact h.resolve_right hr
        obtain ⟨q, g, hq, hs⟩ := h1l hl
        exact ⟨false :: q, g, by rw [h2n hr, hq]; simp, by simpa [subtree] using hs⟩
    · intro h
      simp only [leavesOf, List.map_append, List.mem_append, not_or] at h
      rw [h2n h.2, h1n h.1]

/-- Each code is the path from the root to its entry's leaf (R281, R283). -/
theorem codesOf_path {ft : List Entry} {t : HuffTree} (hd : (ft.map Entry.sym).Nodup) (ht : huffmanTree ft = some t)
    {j : Nat} {e : Entry} (he : ft[j]? = some e) :
    ∃ c, (codesOf t ft)[j]? = some c ∧ subtree t c = some (.leaf e.sym e.freq)
      ∧ 1 ≤ c.length ∧ c.length ≤ max 1 (ft.length - 1) := by
  obtain ⟨hp, hn, l, r, f, hroot⟩ := huffmanTree_leaves ht
  have hj : j < ft.length := (List.getElem?_eq_some_iff.1 he).1
  obtain ⟨c, hc, hin, -⟩ := walkCodes_getElem? he t [] (List.replicate ft.length []) (c := []) (by simp [hj])
  have hmem : e ∈ ft := List.mem_of_getElem? he
  obtain ⟨q, g, hq, hs⟩ := hin ((hp.map Entry.sym).symm.subset (List.mem_map_of_mem hmem))
  rw [List.nil_append] at hq
  subst hq
  have hg : (⟨e.sym, g⟩ : Entry) ∈ ft := hp.subset (subtree_leaf_mem hs)
  have := List.inj_on_of_nodup_map hd hg hmem rfl
  rw [← this] at hs ⊢
  refine ⟨c, hc, hs, ?_, ?_⟩
  · rcases c with _ | ⟨b, c⟩
    · rw [hroot] at hs; simp [subtree] at hs
    · simp
  · rw [← hn]; exact subtree_length_le hs

/-- The codes are prefix-free (R284). -/
theorem codesOf_prefixFree {ft : List Entry} {t : HuffTree} (hd : (ft.map Entry.sym).Nodup)
    (ht : huffmanTree ft = some t) : PrefixFree (codesOf t ft) := by
  intro i j hi hj hij hpre
  rw [codesOf_length] at hi hj
  obtain ⟨ci, hci, hsi, -⟩ := codesOf_path hd ht (List.getElem?_eq_getElem hi)
  obtain ⟨cj, hcj, hsj, -⟩ := codesOf_path hd ht (List.getElem?_eq_getElem hj)
  obtain ⟨hi', hci⟩ := List.getElem?_eq_some_iff.1 hci
  obtain ⟨hj', hcj⟩ := List.getElem?_eq_some_iff.1 hcj
  obtain ⟨q, hq⟩ := hpre
  rw [hci, hcj] at hq
  rw [← hq, subtree_append, hsi] at hsj
  cases q with
  | nil =>
    simp only [Option.bind_some, subtree, Option.some.injEq, HuffTree.leaf.injEq] at hsj
    have h2 := List.nodup_iff_injective_get.1 hd
    have := @h2 ⟨i, by simpa using hi⟩ ⟨j, by simpa using hj⟩ (by simpa using hsj.1)
    exact hij (by simpa using this)
  | cons b q => simp [subtree] at hsj

/-! ### ENCODE -/

/-- The code of a symbol is the one at its place in FT; a symbol with no entry has none (R290). -/
theorem codeFor_eq (ft : List Entry) (cs : List Code) (x : Nat) :
    codeFor ft cs x =
      if ∃ e ∈ ft, e.sym = x then some (cs.getD (ft.findIdx fun e => e.sym == x) []) else none := by
  induction ft generalizing cs with
  | nil => simp [codeFor]
  | cons e ft ih =>
    by_cases h : e.sym = x
    · rw [codeFor, if_pos h, if_pos ⟨e, by simp, h⟩]
      cases cs <;> simp [List.findIdx_cons, h]
    · rw [codeFor, if_neg h, ih]
      have : (∃ e' ∈ e :: ft, e'.sym = x) ↔ ∃ e' ∈ ft, e'.sym = x := by simp [h]
      simp only [this]
      have hb : (e.sym == x) = false := by simp [h]
      congr 2
      cases cs <;> simp [List.findIdx_cons, hb]

theorem encodeText_some {ft : List Entry} {cs : List Code} {txt : List Nat}
    (h : ∀ x ∈ txt, ∃ e ∈ ft, e.sym = x) : encodeText ft cs txt = some (codeBits ft cs txt) := by
  induction txt with
  | nil => rfl
  | cons x txt ih =>
    have h1 := h x (by simp)
    have h2 := ih fun y hy => h y (by simp [hy])
    rw [encodeText, codeFor_eq, if_pos h1, h2]
    simp [codeBits]

theorem encodeText_none {ft : List Entry} {cs : List Code} {txt : List Nat}
    (h : ∃ x ∈ txt, ∀ e ∈ ft, e.sym ≠ x) : encodeText ft cs txt = none := by
  induction txt with
  | nil => obtain ⟨x, hx, -⟩ := h; cases hx
  | cons y txt ih =>
    rw [encodeText, codeFor_eq]
    by_cases hy : ∃ e ∈ ft, e.sym = y
    · rw [if_pos hy]
      obtain ⟨x, hx, hn⟩ := h
      rcases List.mem_cons.1 hx with rfl | hx
      · obtain ⟨e, he, hs⟩ := hy; exact absurd hs (hn e he)
      · rw [ih ⟨x, hx, hn⟩]
    · rw [if_neg hy]

/-- Everything ENCODE can do (R290 to R292). -/
theorem encodeCmd_cases (s : State) :
    (s.cb = none ∧ encodeCmd s = .err .sequence 0x04 s)
    ∨ ∃ cs, s.cb = some cs ∧
      ((s.sinLen.toNat ≤ s.cfg.sinCap ∧ (∀ x ∈ s.text, ∃ e ∈ s.ftEntries, e.sym = x)
          ∧ (codeBits s.ftEntries cs s.text).length ≤ 8 * s.cfg.cbufCap
          ∧ encodeCmd s = .ok { s with bits := some (codeBits s.ftEntries cs s.text) })
        ∨ (s.cfg.sinCap < s.sinLen.toNat ∧ encodeCmd s = .err .inputUnavailable 0x04 { s with bits := none })
        ∨ (s.sinLen.toNat ≤ s.cfg.sinCap ∧ (∃ x ∈ s.text, ∀ e ∈ s.ftEntries, e.sym ≠ x)
          ∧ encodeCmd s = .err .unknownSymbol 0x04 { s with bits := none })
        ∨ (s.sinLen.toNat ≤ s.cfg.sinCap ∧ (∀ x ∈ s.text, ∃ e ∈ s.ftEntries, e.sym = x)
          ∧ 8 * s.cfg.cbufCap < (codeBits s.ftEntries cs s.text).length
          ∧ encodeCmd s = .err .outputWrite 0x04 { s with bits := none })) := by
  cases hcb : s.cb with
  | none => exact .inl ⟨rfl, by simp only [encodeCmd, hcb]; rfl⟩
  | some cs =>
    refine .inr ⟨cs, rfl, ?_⟩
    simp only [encodeCmd, hcb]
    by_cases h1 : s.cfg.sinCap < s.sinLen.toNat
    · exact .inr (.inl ⟨h1, by rw [if_pos h1]; rfl⟩)
    rw [if_neg h1]
    by_cases h2 : ∀ x ∈ s.text, ∃ e ∈ s.ftEntries, e.sym = x
    · rw [encodeText_some h2]
      by_cases h3 : 8 * s.cfg.cbufCap < (codeBits s.ftEntries cs s.text).length
      · exact .inr (.inr (.inr ⟨by omega, h2, h3, by simp only [if_pos h3]; rfl⟩))
      · exact .inl ⟨by omega, h2, by omega, by simp only [if_neg h3]⟩
    · have h2' : ∃ x ∈ s.text, ∀ e ∈ s.ftEntries, e.sym ≠ x := by push Not at h2; exact h2
      rw [encodeText_none h2']
      exact .inr (.inr (.inl ⟨by omega, h2', rfl⟩))

/-- The encoded text of a table's own codebook is a list of codes of the tree, symbol by symbol (R336). -/
theorem codeBits_paths {ft : List Entry} {t : HuffTree} (hd : (ft.map Entry.sym).Nodup) (ht : huffmanTree ft = some t)
    {txt : List Nat} (hk : ∀ x ∈ txt, ∃ e ∈ ft, e.sym = x) :
    ∃ p, PathsOf t p ∧ p.map Prod.fst = txt ∧ (p.map Prod.snd).flatten = codeBits ft (codesOf t ft) txt := by
  refine ⟨txt.map fun x => (x, (codesOf t ft).getD (ft.findIdx fun e => e.sym == x) []), ?_, ?_, ?_⟩
  · intro q hq
    obtain ⟨x, hx, rfl⟩ := List.mem_map.1 hq
    obtain ⟨e, he, hs⟩ := hk x hx
    have hlt : (ft.findIdx fun e => e.sym == x) < ft.length := List.findIdx_lt_length_of_exists ⟨e, he, by simp [hs]⟩
    have hsym : ft[ft.findIdx fun e => e.sym == x].sym = x := by
      have := List.findIdx_getElem (w := hlt); simpa using this
    obtain ⟨c, hc, hsub, hpos, -⟩ := codesOf_path hd ht (List.getElem?_eq_getElem hlt)
    have hget : (codesOf t ft).getD (ft.findIdx fun e => e.sym == x) [] = c := by
      rw [List.getD_eq_getElem?_getD, hc]; rfl
    rw [hsym] at hsub
    simp only [hget]
    exact ⟨by rintro rfl; simp at hpos, _, hsub⟩
  · simp [Function.comp_def]
  · simp [codeBits, Function.comp_def]

end Sys2Proof.Machine
end

