-- ==== Sys2Proof/Laws/Container.lean ====
section
/-! SUPPORT. The laws of parsing a container, and everything SERIALIZE and DESERIALIZE can do. -/

namespace Sys2Proof.Machine
open Sys2Proof

/-- Parsing the entries of a table after the table `t₀` gives both, and the bytes after them (R359). -/
theorem parseEntries_entries (t₀ t : List Entry) (p : List Byte)
    (hs : ∀ e ∈ t, scalar e.sym = true) (hf : ∀ e ∈ t, 1 ≤ e.freq ∧ e.freq ≤ 2 ^ 32 - 1)
    (hd : ((t₀ ++ t).map Entry.sym).Nodup) :
    parseEntries t.length t₀ (t.flatMap entryBytes ++ p) = some (t₀ ++ t, p) := by
  induction t generalizing t₀ with
  | nil => simp [parseEntries]
  | cons e t ih =>
    have hse := hs e (by simp)
    have hfe := hf e (by simp)
    have hlen : (BitVec.ofNat 8 (utf8 e.sym).length : Byte).toNat = (utf8 e.sym).length := by
      have := utf8_length_le e.sym
      rw [BitVec.toNat_ofNat]; omega
    have hany : (t₀.any fun e' => e'.sym == e.sym) = false := by
      rw [List.any_eq_false]
      intro e' he'
      rw [List.map_append, List.nodup_append] at hd
      have := hd.2.2 e'.sym (List.mem_map_of_mem he') e.sym (by simp)
      simpa using this
    rw [List.flatMap_cons, entryBytes_eq, List.length_cons]
    simp only [List.cons_append, List.append_assoc, parseEntries, hlen]
    rw [if_neg (by simp), List.take_left, List.drop_left, unutf8_eq_some.2 ⟨hse, rfl⟩]
    simp only [be32, List.cons_append, List.nil_append]
    rw [unbe32_be32 (by omega), if_neg (by omega), hany]
    simp only [Bool.false_eq_true, if_false]
    rw [ih _ (fun e' h => hs e' (by simp [h])) (fun e' h => hf e' (by simp [h])) (by simpa using hd)]
    simp

/-- A parse that succeeds found exactly the entries of a table, and left the bytes after them (R356, R357). -/
theorem parseEntries_sound {k : Nat} {t₀ t : List Entry} {b p : List Byte} (h : parseEntries k t₀ b = some (t, p)) :
    ∃ t₁, t = t₀ ++ t₁ ∧ t₁.length = k ∧ b = t₁.flatMap entryBytes ++ p
      ∧ ((t₀.map Entry.sym).Nodup → (t.map Entry.sym).Nodup)
      ∧ ∀ e ∈ t₁, scalar e.sym = true ∧ 1 ≤ e.freq ∧ e.freq ≤ 2 ^ 32 - 1 := by
  induction k generalizing t₀ b with
  | zero =>
    simp only [parseEntries, Option.some.injEq, Prod.mk.injEq] at h
    obtain ⟨rfl, rfl⟩ := h
    exact ⟨[], by simp⟩
  | succ k ih =>
    cases b with
    | nil => simp [parseEntries] at h
    | cons n b =>
      simp only [parseEntries] at h
      split_ifs at h with hn
      cases hu : unutf8 (b.take n.toNat) with
      | none => simp [hu] at h
      | some x =>
        rw [hu] at h
        simp only at h
        split at h
        · rename_i b0 b1 b2 b3 rest hdrop
          split_ifs at h with hz hany
          obtain ⟨t₁, rfl, hl, hb, hnd, hall⟩ := ih h
          obtain ⟨hsx, hux⟩ := unutf8_eq_some.1 hu
          have hlt := unbe32_lt b0 b1 b2 b3
          refine ⟨⟨x, unbe32 b0 b1 b2 b3⟩ :: t₁, by simp, by simp [hl], ?_, ?_, ?_⟩
          · have hlen : (utf8 x).length = n.toNat := by
              rw [hux, List.length_take]; omega
            have hn8 : BitVec.ofNat 8 (utf8 x).length = n := by
              rw [hlen]; simp
            rw [List.flatMap_cons, entryBytes_eq, hn8, be32_unbe32, hux]
            simp only [List.cons_append, List.nil_append, List.append_assoc]
            rw [← hb, ← hdrop, List.take_append_drop]
          · intro hnd0
            apply hnd
            rw [List.map_append, List.nodup_append]
            refine ⟨hnd0, by simp, ?_⟩
            intro a ha c hc hac
            subst hac
            simp only [List.map_cons, List.map_nil, List.mem_singleton] at hc
            obtain ⟨e, he, rfl⟩ := List.mem_map.1 ha
            apply hany
            rw [List.any_eq_true]
            exact ⟨e, he, by simpa using hc⟩
          · intro e he
            rcases List.mem_cons.1 he with rfl | he
            · exact ⟨hsx, by simp only; omega, by simp only; omega⟩
            · exact hall e he
        · cases h

/-- DESERIALIZE of a container gives its table and packed section back (R359). -/
theorem parseContainer_container {ft : List Entry} (h : TableOk ft) (p : List Byte) :
    parseContainer (container ft p) = some (ft, p) := by
  have hk : unbe16 (BitVec.ofNat 8 (ft.length / 2 ^ 8)) (BitVec.ofNat 8 ft.length) = ft.length :=
    unbe16_be16 (by have := h.size; omega)
  simp only [container, be16, List.cons_append, List.nil_append, parseContainer, hk]
  simpa using parseEntries_entries [] ft p h.scalars h.counts (by simpa using h.distinct)

/-- A byte string that parses is the container of a table that meets R61. -/
theorem parseContainer_sound {b p : List Byte} {ft : List Entry} (h : parseContainer b = some (ft, p)) :
    TableOk ft ∧ b = container ft p := by
  match b, h with
  | b0 :: b1 :: rest, h =>
    obtain ⟨t₁, rfl, hl, hb, hnd, hall⟩ := parseEntries_sound h
    have hlt := unbe16_lt b0 b1
    refine ⟨⟨hnd (by simp), fun e he => (hall e he).1, fun e he => (hall e he).2, by omega⟩, ?_⟩
    rw [container, hl, be16_unbe16, hb]
    simp
  | [], h => simp [parseContainer] at h
  | [_], h => simp [parseContainer] at h

@[simp] theorem cbufRead_length (s : State) (a n : Nat) : (s.cbufRead a n).length = n := by simp [State.cbufRead]

/-- Everything DESERIALIZE can do (R354 to R358). -/
theorem deserializeCmd_cases (s : State) :
    (s.cfg.cbufCap < s.cbufLen.toNat ∧ deserializeCmd s = .err .inputUnavailable 0x07 s.clearParsed)
    ∨ (s.cbufLen.toNat ≤ s.cfg.cbufCap ∧ (¬ ∃ ft p, TableOk ft ∧ s.cbufRead 0 s.cbufLen.toNat = container ft p)
      ∧ deserializeCmd s = .err .corruptStream 0x07 s.clearParsed)
    ∨ (s.cbufLen.toNat ≤ s.cfg.cbufCap ∧ ∃ ft p, TableOk ft ∧ s.cbufRead 0 s.cbufLen.toNat = container ft p
      ∧ deserializeCmd s = .ok { s with ft := some ft, pk := some p, tree := none, cb := none }) := by
  unfold deserializeCmd
  by_cases h1 : s.cfg.cbufCap < s.cbufLen.toNat
  · exact .inl ⟨h1, by rw [if_pos h1]; rfl⟩
  rw [if_neg h1]
  cases h2 : parseContainer (s.cbufRead 0 s.cbufLen.toNat) with
  | none =>
    refine .inr (.inl ⟨by omega, ?_, rfl⟩)
    rintro ⟨ft, p, hok, heq⟩
    rw [heq, parseContainer_container hok] at h2
    cases h2
  | some r =>
    obtain ⟨ft, p⟩ := r
    obtain ⟨hok, heq⟩ := parseContainer_sound h2
    exact .inr (.inr ⟨by omega, ft, p, hok, heq, rfl⟩)

/-- Everything SERIALIZE can do (R350, R352, R353). -/
theorem serializeCmd_cases (s : State) :
    ((s.ft = none ∨ s.pk = none) ∧ serializeCmd s = .err .sequence 0x06 s)
    ∨ ∃ ft pk, s.ft = some ft ∧ s.pk = some pk ∧
      ((ft = [] ∧ serializeCmd s = .err .emptyInput 0x06 s)
        ∨ (ft ≠ [] ∧ 65535 < ft.length ∧ serializeCmd s = .err .formatLimit 0x06 s)
        ∨ (ft ≠ [] ∧ ft.length ≤ 65535 ∧ s.cfg.cbufCap < (container ft pk).length
          ∧ serializeCmd s = .err .outputWrite 0x06 s)
        ∨ (ft ≠ [] ∧ ft.length ≤ 65535 ∧ (container ft pk).length ≤ s.cfg.cbufCap
          ∧ serializeCmd s = .ok { s with
              cbuf := Memory.writeList s.cbuf 0 (container ft pk)
              cbufLen := BitVec.ofNat 32 (container ft pk).length
              compBytes := BitVec.ofNat 32 (container ft pk).length })) := by
  cases hft : s.ft with
  | none => exact .inl ⟨.inl rfl, by simp only [serializeCmd, hft]; rfl⟩
  | some ft =>
    cases hpk : s.pk with
    | none => exact .inl ⟨.inr rfl, by simp only [serializeCmd, hft, hpk]; rfl⟩
    | some pk =>
      refine .inr ⟨ft, pk, rfl, rfl, ?_⟩
      simp only [serializeCmd, hft, hpk, List.length_eq_zero_iff]
      by_cases h1 : ft = []
      · exact .inl ⟨h1, by rw [if_pos h1]; rfl⟩
      rw [if_neg h1]
      by_cases h2 : 65535 < ft.length
      · exact .inr (.inl ⟨h1, h2, by rw [if_pos h2]; rfl⟩)
      rw [if_neg h2]
      by_cases h3 : s.cfg.cbufCap < (container ft pk).length
      · exact .inr (.inr (.inl ⟨h1, by omega, h3, by rw [if_pos h3]; rfl⟩))
      · exact .inr (.inr (.inr ⟨h1, by omega, by omega, by rw [if_neg h3]⟩))

end Sys2Proof.Machine
end

