-- ==== Sys2Proof/Laws/Memory.lean ====
section
/-! SUPPORT. The laws of the buffers: a read after a write, every write keeps the canonical form and
the capacity. -/

namespace Sys2Proof.Machine
open Sys2Proof

variable {α : Type}

@[simp] theorem Memory.read?_nil (a : Nat) : Memory.read? ([] : Memory α) a = none := rfl

theorem Memory.read?_cons (k : Nat) (x : α) (m : Memory α) (a : Nat) :
    Memory.read? ((k, x) :: m) a = if k = a then some x else Memory.read? m a := rfl

theorem Memory.read?_below {lo : Nat} {m : Memory α} (h : Memory.risingFrom lo m = true) {a : Nat} (ha : a < lo) :
    Memory.read? m a = none := by
  induction m generalizing lo with
  | nil => rfl
  | cons c m ih =>
    obtain ⟨k, x⟩ := c
    simp only [Memory.risingFrom, Bool.and_eq_true, decide_eq_true_eq] at h
    rw [Memory.read?_cons, if_neg (by omega), ih h.2 (by omega)]

/-- A read after a write: the written element at its index, every other index as before. -/
theorem Memory.read?_write (m : Memory α) (a : Nat) (v : α) (b : Nat) :
    Memory.read? (Memory.write m a v) b = if b = a then some v else Memory.read? m b := by
  induction m with
  | nil => simp [Memory.write, Memory.read?_cons, eq_comm]
  | cons c m ih =>
    obtain ⟨k, x⟩ := c
    unfold Memory.write
    split
    · simp only [Memory.read?_cons]
      grind
    · split
      · simp only [Memory.read?_cons]
        grind
      · simp only [Memory.read?_cons, ih]
        grind

theorem Memory.risingFrom_write {lo : Nat} {m : Memory α} (h : Memory.risingFrom lo m = true) {a : Nat} (ha : lo ≤ a)
    (v : α) : Memory.risingFrom lo (Memory.write m a v) = true := by
  induction m generalizing lo with
  | nil => simp [Memory.write, Memory.risingFrom, ha]
  | cons c m ih =>
    obtain ⟨k, x⟩ := c
    simp only [Memory.risingFrom, Bool.and_eq_true, decide_eq_true_eq] at h
    unfold Memory.write
    split
    · simp [Memory.risingFrom, h]; omega
    · split
      · subst_vars; simp [Memory.risingFrom, h]
      · simp only [Memory.risingFrom, Bool.and_eq_true, decide_eq_true_eq]
        exact ⟨h.1, ih h.2 (by omega)⟩

/-- A write keeps the canonical form. -/
theorem Memory.wf_write {m : Memory α} (h : Memory.wf m = true) (a : Nat) (v : α) :
    Memory.wf (Memory.write m a v) = true := Memory.risingFrom_write h (Nat.zero_le a) v

/-- A write inside the capacity keeps the listed indices inside it. -/
theorem Memory.within_write {cap : Nat} {m : Memory α} (h : Memory.within cap m = true) {a : Nat} (ha : a < cap)
    (v : α) : Memory.within cap (Memory.write m a v) = true := by
  induction m with
  | nil => simpa [Memory.write, Memory.within] using ha
  | cons c m ih =>
    obtain ⟨k, x⟩ := c
    simp only [Memory.within, List.all_cons, Bool.and_eq_true, decide_eq_true_eq] at h
    unfold Memory.write
    split
    · simpa [Memory.within] using ⟨ha, h.1, by simpa using h.2⟩
    · split
      · simpa [Memory.within] using ⟨ha, by simpa using h.2⟩
      · have := ih h.2
        simp only [Memory.within, List.all_cons, Bool.and_eq_true, decide_eq_true_eq] at this ⊢
        exact ⟨h.1, this⟩

/-- A read after a write of a list: the list at its indices, every other index as before. -/
theorem Memory.read?_writeList (m : Memory α) (a : Nat) (vs : List α) (b : Nat) :
    Memory.read? (Memory.writeList m a vs) b
      = if a ≤ b ∧ b < a + vs.length then vs[b - a]? else Memory.read? m b := by
  induction vs generalizing m a with
  | nil => simp [Memory.writeList]
  | cons v vs ih =>
    rw [Memory.writeList, ih, Memory.read?_write]
    simp only [List.length_cons]
    by_cases h1 : b = a
    · subst h1
      rw [if_neg (by omega), if_pos rfl, if_pos (by omega)]
      simp
    · by_cases h2 : a + 1 ≤ b ∧ b < a + 1 + vs.length
      · rw [if_pos h2, if_pos (by omega)]
        have : b - a = (b - (a + 1)) + 1 := by omega
        rw [this, List.getElem?_cons_succ]
      · rw [if_neg h2, if_neg h1, if_neg (by omega)]

theorem Memory.wf_writeList {m : Memory α} (h : Memory.wf m = true) (a : Nat) (vs : List α) :
    Memory.wf (Memory.writeList m a vs) = true := by
  induction vs generalizing m a with
  | nil => exact h
  | cons v vs ih => exact ih (Memory.wf_write h a v) _

theorem Memory.within_writeList {cap : Nat} {m : Memory α} (h : Memory.within cap m = true) {a : Nat} {vs : List α}
    (ha : a + vs.length ≤ cap) : Memory.within cap (Memory.writeList m a vs) = true := by
  induction vs generalizing m a with
  | nil => exact h
  | cons v vs ih =>
    simp only [List.length_cons] at ha
    exact ih (Memory.within_write h (by omega) v) (by omega)

/-- After a successful write of the bytes `bs` at CBUF[0 ..), reading as many gives them back. -/
theorem cbufRead_writeList (s : State) (bs : List Byte) :
    State.cbufRead { s with cbuf := Memory.writeList s.cbuf 0 bs } 0 bs.length = bs := by
  apply List.ext_getElem
  · simp [State.cbufRead]
  · intro i h1 h2
    simp only [State.cbufRead, List.getElem_map, List.getElem_range, State.cbufAt, Memory.read?_writeList]
    rw [if_pos (by omega)]
    simp [h2]

/-- Beyond the bytes written CBUF reads as before. -/
theorem cbufAt_writeList_beyond (s : State) (bs : List Byte) {a : Nat} (ha : bs.length ≤ a) :
    State.cbufAt { s with cbuf := Memory.writeList s.cbuf 0 bs } a = s.cbufAt a := by
  simp only [State.cbufAt, Memory.read?_writeList]
  rw [if_neg (by omega)]

end Sys2Proof.Machine
end

