-- ==== Sys2Proof/Laws/Commands.lean ====
section
/-! SUPPORT. Everything the other step commands and the composites can do: one lemma per command,
which a proof cites instead of unfolding it. -/

namespace Sys2Proof.Machine
open Sys2Proof

/-- Everything TREE_BUILD can do (R250, R255). -/
theorem treeBuildCmd_cases (s : State) :
    (s.ft = none ∧ treeBuildCmd s = .err .sequence 0x02 s)
    ∨ (s.ft = some [] ∧ treeBuildCmd s = .err .emptyInput 0x02 { s with tree := none, cb := none })
    ∨ ∃ ft t, s.ft = some ft ∧ ft ≠ [] ∧ huffmanTree ft = some t
      ∧ treeBuildCmd s = .ok { s with tree := some t, cb := none } := by
  cases hft : s.ft with
  | none => exact .inl ⟨rfl, by simp only [treeBuildCmd, hft]; rfl⟩
  | some ft =>
    cases ht : huffmanTree ft with
    | none =>
      have := huffmanTree_eq_none.1 ht
      subst this
      exact .inr (.inl ⟨rfl, by simp only [treeBuildCmd, hft, ht]; rfl⟩)
    | some t =>
      refine .inr (.inr ⟨ft, t, rfl, ?_, ht, by simp only [treeBuildCmd, hft, ht]⟩)
      rintro rfl
      simp [huffmanTree] at ht

/-- Everything CB_GEN can do (R280). -/
theorem cbGenCmd_cases (s : State) :
    (s.tree = none ∧ cbGenCmd s = .err .sequence 0x03 s)
    ∨ ∃ t, s.tree = some t ∧ cbGenCmd s = .ok { s with cb := some (codesOf t s.ftEntries) } := by
  cases ht : s.tree with
  | none => exact .inl ⟨rfl, by simp only [cbGenCmd, ht]; rfl⟩
  | some t => exact .inr ⟨t, rfl, by simp only [cbGenCmd, ht]⟩

/-- Everything PACK can do (R310, R312). -/
theorem packCmd_cases (s : State) :
    (s.bits = none ∧ packCmd s = .err .sequence 0x05 s)
    ∨ ∃ b, s.bits = some b ∧
      ((s.cfg.cbufCap < 1 + (b.length + 7) / 8 ∧ packCmd s = .err .outputWrite 0x05 { s with pk := none })
        ∨ (1 + (b.length + 7) / 8 ≤ s.cfg.cbufCap ∧ packCmd s = .ok { s with pk := some (packed b) })) := by
  cases hb : s.bits with
  | none => exact .inl ⟨rfl, by simp only [packCmd, hb]; rfl⟩
  | some b =>
    refine .inr ⟨b, rfl, ?_⟩
    simp only [packCmd, hb, packed_length]
    by_cases h : s.cfg.cbufCap < 1 + (b.length + 7) / 8
    · exact .inl ⟨h, by rw [if_pos h]; rfl⟩
    · exact .inr ⟨by omega, by rw [if_neg h]⟩

/-- Everything UNPACK can do (R320). -/
theorem unpackCmd_cases (s : State) :
    (s.pk = none ∧ unpackCmd s = .err .sequence 0x08 s)
    ∨ ∃ pk, s.pk = some pk ∧
      ((unpackBits pk = none ∧ unpackCmd s = .err .malformedBuffer 0x08 { s with bits := none })
        ∨ ∃ b, unpackBits pk = some b ∧ unpackCmd s = .ok { s with bits := some b }) := by
  cases hp : s.pk with
  | none => exact .inl ⟨rfl, by simp only [unpackCmd, hp]; rfl⟩
  | some pk =>
    refine .inr ⟨pk, rfl, ?_⟩
    simp only [unpackCmd, hp]
    cases hb : unpackBits pk with
    | none => exact .inl ⟨rfl, rfl⟩
    | some b => exact .inr ⟨b, rfl, rfl⟩

/-- Everything DECODE can do (R330 to R335). -/
theorem decodeCmd_cases (s : State) :
    ((s.tree = none ∨ s.bits = none) ∧ decodeCmd s = .err .sequence 0x09 s)
    ∨ ∃ t b, s.tree = some t ∧ s.bits = some b ∧
      ((decodeWalk t [] b = none ∧ decodeCmd s = .err .corruptStream 0x09 { s with sout := [] })
        ∨ ∃ out, decodeWalk t [] b = some out ∧
          ((out.length ≠ totalFreq s.ftEntries ∧ decodeCmd s = .err .corruptStream 0x09 { s with sout := [] })
            ∨ (out.length = totalFreq s.ftEntries ∧ s.cfg.soutCap < out.length
              ∧ decodeCmd s = .err .outputWrite 0x09 { s with sout := [] })
            ∨ (out.length = totalFreq s.ftEntries ∧ out.length ≤ s.cfg.soutCap
              ∧ decodeCmd s = .ok { s with sout := out }))) := by
  cases ht : s.tree with
  | none => exact .inl ⟨.inl rfl, by simp only [decodeCmd, ht]; rfl⟩
  | some t =>
    cases hb : s.bits with
    | none => exact .inl ⟨.inr rfl, by simp only [decodeCmd, ht, hb]; rfl⟩
    | some b =>
      refine .inr ⟨t, b, rfl, rfl, ?_⟩
      simp only [decodeCmd, ht, hb]
      cases hw : decodeWalk t [] b with
      | none => exact .inl ⟨rfl, rfl⟩
      | some out =>
        refine .inr ⟨out, rfl, ?_⟩
        simp only
        by_cases h1 : out.length ≠ totalFreq s.ftEntries
        · exact .inl ⟨h1, by rw [if_pos h1]; rfl⟩
        rw [if_neg h1]
        simp only [ne_eq, not_not] at h1
        by_cases h2 : s.cfg.soutCap < out.length
        · exact .inr (.inl ⟨h1, h2, by rw [if_pos h2]; rfl⟩)
        · exact .inr (.inr ⟨h1, by omega, by rw [if_neg h2]⟩)

/-! ### Sequencing (R361) -/

theorem runSequence_ok {c : State → CmdResult} {cs : List (State → CmdResult)} {s s' : State} (h : c s = .ok s') :
    runSequence (c :: cs) s = runSequence cs s' := by simp [runSequence, h]

theorem runSequence_err {c : State → CmdResult} {cs : List (State → CmdResult)} {s s' : State} {e : ErrorCode}
    {st : Byte} (h : c s = .err e st s') : runSequence (c :: cs) s = .err e st s' := by simp [runSequence, h]

theorem runSequence_nil (s : State) : runSequence [] s = .ok s := rfl

/-- What COMPRESS makes of a countable, non-empty text, up to the buffers' limits: the stores it would fill. -/
structure CompressPlan (s : State) (t : HuffTree) (b : List Bool) : Prop where
  fits    : s.sinLen.toNat ≤ s.cfg.sinCap
  text    : Countable s.text
  tree    : huffmanTree (countsOf s.text) = some t
  stream  : b = codeBits (countsOf s.text) (codesOf t (countsOf s.text)) s.text

/-- The state COMPRESS leaves when its container fits (R360). -/
def compressedState (s : State) (t : HuffTree) (b : List Bool) : State :=
  { s with
    ft := some (countsOf s.text), tree := some t, cb := some (codesOf t (countsOf s.text)), bits := some b
    pk := some (packed b), origBytes := BitVec.ofNat 32 ((s.text.map utf8len).sum)
    cbuf := Memory.writeList s.cbuf 0 (container (countsOf s.text) (packed b))
    cbufLen := BitVec.ofNat 32 (container (countsOf s.text) (packed b)).length
    compBytes := BitVec.ofNat 32 (container (countsOf s.text) (packed b)).length }

/-- The step of COMPRESS that finds a stream `b` too long, or its section, or else the container (R360, R363). -/
def overflowStep (cap : Nat) (b : List Bool) : Byte :=
  if 8 * cap < b.length then 0x04 else if cap < 1 + (b.length + 7) / 8 then 0x05 else 0x06

theorem text_congr {s t : State} (h1 : t.sin = s.sin) (h2 : t.sinLen = s.sinLen) (h3 : t.epoch = s.epoch) :
    t.text = s.text := by
  simp only [State.text, State.sinRead, State.sinAt, h1, h2, h3]

theorem countsOf_known (txt : List Nat) : ∀ x ∈ txt, ∃ e ∈ countsOf txt, e.sym = x := by
  intro x hx
  exact ⟨⟨x, txt.count x⟩, List.mem_map.2 ⟨x, List.mem_eraseDups.2 hx, rfl⟩, rfl⟩

/-- Everything COMPRESS can do (R360, R361, R363): an error of FT_BUILD, of TREE_BUILD on the empty text, or a text with
a plan, whose container fits or whose stream, section or container is too long. -/
theorem compressCmd_cases (s : State) :
    ((s.cfg.sinCap < s.sinLen.toNat ∨ s.text.all scalar = false)
      ∧ compressCmd s = .err .inputUnavailable 0x01 s.clearTables)
    ∨ (s.sinLen.toNat ≤ s.cfg.sinCap ∧ s.text.all scalar = true ∧ 65535 < s.text.eraseDups.length
      ∧ compressCmd s = .err .formatLimit 0x01 s.clearTables)
    ∨ (s.sinLen.toNat ≤ s.cfg.sinCap ∧ s.text = []
      ∧ compressCmd s = .err .emptyInput 0x02
        { s with ft := some [], tree := none, cb := none, origBytes := 0 })
    ∨ ∃ t b, CompressPlan s t b ∧
      (((container (countsOf s.text) (packed b)).length ≤ s.cfg.cbufCap
          ∧ compressCmd s = .ok (compressedState s t b))
        ∨ (s.cfg.cbufCap < (container (countsOf s.text) (packed b)).length ∧
          ∃ bits' pk', compressCmd s = .err .outputWrite (overflowStep s.cfg.cbufCap b) { s with
            ft := some (countsOf s.text), tree := some t, cb := some (codesOf t (countsOf s.text))
            origBytes := BitVec.ofNat 32 ((s.text.map utf8len).sum), bits := bits', pk := pk' })) := by
  unfold compressCmd
  rcases ftBuildCmd_cases s with ⟨h1, h2, he⟩ | ⟨h1, he⟩ | ⟨h1, h2, h3, he⟩
  rotate_left
  · exact .inl ⟨h1, runSequence_err he⟩
  · exact .inr (.inl ⟨h1, h2, h3, runSequence_err he⟩)
  rw [runSequence_ok he]
  refine .inr (.inr ?_)
  generalize hs1 : ({ s with
    ft := some (countsOf s.text), tree := none, cb := none
    origBytes := BitVec.ofNat 32 ((s.text.map utf8len).sum) } : State) = s1
  rcases treeBuildCmd_cases s1 with ⟨hn, -⟩ | ⟨hn, he⟩ | ⟨ft, t, hft, hne, ht, he⟩
  · rw [← hs1] at hn; cases hn
  · have h0 : s.text = [] := by
      rw [← hs1] at hn
      have : countsOf s.text = [] := by simpa using hn
      have := congrArg List.length this
      rw [countsOf_length, List.length_nil, List.length_eq_zero_iff] at this
      cases htx : s.text with
      | nil => rfl
      | cons x xs =>
        have hx : x ∈ s.text.eraseDups := List.mem_eraseDups.2 (by rw [htx]; simp)
        rw [this] at hx; cases hx
    refine .inl ⟨h1, h0, ?_⟩
    rw [runSequence_err he, ← hs1]
    simp [h0, countsOf]
  · have hft' : ft = countsOf s.text := by rw [← hs1] at hft; simpa using hft.symm
    subst hft'
    rw [runSequence_ok he]
    refine .inr ⟨t, codeBits (countsOf s.text) (codesOf t (countsOf s.text)) s.text, ⟨h1, h2, ht, rfl⟩, ?_⟩
    generalize hb : codeBits (countsOf s.text) (codesOf t (countsOf s.text)) s.text = b
    obtain ⟨s2, hs2⟩ : ∃ x, x = ({ s with
      ft := some (countsOf s.text), tree := some t, cb := none
      origBytes := BitVec.ofNat 32 ((s.text.map utf8len).sum) } : State) := ⟨_, rfl⟩
    rw [show ({ s1 with tree := some t, cb := none } : State) = s2 by rw [hs2, ← hs1]]
    have hfe : s2.ftEntries = countsOf s.text := by rw [hs2]; rfl
    rcases cbGenCmd_cases s2 with ⟨hn, -⟩ | ⟨t', ht', he3⟩
    · rw [hs2] at hn; cases hn
    have : t' = t := by rw [hs2] at ht'; simpa using ht'.symm
    subst this
    rw [runSequence_ok he3, hfe]
    obtain ⟨s3, hs3⟩ : ∃ x, x = ({ s with
      ft := some (countsOf s.text), tree := some t', cb := some (codesOf t' (countsOf s.text))
      origBytes := BitVec.ofNat 32 ((s.text.map utf8len).sum) } : State) := ⟨_, rfl⟩
    rw [show ({ s2 with cb := some (codesOf t' (countsOf s.text)) } : State) = s3 by rw [hs3, hs2]]
    have hfe3 : s3.ftEntries = countsOf s.text := by rw [hs3]; rfl
    have htx3 : s3.text = s.text := text_congr (by rw [hs3]) (by rw [hs3])
      (by rw [hs3])
    have hcap3 : s3.cfg = s.cfg := by rw [hs3]
    have hlen3 : s3.sinLen = s.sinLen := by rw [hs3]
    have hlong : s.cfg.cbufCap < 1 + (b.length + 7) / 8 →
        s.cfg.cbufCap < (container (countsOf s.text) (packed b)).length := by
      intro h; rw [container_length, packed_length]; omega
    rcases encodeCmd_cases s3 with ⟨hn, -⟩ | ⟨cs, hcs, ⟨-, -, hfit, he4⟩ | ⟨hx, -⟩ | ⟨-, ⟨x, hx, hu⟩, -⟩ | ⟨-, -, hov, he4⟩⟩
    · rw [hs3] at hn; cases hn
    · have : cs = codesOf t' (countsOf s.text) := by rw [hs3] at hcs; simpa using hcs.symm
      subst this
      rw [hfe3, htx3, hb] at hfit he4
      rw [runSequence_ok he4]
      obtain ⟨s4, hs4⟩ : ∃ x, x = ({ s with
        ft := some (countsOf s.text), tree := some t', cb := some (codesOf t' (countsOf s.text)), bits := some b
        origBytes := BitVec.ofNat 32 ((s.text.map utf8len).sum) } : State) := ⟨_, rfl⟩
      rw [show ({ s3 with bits := some b } : State) = s4 by rw [hs4, hs3]]
      have hcap4 : s4.cfg = s.cfg := by rw [hs4]
      rcases packCmd_cases s4 with ⟨hn, -⟩ | ⟨b', hb', ⟨hov, he5⟩ | ⟨hfit5, he5⟩⟩
      · rw [hs4] at hn; cases hn
      · have : b' = b := by rw [hs4] at hb'; simpa using hb'.symm
        subst this
        rw [hcap4] at hov
        refine .inr ⟨hlong hov, some b', none, ?_⟩
        rw [hcap3] at hfit
        rw [runSequence_err he5, hs4, overflowStep, if_neg (by omega), if_pos hov]
      · have : b' = b := by rw [hs4] at hb'; simpa using hb'.symm
        subst this
        rw [runSequence_ok he5]
        obtain ⟨s5, hs5⟩ : ∃ x, x = ({ s with
          ft := some (countsOf s.text), tree := some t', cb := some (codesOf t' (countsOf s.text)), bits := some b'
          pk := some (packed b'), origBytes := BitVec.ofNat 32 ((s.text.map utf8len).sum) } : State) := ⟨_, rfl⟩
        rw [show ({ s4 with pk := some (packed b') } : State) = s5 by rw [hs5, hs4]]
        have hcap5 : s5.cfg = s.cfg := by rw [hs5]
        have hft5 : s5.ft = some (countsOf s.text) := by rw [hs5]
        have hpk5 : s5.pk = some (packed b') := by rw [hs5]
        rcases serializeCmd_cases s5 with ⟨hn | hn, -⟩ | ⟨ft, pk, hft, hpk, hc⟩
        · rw [hft5] at hn; cases hn
        · rw [hpk5] at hn; cases hn
        rw [hft5] at hft; cases hft
        rw [hpk5] at hpk; cases hpk
        rw [hcap5] at hc
        rcases hc with ⟨hz, -⟩ | ⟨-, hz, -⟩ | ⟨-, -, hov, he6⟩ | ⟨-, -, hfit6, he6⟩
        · exact absurd hz hne
        · rw [countsOf_length] at hz; have := h2.2; omega
        · refine .inr ⟨hov, some b', some (packed b'), ?_⟩
          rw [hcap3] at hfit
          rw [hcap4] at hfit5
          rw [runSequence_err he6, hs5, overflowStep, if_neg (by omega), if_neg (by omega)]
        · refine .inl ⟨hfit6, ?_⟩
          rw [runSequence_ok he6, runSequence_nil, hs5, compressedState]
    · rw [hcap3, hlen3] at hx; omega
    · rw [htx3] at hx
      rw [hfe3] at hu
      obtain ⟨e, hem, hes⟩ := countsOf_known s.text x hx
      exact absurd hes (hu e hem)
    · have : cs = codesOf t' (countsOf s.text) := by rw [hs3] at hcs; simpa using hcs.symm
      subst this
      rw [hfe3, htx3, hb, hcap3] at hov
      refine .inr ⟨hlong (by omega), none, s.pk, ?_⟩
      rw [runSequence_err he4, hs3, overflowStep, if_pos hov]

/-- Everything DECOMPRESS can do (R362, R361, R363), whatever the prior stores. -/
theorem decompressCmd_cases (s : State) :
    (s.cfg.cbufCap < s.cbufLen.toNat ∧ decompressCmd s = .err .inputUnavailable 0x07 s.clearParsed)
    ∨ (s.cbufLen.toNat ≤ s.cfg.cbufCap ∧ (¬ ∃ ft p, TableOk ft ∧ s.cbufRead 0 s.cbufLen.toNat = container ft p)
      ∧ decompressCmd s = .err .corruptStream 0x07 s.clearParsed)
    ∨ (s.cbufLen.toNat ≤ s.cfg.cbufCap ∧ ∃ ft p, TableOk ft ∧ s.cbufRead 0 s.cbufLen.toNat = container ft p ∧
      ((ft = [] ∧ decompressCmd s = .err .emptyInput 0x02
          { s with ft := some ft, pk := some p, tree := none, cb := none })
        ∨ ∃ t, huffmanTree ft = some t ∧
          ((unpackBits p = none ∧ decompressCmd s = .err .malformedBuffer 0x08
              { s with ft := some ft, pk := some p, tree := some t, cb := none, bits := none })
            ∨ ∃ b, unpackBits p = some b ∧
              (((decodeWalk t [] b = none ∨ ∃ out, decodeWalk t [] b = some out ∧ out.length ≠ totalFreq ft)
                  ∧ decompressCmd s = .err .corruptStream 0x09
                    { s with ft := some ft, pk := some p, tree := some t, cb := none, bits := some b, sout := [] })
                ∨ ∃ out, decodeWalk t [] b = some out ∧ out.length = totalFreq ft ∧
                  ((s.cfg.soutCap < out.length ∧ decompressCmd s = .err .outputWrite 0x09
                      { s with ft := some ft, pk := some p, tree := some t, cb := none, bits := some b, sout := [] })
                    ∨ (out.length ≤ s.cfg.soutCap ∧ decompressCmd s = .ok
                      { s with
                        ft := some ft, pk := some p, tree := some t, cb := none, bits := some b
                        sout := out })))))) := by
  unfold decompressCmd
  rcases deserializeCmd_cases s with ⟨h1, he⟩ | ⟨h1, h2, he⟩ | ⟨h1, ft, p, hok, hr, he⟩
  · exact .inl ⟨h1, runSequence_err he⟩
  · exact .inr (.inl ⟨h1, h2, runSequence_err he⟩)
  refine .inr (.inr ⟨h1, ft, p, hok, hr, ?_⟩)
  rw [runSequence_ok he]
  generalize hs1 : ({ s with ft := some ft, pk := some p, tree := none, cb := none } : State) = s1
  have hft1 : s1.ft = some ft := by rw [← hs1]
  rcases treeBuildCmd_cases s1 with ⟨hn, -⟩ | ⟨hn, he2⟩ | ⟨ft', t, hft', hne, ht, he2⟩
  · rw [hft1] at hn; cases hn
  · rw [hft1] at hn; cases hn
    exact .inl ⟨rfl, by rw [runSequence_err he2, ← hs1]⟩
  rw [hft1] at hft'; cases hft'
  refine .inr ⟨t, ht, ?_⟩
  rw [runSequence_ok he2]
  obtain ⟨s2, hs2⟩ : ∃ x, x = ({ s with ft := some ft, pk := some p, tree := some t, cb := none } : State) := ⟨_, rfl⟩
  rw [show ({ s1 with tree := some t, cb := none } : State) = s2 by rw [hs2, ← hs1]]
  have hpk2 : s2.pk = some p := by rw [hs2]
  rcases unpackCmd_cases s2 with ⟨hn, -⟩ | ⟨p', hp', ⟨hu, he3⟩ | ⟨b, hu, he3⟩⟩
  · rw [hpk2] at hn; cases hn
  · rw [hpk2] at hp'; cases hp'
    exact .inl ⟨hu, by rw [runSequence_err he3, hs2]⟩
  rw [hpk2] at hp'; cases hp'
  refine .inr ⟨b, hu, ?_⟩
  rw [runSequence_ok he3]
  obtain ⟨s3, hs3⟩ : ∃ x, x = ({ s with
    ft := some ft, pk := some p, tree := some t, cb := none, bits := some b } : State) := ⟨_, rfl⟩
  rw [show ({ s2 with bits := some b } : State) = s3 by rw [hs3, hs2]]
  have ht3 : s3.tree = some t := by rw [hs3]
  have hb3 : s3.bits = some b := by rw [hs3]
  have hf3 : s3.ftEntries = ft := by rw [hs3]; rfl
  have hc3 : s3.cfg = s.cfg := by rw [hs3]
  rcases decodeCmd_cases s3 with ⟨hn | hn, -⟩ | ⟨t', b', ht', hb', hc⟩
  · rw [ht3] at hn; cases hn
  · rw [hb3] at hn; cases hn
  rw [ht3] at ht'; cases ht'
  rw [hb3] at hb'; cases hb'
  rw [hf3, hc3] at hc
  rcases hc with ⟨hw, he4⟩ | ⟨out, hw, ⟨hl, he4⟩ | ⟨hl, hcap, he4⟩ | ⟨hl, hcap, he4⟩⟩
  · exact .inl ⟨.inl hw, by rw [runSequence_err he4, hs3]⟩
  · exact .inl ⟨.inr ⟨out, hw, hl⟩, by rw [runSequence_err he4, hs3]⟩
  · exact .inr ⟨out, hw, hl, .inl ⟨hcap, by rw [runSequence_err he4, hs3]⟩⟩
  · exact .inr ⟨out, hw, hl, .inr ⟨hcap, by rw [runSequence_ok he4, runSequence_nil, hs3]⟩⟩

end Sys2Proof.Machine
end

