-- ==== Sys2Proof/Laws/Completion.lean ====
section
/-! SUPPORT. The laws of completion and of sequencing: every command completes, no error's number is 0,
and the host's side plays no part in a command. -/

namespace Sys2Proof.Machine
open Sys2Proof

/-! ### Completion -/

/-- Every arm of exec completes a result: there is no fault and no refusal (R190, R400). -/
theorem exec_finish (i : Instr) (s : State) : ∃ r : CmdResult, exec i s = finish r := by
  cases i <;> exact ⟨_, rfl⟩

theorem complete_eng (r : CmdResult) : (complete r).eng = .idle ∧ (complete r).done = true := by
  cases r <;> exact ⟨rfl, rfl⟩

theorem finish_next {r : CmdResult} {t : State} (h : finish r = .next t) : t = complete r := by
  simpa [finish] using h.symm

/-- No error's ERRCODE is 0 (R401). -/
theorem errorWord_ne_zero (e : ErrorCode) (st : Byte) : errorWord e st ≠ 0 := by
  revert st; cases e <;> decide +kernel

theorem ok_of_errcode_zero {r : CmdResult} (h : (complete r).errcode = 0) : ∃ s, r = .ok s := by
  cases r with
  | ok s => exact ⟨s, rfl⟩
  | err e st s => exact absurd h (errorWord_ne_zero e st)

theorem err_completeWith_zero (s : State) : (completeWith 0 s).err = false := rfl

/-- STATUS.ERR reads 1 after every error (R44, R401). -/
theorem err_completeWith_errorWord (e : ErrorCode) (st : Byte) (s : State) :
    (completeWith (errorWord e st) s).err = true := by
  simp only [State.err, completeWith]
  revert st; cases e <;> decide +kernel

/-- A move with nothing to do holds the state (R435). -/
@[simp] theorem holdState_eq (s : State) : holdState s = .next s := rfl

/-- The engine's move always gives a next state (R400). -/
theorem engineMove_next (s : State) : ∃ t, engineMove s = .next t := by
  unfold engineMove
  split
  · exact ⟨_, rfl⟩
  · split
    · unfold completionStep
      split
      · obtain ⟨r, hr⟩ := exec_finish ‹_› s
        exact ⟨_, hr⟩
      · exact ⟨_, rfl⟩
    · exact ⟨_, rfl⟩

theorem Params_bounds {p : Params} (h : p.wf = true) :
    p.sinCap < 2 ^ 30 ∧ p.cbufCap < 2 ^ 29 ∧ p.soutCap < 2 ^ 32 := by
  simp only [Params.wf, Bool.and_eq_true, decide_eq_true_eq] at h
  omega

/-! ### The host's side plays no part in a command (R191) -/

/-- `f` on the state a result carries. -/
def CmdResult.map (f : State → State) : CmdResult → CmdResult
  | .ok s => .ok (f s)
  | .err e st s => .err e st (f s)

/-- `s` with the host's side of `h`: engine, control fields, index registers, and the model's own records. -/
def State.withHost (s h : State) : State :=
  { s with
    eng := h.eng, irqEn := h.irqEn, done := h.done, cmdDropped := h.cmdDropped, wrDropped := h.wrDropped
    errcode := h.errcode, sinIdx := h.sinIdx, cbufIdx := h.cbufIdx, soutIdx := h.soutIdx, ftIdx := h.ftIdx
    cbBitpos := h.cbBitpos, bitsIdx := h.bitsIdx, pkIdx := h.pkIdx, readData := h.readData
    agenda := h.agenda, draws := h.draws }

/-- A command that neither reads nor writes the host's side. -/
def IgnoresHost (c : State → CmdResult) : Prop := ∀ s h, c (s.withHost h) = (c s).map (·.withHost h)

theorem text_withHost (s h : State) : (s.withHost h).text = s.text := text_congr rfl rfl rfl

theorem cbufRead_withHost (s h : State) (a n : Nat) : (s.withHost h).cbufRead a n = s.cbufRead a n := rfl

theorem ftBuildCmd_ignoresHost : IgnoresHost ftBuildCmd := by
  intro s h
  unfold ftBuildCmd
  rw [text_withHost]
  simp only [show (s.withHost h).cfg = s.cfg from rfl, show (s.withHost h).sinLen = s.sinLen from rfl]
  split
  · rfl
  · split
    · rfl
    · split
      · rfl
      · split <;> rfl

theorem treeBuildCmd_ignoresHost : IgnoresHost treeBuildCmd := by
  intro s h
  unfold treeBuildCmd
  simp only [show (s.withHost h).ft = s.ft from rfl]
  split
  · rfl
  · split <;> rfl

theorem cbGenCmd_ignoresHost : IgnoresHost cbGenCmd := by
  intro s h
  unfold cbGenCmd
  simp only [show (s.withHost h).tree = s.tree from rfl]
  split <;> rfl

theorem encodeCmd_ignoresHost : IgnoresHost encodeCmd := by
  intro s h
  unfold encodeCmd
  rw [text_withHost]
  simp only [show (s.withHost h).cb = s.cb from rfl, show (s.withHost h).cfg = s.cfg from rfl,
    show (s.withHost h).sinLen = s.sinLen from rfl, show (s.withHost h).ftEntries = s.ftEntries from rfl]
  split
  · rfl
  · split
    · rfl
    · split
      · rfl
      · split <;> rfl

theorem packCmd_ignoresHost : IgnoresHost packCmd := by
  intro s h
  unfold packCmd
  simp only [show (s.withHost h).bits = s.bits from rfl, show (s.withHost h).cfg = s.cfg from rfl]
  split
  · rfl
  · split <;> rfl

theorem serializeCmd_ignoresHost : IgnoresHost serializeCmd := by
  intro s h
  unfold serializeCmd
  simp only [show (s.withHost h).ft = s.ft from rfl, show (s.withHost h).pk = s.pk from rfl,
    show (s.withHost h).cfg = s.cfg from rfl]
  split
  · rfl
  · rfl
  · split
    · rfl
    · split
      · rfl
      · split <;> rfl

theorem deserializeCmd_ignoresHost : IgnoresHost deserializeCmd := by
  intro s h
  unfold deserializeCmd
  simp only [show (s.withHost h).cbufLen = s.cbufLen from rfl, show (s.withHost h).cfg = s.cfg from rfl,
    cbufRead_withHost]
  split
  · rfl
  · split <;> rfl

theorem unpackCmd_ignoresHost : IgnoresHost unpackCmd := by
  intro s h
  unfold unpackCmd
  simp only [show (s.withHost h).pk = s.pk from rfl]
  split
  · rfl
  · split <;> rfl

theorem decodeCmd_ignoresHost : IgnoresHost decodeCmd := by
  intro s h
  unfold decodeCmd
  simp only [show (s.withHost h).tree = s.tree from rfl, show (s.withHost h).bits = s.bits from rfl,
    show (s.withHost h).ftEntries = s.ftEntries from rfl, show (s.withHost h).cfg = s.cfg from rfl]
  split
  · rfl
  · rfl
  · split
    · rfl
    · split
      · rfl
      · split <;> rfl

theorem runSequence_ignoresHost {cs : List (State → CmdResult)} (hc : ∀ c ∈ cs, IgnoresHost c) :
    IgnoresHost (runSequence cs) := by
  induction cs with
  | nil => intro s h; rfl
  | cons c cs ih =>
    intro s h
    have ih := ih fun c' hm => hc c' (by simp [hm])
    unfold runSequence
    rw [hc c (by simp) s h]
    cases c s with
    | ok s' => exact ih s' h
    | err e st s' => rfl

theorem compressCmd_ignoresHost : IgnoresHost compressCmd :=
  runSequence_ignoresHost (by
    simp only [List.forall_mem_cons, List.not_mem_nil, false_implies, implies_true, and_true]
    exact ⟨ftBuildCmd_ignoresHost, treeBuildCmd_ignoresHost, cbGenCmd_ignoresHost, encodeCmd_ignoresHost,
      packCmd_ignoresHost, serializeCmd_ignoresHost⟩)

theorem decompressCmd_ignoresHost : IgnoresHost decompressCmd :=
  runSequence_ignoresHost (by
    simp only [List.forall_mem_cons, List.not_mem_nil, false_implies, implies_true, and_true]
    exact ⟨deserializeCmd_ignoresHost, treeBuildCmd_ignoresHost, unpackCmd_ignoresHost, decodeCmd_ignoresHost⟩)

theorem nopCmd_ignoresHost : IgnoresHost nopCmd := fun _ _ => rfl

/-- What each arm of exec runs. -/
def cmdOf : Instr → State → CmdResult
  | .nop => nopCmd
  | .ftBuild => ftBuildCmd
  | .treeBuild => treeBuildCmd
  | .cbGen => cbGenCmd
  | .encode => encodeCmd
  | .pack => packCmd
  | .serialize => serializeCmd
  | .deserialize => deserializeCmd
  | .unpack => unpackCmd
  | .decode => decodeCmd
  | .compress => compressCmd
  | .decompress => decompressCmd

/-- exec completes the command's result. -/
theorem exec_eq_finish (i : Instr) (s : State) : exec i s = finish (cmdOf i s) := by cases i <;> rfl

theorem cmdOf_ignoresHost (i : Instr) : IgnoresHost (cmdOf i) := by
  cases i
  exacts [nopCmd_ignoresHost, ftBuildCmd_ignoresHost, treeBuildCmd_ignoresHost, cbGenCmd_ignoresHost,
    encodeCmd_ignoresHost, packCmd_ignoresHost, serializeCmd_ignoresHost, deserializeCmd_ignoresHost,
    unpackCmd_ignoresHost, decodeCmd_ignoresHost, compressCmd_ignoresHost, decompressCmd_ignoresHost]

/-- A command that ignores the host's side keeps it. -/
theorem IgnoresHost.keeps {c : State → CmdResult} (h : IgnoresHost c) (s : State) :
    c s = (c s).map (·.withHost s) := h s s

/-- The step commands of a composite, each completed, are its sequence completed (R361). -/
theorem runUntilError_completed {is : List Instr} (s : State) :
    runUntilError is (completeWith 0 s) = finish (runSequence (is.map cmdOf) s) := by
  induction is generalizing s with
  | nil => rfl
  | cons i is ih =>
    have hc := cmdOf_ignoresHost i
    have h1 : cmdOf i (completeWith 0 s) = (cmdOf i s).map (·.withHost (completeWith 0 s)) := hc s (completeWith 0 s)
    have h2 := hc.keeps s
    unfold runUntilError
    rw [exec_eq_finish, h1]
    simp only [List.map_cons, runSequence]
    cases hr : cmdOf i s with
    | ok s' =>
      rw [hr] at h2
      have h3 : s' = s'.withHost s := by simpa [CmdResult.map] using h2
      simp only [finish, complete, CmdResult.map, err_completeWith_zero, Bool.false_eq_true, if_false]
      rw [show completeWith 0 (s'.withHost (completeWith 0 s)) = completeWith 0 (s'.withHost s) from rfl, ← h3, ih]
      rfl
    | err e st s' =>
      rw [hr] at h2
      have h3 : s' = s'.withHost s := by simpa [CmdResult.map] using h2
      simp only [finish, complete, CmdResult.map, err_completeWith_errorWord, if_true]
      rw [show completeWith (errorWord e st) (s'.withHost (completeWith 0 s))
        = completeWith (errorWord e st) (s'.withHost s) from rfl, ← h3]

theorem runUntilError_eq {i : Instr} {is : List Instr} (s : State) :
    runUntilError (i :: is) s = finish (runSequence ((i :: is).map cmdOf) s) := by
  unfold runUntilError
  rw [exec_eq_finish]
  simp only [List.map_cons, runSequence]
  cases hr : cmdOf i s with
  | ok s' =>
    simp only [finish, complete, err_completeWith_zero, Bool.false_eq_true, if_false]
    exact runUntilError_completed s'
  | err e st s' => simp only [finish, complete, err_completeWith_errorWord, if_true]

theorem containerOfText_eq {s : State} {t : HuffTree} {b : List Bool} (h : CompressPlan s t b) :
    containerOfText s.text = some (container (countsOf s.text) (packed b)) := by
  simp only [containerOfText, freqTable_eq_countsOf, h.tree]
  rw [encodeText_some (countsOf_known s.text), ← h.stream]

theorem containerOfText_nil : containerOfText [] = none := by
  simp [containerOfText, freqTable, huffmanTree]

/-- What a successful COMPRESS leaves. -/
theorem compress_success {s t : State} (he : exec .compress s = .next t) (h0 : t.errcode = 0) :
    ∃ tr b, CompressPlan s tr b ∧ (container (countsOf s.text) (packed b)).length ≤ s.cfg.cbufCap
      ∧ t = completeWith 0 (compressedState s tr b) := by
  have ht := finish_next (r := compressCmd s) he
  subst ht
  rcases compressCmd_cases s with ⟨-, he⟩ | ⟨-, -, -, he⟩ | ⟨-, -, he⟩ | ⟨tr, b, hp, ⟨hfit, he⟩ | ⟨-, b', p', he⟩⟩
  · rw [he] at h0; exact absurd h0 (errorWord_ne_zero _ _)
  · rw [he] at h0; exact absurd h0 (errorWord_ne_zero _ _)
  · rw [he] at h0; exact absurd h0 (errorWord_ne_zero _ _)
  · exact ⟨tr, b, hp, hfit, by rw [he]; rfl⟩
  · rw [he] at h0; exact absurd h0 (errorWord_ne_zero _ _)

theorem compressed_reads {s : State} {tr : HuffTree} {b : List Bool} (hw : s.cfg.wf = true)
    (hfit : (container (countsOf s.text) (packed b)).length ≤ s.cfg.cbufCap) :
    (completeWith 0 (compressedState s tr b)).cbufLen.toNat = (container (countsOf s.text) (packed b)).length
    ∧ ∀ n, n ≤ (container (countsOf s.text) (packed b)).length →
      (completeWith 0 (compressedState s tr b)).cbufRead 0 n = (container (countsOf s.text) (packed b)).take n := by
  have hb := (Params_bounds hw).2.1
  have hn : (BitVec.ofNat 32 (container (countsOf s.text) (packed b)).length).toNat
        = (container (countsOf s.text) (packed b)).length := by
      rw [BitVec.toNat_ofNat]; omega
  refine ⟨hn, fun n hn' => ?_⟩
  have h1 := cbufRead_writeList s (container (countsOf s.text) (packed b))
  have h2 : (completeWith 0 (compressedState s tr b)).cbufRead 0 (container (countsOf s.text) (packed b)).length
     = container (countsOf s.text) (packed b) := h1
  have h3 : ∀ (u : State) (m : Nat), n ≤ m → u.cbufRead 0 n = (u.cbufRead 0 m).take n := by
    intro u m h
    simp only [State.cbufRead]
    rw [← List.map_take, List.take_range, Nat.min_eq_left h]
  rw [h3 _ _ hn', h2]

theorem countable_table {s : State} (hw : s.cfg.wf = true) (hc : Countable s.text) :
    TableOk (countsOf s.text) := by
  refine tableOk_countsOf hc ?_
  have := (Params_bounds hw).1
  rw [text_length]; omega

/-- The ERRCODE of COMPRESS as a function of the parameters, SIN_LEN and the text. -/
theorem compress_errcode (s : State) :
    ((s.cfg.sinCap < s.sinLen.toNat ∨ s.text.all scalar = false) ∧ (complete (compressCmd s)).errcode = 0x0105)
    ∨ (s.sinLen.toNat ≤ s.cfg.sinCap ∧ s.text.all scalar = true ∧ 65535 < s.text.eraseDups.length
      ∧ (complete (compressCmd s)).errcode = 0x0102)
    ∨ (s.sinLen.toNat ≤ s.cfg.sinCap ∧ s.text = [] ∧ (complete (compressCmd s)).errcode = 0x0201)
    ∨ (s.sinLen.toNat ≤ s.cfg.sinCap ∧ Countable s.text ∧ ∃ t b, huffmanTree (countsOf s.text) = some t
      ∧ b = codeBits (countsOf s.text) (codesOf t (countsOf s.text)) s.text
      ∧ (((container (countsOf s.text) (packed b)).length ≤ s.cfg.cbufCap ∧ (complete (compressCmd s)).errcode = 0)
        ∨ (s.cfg.cbufCap < (container (countsOf s.text) (packed b)).length ∧
          (complete (compressCmd s)).errcode = errorWord .outputWrite (overflowStep s.cfg.cbufCap b)))) := by
  rcases compressCmd_cases s with ⟨g1, e1⟩ | ⟨g1, g2, g3, e1⟩ | ⟨g1, g2, e1⟩ | ⟨t, b, hp, ⟨hf, e1⟩ | ⟨hf, b1, p1, e1⟩⟩ <;>
  rw [e1]
  · exact .inl ⟨g1, rfl⟩
  · exact .inr (.inl ⟨g1, g2, g3, rfl⟩)
  · exact .inr (.inr (.inl ⟨g1, g2, rfl⟩))
  · exact .inr (.inr (.inr ⟨hp.fits, hp.text, t, b, hp.tree, hp.stream, .inl ⟨hf, rfl⟩⟩))
  · exact .inr (.inr (.inr ⟨hp.fits, hp.text, t, b, hp.tree, hp.stream, .inr ⟨hf, rfl⟩⟩))

end Sys2Proof.Machine
end

