-- ==== Sys2Proof/Laws/Decode.lean ====
section
/-! SUPPORT. The laws of decoding and encoding a command word. -/

namespace Sys2Proof
open Sys2Proof

/-- The opcode map read from the left and from the right agree (R141). -/
theorem instrOfOpcode_eq_some (opc : Byte) (i : Instr) : instrOfOpcode opc = some i ↔ opc = opcodeOf i := by
  revert opc
  cases i <;> decide +kernel

theorem instrOfOpcode_isSome (opc : Byte) :
    (instrOfOpcode opc).isSome = (decide (opc.toNat ≤ 9) || opc.toNat == 0x10 || opc.toNat == 0x11) := by
  revert opc
  decide +kernel

theorem rsvField_eq_zero (w : Word) : rsvField w = 0 ↔ w.toNat < 2 ^ 8 := by
  have := w.isLt
  constructor
  · intro h
    have h := congrArg BitVec.toNat h
    simp only [rsvField, BitVec.extractLsb'_toNat, BitVec.ofNat_eq_ofNat, BitVec.toNat_zero, Nat.shiftRight_eq_div_pow] at h
    omega
  · intro h
    apply BitVec.eq_of_toNat_eq
    simp only [rsvField, BitVec.extractLsb'_toNat, BitVec.ofNat_eq_ofNat, BitVec.toNat_zero, Nat.shiftRight_eq_div_pow]
    omega

theorem opcField_toNat (w : Word) : (opcField w).toNat = w.toNat % 2 ^ 8 := by
  simp [opcField]

theorem encode_toNat (i : Instr) : (encode i).toNat = (opcodeOf i).toNat := by
  cases i <;> decide

theorem opcField_encode (i : Instr) : opcField (encode i) = opcodeOf i := by
  cases i <;> decide

/-- A word decodes to a command exactly when it is the command's word (R142). -/
theorem decodeWord_eq_ok (w : Word) (i : Instr) : decodeWord w = .ok i ↔ w = encode i := by
  constructor
  · intro h
    unfold decodeWord at h
    split_ifs at h with hr
    rw [rsvField_eq_zero] at hr
    split at h
    · rename_i i' hi
      cases h
      rw [instrOfOpcode_eq_some] at hi
      apply BitVec.eq_of_toNat_eq
      rw [encode_toNat, ← hi, opcField_toNat]
      omega
    · cases h
  · rintro rfl
    cases i <;> decide

theorem wordWf_iff (w : Word) :
    wordWf w = true ↔ w.toNat < 2 ^ 8 ∧ (w.toNat ≤ 9 ∨ w.toNat = 0x10 ∨ w.toNat = 0x11) := by
  have hw := w.isLt
  have h1 : rsvClear w = true ↔ w.toNat < 2 ^ 8 := by
    rw [rsvClear, beq_iff_eq, ← BitVec.toNat_inj]
    simp only [BitVec.toNat_ushiftRight, BitVec.ofNat_eq_ofNat, BitVec.toNat_zero, Nat.shiftRight_eq_div_pow]
    omega
  simp only [wordWf, Bool.and_eq_true, h1, opcodeInUse, Bool.or_eq_true, decide_eq_true_eq, beq_iff_eq]
  omega

/-- A word decodes to some command exactly when it is legal (R142). -/
theorem decodeWord_isOk (w : Word) : (∃ i, decodeWord w = .ok i) ↔ wordWf w = true := by
  rw [wordWf_iff]
  have h := instrOfOpcode_isSome (opcField w)
  rw [opcField_toNat] at h
  unfold decodeWord
  by_cases hr : rsvField w = 0
  · rw [if_pos hr]
    rw [rsvField_eq_zero] at hr
    rw [Nat.mod_eq_of_lt hr] at h
    cases hi : instrOfOpcode (opcField w) with
    | none => rw [hi] at h; simp at h ⊢; omega
    | some i => rw [hi] at h; simp at h ⊢; omega
  · rw [if_neg hr]
    rw [rsvField_eq_zero] at hr
    simp; omega

end Sys2Proof
end

