-- ==== Sys2Proof/Laws/Invariant.lean ====
section
/-! SUPPORT. What every command keeps, everything a step can do, and how a step keeps a property. -/

namespace Sys2Proof.Machine
open Sys2Proof

/-! ### What commands keep -/

/-- The state a result carries. -/
def CmdResult.state : CmdResult → State
  | .ok s => s
  | .err _ _ s => s

/-- A command that keeps a property of the state. -/
def Keeps (P : State → Prop) (c : State → CmdResult) : Prop := ∀ s, P s → P (c s).state

theorem runSequence_keeps {P : State → Prop} {cs : List (State → CmdResult)} (h : ∀ c ∈ cs, Keeps P c) :
    Keeps P (runSequence cs) := by
  induction cs with
  | nil => exact fun s hs => hs
  | cons c cs ih =>
    intro s hs
    have h1 := h c (by simp) s hs
    unfold runSequence
    cases hr : c s with
    | ok s' =>
      rw [hr] at h1
      exact ih (fun c' hm => h c' (by simp [hm])) s' h1
    | err e st s' =>
      rw [hr] at h1
      exact h1

/-- If each step command keeps a property, every command does. -/
theorem cmdOf_keeps {P : State → Prop} (h1 : Keeps P ftBuildCmd) (h2 : Keeps P treeBuildCmd) (h3 : Keeps P cbGenCmd)
    (h4 : Keeps P encodeCmd) (h5 : Keeps P packCmd) (h6 : Keeps P serializeCmd) (h7 : Keeps P deserializeCmd)
    (h8 : Keeps P unpackCmd) (h9 : Keeps P decodeCmd) (i : Instr) : Keeps P (cmdOf i) := by
  cases i
  case nop => exact fun s hs => hs
  case compress =>
    exact runSequence_keeps (by
      simp only [List.forall_mem_cons, List.not_mem_nil, false_implies, implies_true, and_true]
      exact ⟨h1, h2, h3, h4, h5, h6⟩)
  case decompress =>
    exact runSequence_keeps (by
      simp only [List.forall_mem_cons, List.not_mem_nil, false_implies, implies_true, and_true]
      exact ⟨h7, h2, h8, h9⟩)
  all_goals assumption

theorem complete_eq (r : CmdResult) : ∃ w, complete r = completeWith w r.state := by
  cases r <;> exact ⟨_, rfl⟩

/-! ### The buffers -/

theorem cmdOf_keeps_buffers (i : Instr) : Keeps BuffersOk (cmdOf i) := by
  refine cmdOf_keeps ?_ ?_ ?_ ?_ ?_ ?_ ?_ ?_ ?_ i <;> intro s hs
  · rcases ftBuildCmd_cases s with ⟨-, -, h⟩ | ⟨-, h⟩ | ⟨-, -, -, h⟩ <;> rw [h] <;> exact ⟨hs.1, hs.2, hs.3, hs.4⟩
  · rcases treeBuildCmd_cases s with ⟨-, h⟩ | ⟨-, h⟩ | ⟨_, _, -, -, -, h⟩ <;> rw [h] <;> exact ⟨hs.1, hs.2, hs.3, hs.4⟩
  · rcases cbGenCmd_cases s with ⟨-, h⟩ | ⟨_, -, h⟩ <;> rw [h] <;> exact ⟨hs.1, hs.2, hs.3, hs.4⟩
  · rcases encodeCmd_cases s with ⟨-, h⟩ | ⟨_, -, ⟨-, -, -, h⟩ | ⟨-, h⟩ | ⟨-, -, h⟩ | ⟨-, -, -, h⟩⟩ <;> rw [h] <;>
    exact ⟨hs.1, hs.2, hs.3, hs.4⟩
  · rcases packCmd_cases s with ⟨-, h⟩ | ⟨_, -, ⟨-, h⟩ | ⟨-, h⟩⟩ <;> rw [h] <;> exact ⟨hs.1, hs.2, hs.3, hs.4⟩
  · rcases serializeCmd_cases s with ⟨-, h⟩ | ⟨ft, pk, -, -, ⟨-, h⟩ | ⟨-, -, h⟩ | ⟨-, -, -, h⟩ | ⟨-, -, hfit, h⟩⟩
    case inr.inr.inr.inr =>
      rw [h]
      exact ⟨hs.1, hs.2, Memory.wf_writeList hs.3 _ _, Memory.within_writeList hs.4 (by rw [Nat.zero_add]; exact hfit)⟩
    all_goals rw [h]; exact hs
  · rcases deserializeCmd_cases s with ⟨-, h⟩ | ⟨-, -, h⟩ | ⟨-, _, _, -, -, h⟩ <;> rw [h] <;>
    exact ⟨hs.1, hs.2, hs.3, hs.4⟩
  · rcases unpackCmd_cases s with ⟨-, h⟩ | ⟨_, -, ⟨-, h⟩ | ⟨_, -, h⟩⟩ <;> rw [h] <;> exact ⟨hs.1, hs.2, hs.3, hs.4⟩
  · rcases decodeCmd_cases s with ⟨-, h⟩ | ⟨_, _, -, -, ⟨-, h⟩ | ⟨_, -, ⟨-, h⟩ | ⟨-, -, h⟩ | ⟨-, -, h⟩⟩⟩ <;> rw [h] <;>
    exact ⟨hs.1, hs.2, hs.3, hs.4⟩

/-! ### The flag chain (R197) -/

theorem cmdOf_keeps_flagChain (i : Instr) : Keeps FlagChain (cmdOf i) := by
  refine cmdOf_keeps ?_ ?_ ?_ ?_ ?_ ?_ ?_ ?_ ?_ i <;> intro s hs
  · rcases ftBuildCmd_cases s with ⟨-, -, h⟩ | ⟨-, h⟩ | ⟨-, -, -, h⟩ <;> rw [h] <;>
    exact ⟨fun h => (nomatch h), fun h => (nomatch h)⟩
  · rcases treeBuildCmd_cases s with ⟨-, h⟩ | ⟨-, h⟩ | ⟨ft, _, hft, -, -, h⟩ <;> rw [h]
    · exact hs
    · exact ⟨fun h => (nomatch h), fun h => (nomatch h)⟩
    · exact ⟨fun h => (nomatch h), fun _ => by show s.ft.isSome = true; rw [hft]; rfl⟩
  · rcases cbGenCmd_cases s with ⟨-, h⟩ | ⟨t, ht, h⟩ <;> rw [h]
    · exact hs
    · exact ⟨fun _ => by show s.tree.isSome = true; rw [ht]; rfl, hs.2⟩
  · rcases encodeCmd_cases s with ⟨-, h⟩ | ⟨_, -, ⟨-, -, -, h⟩ | ⟨-, h⟩ | ⟨-, -, h⟩ | ⟨-, -, -, h⟩⟩ <;> rw [h] <;>
    exact ⟨hs.1, hs.2⟩
  · rcases packCmd_cases s with ⟨-, h⟩ | ⟨_, -, ⟨-, h⟩ | ⟨-, h⟩⟩ <;> rw [h] <;> exact ⟨hs.1, hs.2⟩
  · rcases serializeCmd_cases s with ⟨-, h⟩ | ⟨ft, pk, -, -, ⟨-, h⟩ | ⟨-, -, h⟩ | ⟨-, -, -, h⟩ | ⟨-, -, hfit, h⟩⟩ <;>
    rw [h] <;> exact ⟨hs.1, hs.2⟩
  · rcases deserializeCmd_cases s with ⟨-, h⟩ | ⟨-, -, h⟩ | ⟨-, _, _, -, -, h⟩ <;> rw [h] <;>
    exact ⟨fun h => (nomatch h), fun h => (nomatch h)⟩
  · rcases unpackCmd_cases s with ⟨-, h⟩ | ⟨_, -, ⟨-, h⟩ | ⟨_, -, h⟩⟩ <;> rw [h] <;> exact ⟨hs.1, hs.2⟩
  · rcases decodeCmd_cases s with ⟨-, h⟩ | ⟨_, _, -, -, ⟨-, h⟩ | ⟨_, -, ⟨-, h⟩ | ⟨-, -, h⟩ | ⟨-, -, h⟩⟩⟩ <;> rw [h] <;>
    exact ⟨hs.1, hs.2⟩

/-! ### The stores -/

/-- The stores' contents are as the rules say (R61, R63, R64, R67, R68, R72). -/
structure DataOk (s : State) : Prop where
  stores  : StoresOk s
  lengths : LengthsOk s

/-- A table alone: no tree, no codebook. -/
theorem storesOk_table {s : State} (hf : ∀ ft ∈ s.ft, TableOk ft) (ht : s.tree = none) (hc : s.cb = none) :
    StoresOk s := ⟨hf, by simp [ht], by simp [hc]⟩

theorem cmdOf_keeps_data (i : Instr) : Keeps DataOk (cmdOf i) := by
  refine cmdOf_keeps ?_ ?_ ?_ ?_ ?_ ?_ ?_ ?_ ?_ i <;> intro s hs <;> obtain ⟨hs1, hs2⟩ := hs
  · have hl : ∀ {t : State}, t.cfg = s.cfg → t.bits = s.bits → t.pk = s.pk → t.sout = s.sout → LengthsOk t := by
      intro t h1 h2 h3 h4
      exact ⟨by rw [h1, h2]; exact hs2.1, by rw [h1, h3]; exact hs2.2, by rw [h1, h4]; exact hs2.3,
        by rw [h4]; exact hs2.4⟩
    rcases ftBuildCmd_cases s with ⟨-, hc, h⟩ | ⟨-, h⟩ | ⟨-, -, -, h⟩ <;> rw [h]
    · refine ⟨storesOk_table ?_ rfl rfl, hl rfl rfl rfl rfl⟩
      intro ft hft
      cases hft
      refine tableOk_countsOf hc ?_
      rw [text_length]
      have := s.sinLen.isLt
      omega
    · exact ⟨storesOk_table (fun _ h => (nomatch h)) rfl rfl, hl rfl rfl rfl rfl⟩
    · exact ⟨storesOk_table (fun _ h => (nomatch h)) rfl rfl, hl rfl rfl rfl rfl⟩
  · rcases treeBuildCmd_cases s with ⟨-, h⟩ | ⟨-, h⟩ | ⟨ft, t, hft, -, ht, h⟩ <;> rw [h]
    · exact ⟨hs1, hs2⟩
    · exact ⟨storesOk_table hs1.1 rfl rfl, ⟨hs2.1, hs2.2, hs2.3, hs2.4⟩⟩
    · refine ⟨⟨hs1.1, ?_, fun _ h => nomatch h⟩, ⟨hs2.1, hs2.2, hs2.3, hs2.4⟩⟩
      intro t' ht'
      cases ht'
      exact ⟨ft, hft, ht⟩
  · rcases cbGenCmd_cases s with ⟨-, h⟩ | ⟨t, ht, h⟩ <;> rw [h]
    · exact ⟨hs1, hs2⟩
    · refine ⟨⟨hs1.1, hs1.2, ?_⟩, ⟨hs2.1, hs2.2, hs2.3, hs2.4⟩⟩
      intro cs hcs
      cases hcs
      exact ⟨t, ht, rfl⟩
  · have hnone : DataOk { s with bits := none } :=
      ⟨⟨hs1.1, hs1.2, hs1.3⟩, ⟨fun _ h => (nomatch h), hs2.2, hs2.3, hs2.4⟩⟩
    rcases encodeCmd_cases s with ⟨-, h⟩ | ⟨_, -, ⟨-, -, hfit, h⟩ | ⟨-, h⟩ | ⟨-, -, h⟩ | ⟨-, -, -, h⟩⟩ <;> rw [h]
    · exact ⟨hs1, hs2⟩
    · refine ⟨⟨hs1.1, hs1.2, hs1.3⟩, ⟨fun _ h => ?_, hs2.2, hs2.3, hs2.4⟩⟩
      cases h
      exact hfit
    all_goals exact hnone
  · rcases packCmd_cases s with ⟨-, h⟩ | ⟨_, -, ⟨-, h⟩ | ⟨hfit, h⟩⟩ <;> rw [h]
    · exact ⟨hs1, hs2⟩
    · exact ⟨⟨hs1.1, hs1.2, hs1.3⟩, ⟨hs2.1, fun _ h => (nomatch h), hs2.3, hs2.4⟩⟩
    · refine ⟨⟨hs1.1, hs1.2, hs1.3⟩, ⟨hs2.1, fun _ h => ?_, hs2.3, hs2.4⟩⟩
      cases h
      rw [packed_length]
      exact hfit
  · rcases serializeCmd_cases s with ⟨-, h⟩ | ⟨ft, pk, -, -, ⟨-, h⟩ | ⟨-, -, h⟩ | ⟨-, -, -, h⟩ | ⟨-, -, hfit, h⟩⟩ <;>
    rw [h] <;> exact ⟨⟨hs1.1, hs1.2, hs1.3⟩, ⟨hs2.1, hs2.2, hs2.3, hs2.4⟩⟩
  · rcases deserializeCmd_cases s with ⟨-, h⟩ | ⟨-, -, h⟩ | ⟨hl, ft, p, hok, hr, h⟩ <;> rw [h]
    · exact ⟨storesOk_table (fun _ h => (nomatch h)) rfl rfl, ⟨hs2.1, fun _ h => (nomatch h), hs2.3, hs2.4⟩⟩
    · exact ⟨storesOk_table (fun _ h => (nomatch h)) rfl rfl, ⟨hs2.1, fun _ h => (nomatch h), hs2.3, hs2.4⟩⟩
    · refine ⟨storesOk_table (fun ft hft => ?_) rfl rfl, ⟨hs2.1, fun _ h => ?_, hs2.3, hs2.4⟩⟩
      · cases hft; exact hok
      · cases h
        have := congrArg List.length hr
        rw [cbufRead_length, container_length] at this
        show p.length ≤ s.cfg.cbufCap
        omega
  · rcases unpackCmd_cases s with ⟨-, h⟩ | ⟨pk, hpk, ⟨-, h⟩ | ⟨b, hb, h⟩⟩ <;> rw [h]
    · exact ⟨hs1, hs2⟩
    · exact ⟨⟨hs1.1, hs1.2, hs1.3⟩, ⟨fun _ h => (nomatch h), hs2.2, hs2.3, hs2.4⟩⟩
    · refine ⟨⟨hs1.1, hs1.2, hs1.3⟩, ⟨fun _ h => ?_, hs2.2, hs2.3, hs2.4⟩⟩
      cases h
      have h1 := unpackBits_length_le hb
      have h2 := hs2.2 pk hpk
      show b.length ≤ 8 * s.cfg.cbufCap
      omega
  · have hnone : DataOk { s with sout := [] } :=
      ⟨⟨hs1.1, hs1.2, hs1.3⟩, ⟨hs2.1, hs2.2, Nat.zero_le _, fun _ h => (nomatch h)⟩⟩
    rcases decodeCmd_cases s with ⟨-, h⟩ | ⟨t, b, ht, -, ⟨-, h⟩ | ⟨out, ho, ⟨-, h⟩ | ⟨-, -, h⟩ | ⟨-, hcap, h⟩⟩⟩ <;> rw [h]
    · exact ⟨hs1, hs2⟩
    · exact hnone
    · exact hnone
    · exact hnone
    · refine ⟨⟨hs1.1, hs1.2, hs1.3⟩, ⟨hs2.1, hs2.2, hcap, ?_⟩⟩
      intro x hx
      obtain ⟨q, f, hq⟩ := decodeWalk_symbols ho x hx
      obtain ⟨ft, hft, htr⟩ := hs1.2 t ht
      have := (huffmanTree_leaves htr).1.subset (subtree_leaf_mem hq)
      exact (hs1.1 ft hft).scalars _ this

/-! ### One move of the machine -/

/-- Everything a step can do: an engine's move, a host transaction or a move of the pin, on the state with the move
taken off the agenda. -/
theorem step_cases {s t : State} (h : step s = .next t) :
    ∃ u, (u = s ∨ ∃ m rest, s.agenda = m :: rest ∧ u = { s with agenda := rest }) ∧
      (engineMove u = .next t ∨ (∃ x, t = hostTransaction x u) ∨ ∃ b, t = setResetPin b u) := by
  unfold step nextStep at h
  split at h
  · exact ⟨s, .inl rfl, .inl h⟩
  · rename_i m rest ha
    refine ⟨_, .inr ⟨m, rest, ha, rfl⟩, ?_⟩
    cases m with
    | engine => exact .inl h
    | host x => exact .inr (.inl ⟨x, by simpa [takeMove] using h.symm⟩)
    | rstPin b => exact .inr (.inr ⟨b, by simpa [takeMove] using h.symm⟩)

/-- Everything the engine's move can do. -/
theorem engineMove_cases {s t : State} (h : engineMove s = .next t) :
    t = s ∨ (s.rstN = true ∧ ∃ w, s.eng = .busy w ∧
      ((∃ i, decodeWord w = .ok i ∧ t = complete (cmdOf i s)) ∨ t = complete (illegalCmd w s))) := by
  unfold engineMove at h
  split at h
  · exact .inl (by simpa using h.symm)
  · rename_i w hw
    split at h
    · refine .inr ⟨‹_›, w, hw, ?_⟩
      unfold completionStep at h
      split at h
      · rename_i i hi
        rw [exec_eq_finish] at h
        exact .inl ⟨i, hi, finish_next h⟩
      · exact .inr (finish_next h)
    · exact .inl (by simpa using h.symm)

/-- A property that reads neither the control fields nor the model's records, that commands, RW stores and resets keep,
is kept by every step. -/
theorem step_keeps {P : State → Prop}
    (hc : ∀ i, Keeps P (cmdOf i))
    (hx : ∀ s q d c w e x v a n r, P s → P { s with
      irqEn := q, done := d, cmdDropped := c, wrDropped := w, eng := e, errcode := x, readData := v, agenda := a
      draws := n, rstN := r })
    (hr : ∀ s, P s → P (resetBlock s)) (hs : ∀ v s r, P s → P (storeRegister v s r))
    {s t : State} (h : P s) (hstep : step s = .next t) : P t := by
  obtain ⟨u, hu, hm⟩ := step_cases hstep
  have hPu : P u := by
    rcases hu with rfl | ⟨m, rest, -, rfl⟩
    · exact h
    · exact hx s s.irqEn s.done s.cmdDropped s.wrDropped s.eng s.errcode s.readData rest s.draws s.rstN h
  clear hu h
  have hcw : ∀ w u, P u → P (completeWith w u) := fun w u hu =>
    hx u u.irqEn true u.cmdDropped u.wrDropped .idle w u.readData u.agenda u.draws u.rstN hu
  rcases hm with hm | ⟨x, rfl⟩ | ⟨b, rfl⟩
  · rcases engineMove_cases hm with rfl | ⟨-, w, -, ⟨i, -, rfl⟩ | rfl⟩
    · exact hPu
    · obtain ⟨w, hw⟩ := complete_eq (cmdOf i u)
      rw [hw]
      exact hcw _ _ (hc i u hPu)
    · exact hcw _ _ hPu
  · rcases hostTransaction_cases x u with ⟨-, -, h⟩ | ⟨-, ⟨v, d, h⟩ | ⟨q, d, c, w, -, -, h⟩ | ⟨-, -, v, h⟩ | ⟨-, -, v, r, h⟩⟩
    · rw [h]; exact hr u hPu
    · rw [h]
      exact hx u u.irqEn u.done u.cmdDropped u.wrDropped u.eng u.errcode v u.agenda d u.rstN hPu
    · rw [h]
      exact hx u q d c w u.eng u.errcode u.readData u.agenda u.draws u.rstN hPu
    · rw [h]
      exact hx u u.irqEn false u.cmdDropped u.wrDropped (.busy v) 0 u.readData u.agenda u.draws u.rstN hPu
    · rw [h]; exact hs v u r hPu
  · unfold setResetPin
    split
    · exact hx u u.irqEn u.done u.cmdDropped u.wrDropped u.eng u.errcode u.readData u.agenda u.draws true hPu
    · have h2 := hr u hPu
      exact hx _ (resetBlock u).irqEn (resetBlock u).done (resetBlock u).cmdDropped (resetBlock u).wrDropped
        (resetBlock u).eng (resetBlock u).errcode (resetBlock u).readData (resetBlock u).agenda (resetBlock u).draws false h2

/-! ### Frames -/

theorem cbufAt_congr {s t : State} (h1 : t.cbuf = s.cbuf) (h2 : t.epoch = s.epoch) (a : Nat) :
    t.cbufAt a = s.cbufAt a := by simp only [State.cbufAt, h1, h2]

theorem sinAt_congr {s t : State} (h1 : t.sin = s.sin) (h2 : t.epoch = s.epoch) (a : Nat) :
    t.sinAt a = s.sinAt a := by simp only [State.sinAt, h1, h2]

/-- The buffers after a command: SIN as before, and CBUF too, but that a successful SERIALIZE or COMPRESS has written
its container (R194, R352). -/
theorem cmdOf_buffers (i : Instr) (s : State) :
    (complete (cmdOf i s)).sin = s.sin ∧ (complete (cmdOf i s)).epoch = s.epoch
    ∧ ((complete (cmdOf i s)).cbuf = s.cbuf
      ∨ ((complete (cmdOf i s)).errcode = 0
        ∧ ((i = .serialize
            ∧ (complete (cmdOf i s)).cbuf = Memory.writeList s.cbuf 0 (container s.ftEntries s.pkBytes))
          ∨ (i = .compress
            ∧ (complete (cmdOf i s)).cbuf = Memory.writeList s.cbuf 0
                (container (complete (cmdOf i s)).ftEntries (complete (cmdOf i s)).pkBytes))))) := by
  cases i <;> simp only [cmdOf]
  case compress =>
    rcases compressCmd_cases s with ⟨-, h⟩ | ⟨-, -, -, h⟩ | ⟨-, -, h⟩ | ⟨_, _, -, ⟨-, h⟩ | ⟨-, _, _, h⟩⟩ <;>
    rw [h] <;> refine ⟨rfl, rfl, ?_⟩
    case inr.inr.inr.inl => exact .inr ⟨rfl, .inr ⟨by trivial, rfl⟩⟩
    all_goals exact .inl rfl
  case decompress =>
    rcases decompressCmd_cases s with ⟨-, h⟩ | ⟨-, -, h⟩
      | ⟨-, _, _, -, -, ⟨-, h⟩ | ⟨_, -, ⟨-, h⟩ | ⟨_, -, ⟨-, h⟩ | ⟨_, -, -, ⟨-, h⟩ | ⟨-, h⟩⟩⟩⟩⟩ <;>
    rw [h] <;> exact ⟨rfl, rfl, .inl rfl⟩
  · exact ⟨rfl, rfl, .inl rfl⟩
  · rcases ftBuildCmd_cases s with ⟨-, -, h⟩ | ⟨-, h⟩ | ⟨-, -, -, h⟩ <;> rw [h] <;> exact ⟨rfl, rfl, .inl rfl⟩
  · rcases treeBuildCmd_cases s with ⟨-, h⟩ | ⟨-, h⟩ | ⟨_, _, -, -, -, h⟩ <;> rw [h] <;> exact ⟨rfl, rfl, .inl rfl⟩
  · rcases cbGenCmd_cases s with ⟨-, h⟩ | ⟨_, -, h⟩ <;> rw [h] <;> exact ⟨rfl, rfl, .inl rfl⟩
  · rcases encodeCmd_cases s with ⟨-, h⟩ | ⟨_, -, ⟨-, -, -, h⟩ | ⟨-, h⟩ | ⟨-, -, h⟩ | ⟨-, -, -, h⟩⟩ <;>
    rw [h] <;> exact ⟨rfl, rfl, .inl rfl⟩
  · rcases packCmd_cases s with ⟨-, h⟩ | ⟨_, -, ⟨-, h⟩ | ⟨-, h⟩⟩ <;> rw [h] <;> exact ⟨rfl, rfl, .inl rfl⟩
  · rcases serializeCmd_cases s with ⟨-, h⟩
      | ⟨ft, pk, hft, hpk, ⟨-, h⟩ | ⟨-, -, h⟩ | ⟨-, -, -, h⟩ | ⟨-, -, -, h⟩⟩ <;>
    rw [h] <;> refine ⟨rfl, rfl, ?_⟩
    case inr.inr.inr.inr =>
      exact .inr ⟨rfl, .inl ⟨by trivial, by simp [complete, completeWith, State.ftEntries, State.pkBytes, hft, hpk]⟩⟩
    all_goals exact .inl rfl
  · rcases deserializeCmd_cases s with ⟨-, h⟩ | ⟨-, -, h⟩ | ⟨-, _, _, -, -, h⟩ <;> rw [h] <;> exact ⟨rfl, rfl, .inl rfl⟩
  · rcases unpackCmd_cases s with ⟨-, h⟩ | ⟨_, -, ⟨-, h⟩ | ⟨_, -, h⟩⟩ <;> rw [h] <;> exact ⟨rfl, rfl, .inl rfl⟩
  · rcases decodeCmd_cases s with ⟨-, h⟩ | ⟨_, _, -, -, ⟨-, h⟩ | ⟨_, -, ⟨-, h⟩ | ⟨-, -, h⟩ | ⟨-, -, h⟩⟩⟩ <;>
    rw [h] <;> exact ⟨rfl, rfl, .inl rfl⟩

/-- No command touches the parameters or the reset pin. -/
theorem cmdOf_keeps_pins (c : Params) (b : Bool) (i : Instr) :
    Keeps (fun t => t.cfg = c ∧ t.rstN = b) (cmdOf i) := by
  refine cmdOf_keeps ?_ ?_ ?_ ?_ ?_ ?_ ?_ ?_ ?_ i <;> intro u hu
  · rcases ftBuildCmd_cases u with ⟨-, -, h⟩ | ⟨-, h⟩ | ⟨-, -, -, h⟩ <;> rw [h] <;> exact hu
  · rcases treeBuildCmd_cases u with ⟨-, h⟩ | ⟨-, h⟩ | ⟨_, _, -, -, -, h⟩ <;> rw [h] <;> exact hu
  · rcases cbGenCmd_cases u with ⟨-, h⟩ | ⟨_, -, h⟩ <;> rw [h] <;> exact hu
  · rcases encodeCmd_cases u with ⟨-, h⟩ | ⟨_, -, ⟨-, -, -, h⟩ | ⟨-, h⟩ | ⟨-, -, h⟩ | ⟨-, -, -, h⟩⟩ <;>
    rw [h] <;> exact hu
  · rcases packCmd_cases u with ⟨-, h⟩ | ⟨_, -, ⟨-, h⟩ | ⟨-, h⟩⟩ <;> rw [h] <;> exact hu
  · rcases serializeCmd_cases u with ⟨-, h⟩ | ⟨_, _, -, -, ⟨-, h⟩ | ⟨-, -, h⟩ | ⟨-, -, -, h⟩ | ⟨-, -, -, h⟩⟩ <;>
    rw [h] <;> exact hu
  · rcases deserializeCmd_cases u with ⟨-, h⟩ | ⟨-, -, h⟩ | ⟨-, _, _, -, -, h⟩ <;> rw [h] <;> exact hu
  · rcases unpackCmd_cases u with ⟨-, h⟩ | ⟨_, -, ⟨-, h⟩ | ⟨_, -, h⟩⟩ <;> rw [h] <;> exact hu
  · rcases decodeCmd_cases u with ⟨-, h⟩ | ⟨_, _, -, -, ⟨-, h⟩ | ⟨_, -, ⟨-, h⟩ | ⟨-, -, h⟩ | ⟨-, -, h⟩⟩⟩ <;>
    rw [h] <;> exact hu

/-! ### The control fields and reset -/

theorem control_of_idle {s : State} (h1 : s.eng = .idle) (h2 : s.errcode = 0 ∨ ∃ e st, s.errcode = errorWord e st) :
    ControlOk s := ⟨fun h => by simp [State.busy, h1] at h, fun h => by simp [State.busy, h1] at h, h2⟩

/-- Every completion leaves the control fields as they must be. -/
theorem control_complete (r : CmdResult) : ControlOk (complete r) := by
  refine control_of_idle (complete_eng r).1 ?_
  cases r with
  | ok s => exact .inl rfl
  | err e st s => exact .inr ⟨e, st, rfl⟩

theorem held_of_high {s : State} (h : s.rstN = true) : HeldInReset s := fun h' => by rw [h] at h'; cases h'

/-- With legal parameters the reset values meet the invariant. -/
theorem resetFor_inv {p : Params} (h : p.wf = true) : (State.resetFor p).Inv where
  params := h
  buffers := ⟨rfl, rfl, rfl, rfl⟩
  stores := storesOk_table (fun _ h => (nomatch h)) rfl rfl
  lengths := ⟨fun _ h => (nomatch h), fun _ h => (nomatch h), Nat.zero_le _, fun _ h => (nomatch h)⟩
  control := control_of_idle rfl (.inl rfl)
  held := held_of_high rfl

end Sys2Proof.Machine
end

