-- ==== Sys2Proof/Laws/PerInstr.lean ====
section
/-! SUPPORT. The family WordForm: a statement about each instruction as syntax, its well-formedness and its word. -/

namespace Sys2Proof.Laws.WordForm

open Sys2Proof

/-- The instruction is well formed, its word is a legal command word that carries nothing but the opcode in bits 7:0,
and that word decodes to the instruction. -/
def Statement (i : Instr) : Prop :=
  i.wf = true ∧ wordWf (encode i) = true ∧ (encode i).toNat = (opcodeOf i).toNat ∧ decodeWord (encode i) = .ok i

/-- The three last parts hold of every instruction; the first is checked per constructor. -/
theorem of_wf {i : Instr} (h : i.wf = true) : Statement i :=
  ⟨h, (decodeWord_isOk _).1 ⟨i, (decodeWord_eq_ok _ _).2 rfl⟩, encode_toNat i,
    (decodeWord_eq_ok _ _).2 rfl⟩

theorem nop : Statement .nop := of_wf rfl

theorem ftBuild : Statement .ftBuild := of_wf rfl

theorem treeBuild : Statement .treeBuild := of_wf rfl

theorem cbGen : Statement .cbGen := of_wf rfl

theorem encode : Statement .encode := of_wf rfl

theorem pack : Statement .pack := of_wf rfl

theorem serialize : Statement .serialize := of_wf rfl

theorem deserialize : Statement .deserialize := of_wf rfl

theorem unpack : Statement .unpack := of_wf rfl

theorem decode : Statement .decode := of_wf rfl

theorem compress : Statement .compress := of_wf rfl

theorem decompress : Statement .decompress := of_wf rfl

end Sys2Proof.Laws.WordForm
end

