-- ==== Sys2Proof/Laws/State.lean ====
section
/-! SUPPORT. What each named update of the state does to each field: one lemma per field per update. -/

namespace Sys2Proof.Machine

open Sys2Proof

/-! ### `completeWith`: the completion step sets ERRCODE, eng and DONE -/

@[simp] theorem completeWith_cfg (w : Word) (s : State) : (completeWith w s).cfg = s.cfg := rfl
@[simp] theorem completeWith_rstN (w : Word) (s : State) : (completeWith w s).rstN = s.rstN := rfl
@[simp] theorem completeWith_eng (w : Word) (s : State) : (completeWith w s).eng = .idle := rfl
@[simp] theorem completeWith_irqEn (w : Word) (s : State) : (completeWith w s).irqEn = s.irqEn := rfl
@[simp] theorem completeWith_done (w : Word) (s : State) : (completeWith w s).done = true := rfl
@[simp] theorem completeWith_cmdDropped (w : Word) (s : State) : (completeWith w s).cmdDropped = s.cmdDropped := rfl
@[simp] theorem completeWith_wrDropped (w : Word) (s : State) : (completeWith w s).wrDropped = s.wrDropped := rfl
@[simp] theorem completeWith_errcode (w : Word) (s : State) : (completeWith w s).errcode = w := rfl
@[simp] theorem completeWith_sinLen (w : Word) (s : State) : (completeWith w s).sinLen = s.sinLen := rfl
@[simp] theorem completeWith_sinIdx (w : Word) (s : State) : (completeWith w s).sinIdx = s.sinIdx := rfl
@[simp] theorem completeWith_cbufLen (w : Word) (s : State) : (completeWith w s).cbufLen = s.cbufLen := rfl
@[simp] theorem completeWith_cbufIdx (w : Word) (s : State) : (completeWith w s).cbufIdx = s.cbufIdx := rfl
@[simp] theorem completeWith_soutIdx (w : Word) (s : State) : (completeWith w s).soutIdx = s.soutIdx := rfl
@[simp] theorem completeWith_ftIdx (w : Word) (s : State) : (completeWith w s).ftIdx = s.ftIdx := rfl
@[simp] theorem completeWith_cbBitpos (w : Word) (s : State) : (completeWith w s).cbBitpos = s.cbBitpos := rfl
@[simp] theorem completeWith_bitsIdx (w : Word) (s : State) : (completeWith w s).bitsIdx = s.bitsIdx := rfl
@[simp] theorem completeWith_pkIdx (w : Word) (s : State) : (completeWith w s).pkIdx = s.pkIdx := rfl
@[simp] theorem completeWith_origBytes (w : Word) (s : State) : (completeWith w s).origBytes = s.origBytes := rfl
@[simp] theorem completeWith_compBytes (w : Word) (s : State) : (completeWith w s).compBytes = s.compBytes := rfl
@[simp] theorem completeWith_ft (w : Word) (s : State) : (completeWith w s).ft = s.ft := rfl
@[simp] theorem completeWith_tree (w : Word) (s : State) : (completeWith w s).tree = s.tree := rfl
@[simp] theorem completeWith_cb (w : Word) (s : State) : (completeWith w s).cb = s.cb := rfl
@[simp] theorem completeWith_bits (w : Word) (s : State) : (completeWith w s).bits = s.bits := rfl
@[simp] theorem completeWith_pk (w : Word) (s : State) : (completeWith w s).pk = s.pk := rfl
@[simp] theorem completeWith_sin (w : Word) (s : State) : (completeWith w s).sin = s.sin := rfl
@[simp] theorem completeWith_cbuf (w : Word) (s : State) : (completeWith w s).cbuf = s.cbuf := rfl
@[simp] theorem completeWith_sout (w : Word) (s : State) : (completeWith w s).sout = s.sout := rfl
@[simp] theorem completeWith_readData (w : Word) (s : State) : (completeWith w s).readData = s.readData := rfl
@[simp] theorem completeWith_agenda (w : Word) (s : State) : (completeWith w s).agenda = s.agenda := rfl
@[simp] theorem completeWith_epoch (w : Word) (s : State) : (completeWith w s).epoch = s.epoch := rfl
@[simp] theorem completeWith_draws (w : Word) (s : State) : (completeWith w s).draws = s.draws := rfl

/-! ### `accept`: acceptance latches the word and clears DONE and ERRCODE -/

@[simp] theorem accept_cfg (w : Word) (s : State) : (accept w s).cfg = s.cfg := rfl
@[simp] theorem accept_rstN (w : Word) (s : State) : (accept w s).rstN = s.rstN := rfl
@[simp] theorem accept_eng (w : Word) (s : State) : (accept w s).eng = .busy w := rfl
@[simp] theorem accept_irqEn (w : Word) (s : State) : (accept w s).irqEn = s.irqEn := rfl
@[simp] theorem accept_done (w : Word) (s : State) : (accept w s).done = false := rfl
@[simp] theorem accept_cmdDropped (w : Word) (s : State) : (accept w s).cmdDropped = s.cmdDropped := rfl
@[simp] theorem accept_wrDropped (w : Word) (s : State) : (accept w s).wrDropped = s.wrDropped := rfl
@[simp] theorem accept_errcode (w : Word) (s : State) : (accept w s).errcode = 0 := rfl
@[simp] theorem accept_sinLen (w : Word) (s : State) : (accept w s).sinLen = s.sinLen := rfl
@[simp] theorem accept_sinIdx (w : Word) (s : State) : (accept w s).sinIdx = s.sinIdx := rfl
@[simp] theorem accept_cbufLen (w : Word) (s : State) : (accept w s).cbufLen = s.cbufLen := rfl
@[simp] theorem accept_cbufIdx (w : Word) (s : State) : (accept w s).cbufIdx = s.cbufIdx := rfl
@[simp] theorem accept_soutIdx (w : Word) (s : State) : (accept w s).soutIdx = s.soutIdx := rfl
@[simp] theorem accept_ftIdx (w : Word) (s : State) : (accept w s).ftIdx = s.ftIdx := rfl
@[simp] theorem accept_cbBitpos (w : Word) (s : State) : (accept w s).cbBitpos = s.cbBitpos := rfl
@[simp] theorem accept_bitsIdx (w : Word) (s : State) : (accept w s).bitsIdx = s.bitsIdx := rfl
@[simp] theorem accept_pkIdx (w : Word) (s : State) : (accept w s).pkIdx = s.pkIdx := rfl
@[simp] theorem accept_origBytes (w : Word) (s : State) : (accept w s).origBytes = s.origBytes := rfl
@[simp] theorem accept_compBytes (w : Word) (s : State) : (accept w s).compBytes = s.compBytes := rfl
@[simp] theorem accept_ft (w : Word) (s : State) : (accept w s).ft = s.ft := rfl
@[simp] theorem accept_tree (w : Word) (s : State) : (accept w s).tree = s.tree := rfl
@[simp] theorem accept_cb (w : Word) (s : State) : (accept w s).cb = s.cb := rfl
@[simp] theorem accept_bits (w : Word) (s : State) : (accept w s).bits = s.bits := rfl
@[simp] theorem accept_pk (w : Word) (s : State) : (accept w s).pk = s.pk := rfl
@[simp] theorem accept_sin (w : Word) (s : State) : (accept w s).sin = s.sin := rfl
@[simp] theorem accept_cbuf (w : Word) (s : State) : (accept w s).cbuf = s.cbuf := rfl
@[simp] theorem accept_sout (w : Word) (s : State) : (accept w s).sout = s.sout := rfl
@[simp] theorem accept_readData (w : Word) (s : State) : (accept w s).readData = s.readData := rfl
@[simp] theorem accept_agenda (w : Word) (s : State) : (accept w s).agenda = s.agenda := rfl
@[simp] theorem accept_epoch (w : Word) (s : State) : (accept w s).epoch = s.epoch := rfl
@[simp] theorem accept_draws (w : Word) (s : State) : (accept w s).draws = s.draws := rfl

/-! ### `clearTables`: the tables become invalid -/

@[simp] theorem clearTables_cfg (s : State) : (s.clearTables).cfg = s.cfg := rfl
@[simp] theorem clearTables_rstN (s : State) : (s.clearTables).rstN = s.rstN := rfl
@[simp] theorem clearTables_eng (s : State) : (s.clearTables).eng = s.eng := rfl
@[simp] theorem clearTables_irqEn (s : State) : (s.clearTables).irqEn = s.irqEn := rfl
@[simp] theorem clearTables_done (s : State) : (s.clearTables).done = s.done := rfl
@[simp] theorem clearTables_cmdDropped (s : State) : (s.clearTables).cmdDropped = s.cmdDropped := rfl
@[simp] theorem clearTables_wrDropped (s : State) : (s.clearTables).wrDropped = s.wrDropped := rfl
@[simp] theorem clearTables_errcode (s : State) : (s.clearTables).errcode = s.errcode := rfl
@[simp] theorem clearTables_sinLen (s : State) : (s.clearTables).sinLen = s.sinLen := rfl
@[simp] theorem clearTables_sinIdx (s : State) : (s.clearTables).sinIdx = s.sinIdx := rfl
@[simp] theorem clearTables_cbufLen (s : State) : (s.clearTables).cbufLen = s.cbufLen := rfl
@[simp] theorem clearTables_cbufIdx (s : State) : (s.clearTables).cbufIdx = s.cbufIdx := rfl
@[simp] theorem clearTables_soutIdx (s : State) : (s.clearTables).soutIdx = s.soutIdx := rfl
@[simp] theorem clearTables_ftIdx (s : State) : (s.clearTables).ftIdx = s.ftIdx := rfl
@[simp] theorem clearTables_cbBitpos (s : State) : (s.clearTables).cbBitpos = s.cbBitpos := rfl
@[simp] theorem clearTables_bitsIdx (s : State) : (s.clearTables).bitsIdx = s.bitsIdx := rfl
@[simp] theorem clearTables_pkIdx (s : State) : (s.clearTables).pkIdx = s.pkIdx := rfl
@[simp] theorem clearTables_origBytes (s : State) : (s.clearTables).origBytes = s.origBytes := rfl
@[simp] theorem clearTables_compBytes (s : State) : (s.clearTables).compBytes = s.compBytes := rfl
@[simp] theorem clearTables_ft (s : State) : (s.clearTables).ft = none := rfl
@[simp] theorem clearTables_tree (s : State) : (s.clearTables).tree = none := rfl
@[simp] theorem clearTables_cb (s : State) : (s.clearTables).cb = none := rfl
@[simp] theorem clearTables_bits (s : State) : (s.clearTables).bits = s.bits := rfl
@[simp] theorem clearTables_pk (s : State) : (s.clearTables).pk = s.pk := rfl
@[simp] theorem clearTables_sin (s : State) : (s.clearTables).sin = s.sin := rfl
@[simp] theorem clearTables_cbuf (s : State) : (s.clearTables).cbuf = s.cbuf := rfl
@[simp] theorem clearTables_sout (s : State) : (s.clearTables).sout = s.sout := rfl
@[simp] theorem clearTables_readData (s : State) : (s.clearTables).readData = s.readData := rfl
@[simp] theorem clearTables_agenda (s : State) : (s.clearTables).agenda = s.agenda := rfl
@[simp] theorem clearTables_epoch (s : State) : (s.clearTables).epoch = s.epoch := rfl
@[simp] theorem clearTables_draws (s : State) : (s.clearTables).draws = s.draws := rfl

/-! ### `clearParsed`: the tables and PK become invalid -/

@[simp] theorem clearParsed_cfg (s : State) : (s.clearParsed).cfg = s.cfg := rfl
@[simp] theorem clearParsed_rstN (s : State) : (s.clearParsed).rstN = s.rstN := rfl
@[simp] theorem clearParsed_eng (s : State) : (s.clearParsed).eng = s.eng := rfl
@[simp] theorem clearParsed_irqEn (s : State) : (s.clearParsed).irqEn = s.irqEn := rfl
@[simp] theorem clearParsed_done (s : State) : (s.clearParsed).done = s.done := rfl
@[simp] theorem clearParsed_cmdDropped (s : State) : (s.clearParsed).cmdDropped = s.cmdDropped := rfl
@[simp] theorem clearParsed_wrDropped (s : State) : (s.clearParsed).wrDropped = s.wrDropped := rfl
@[simp] theorem clearParsed_errcode (s : State) : (s.clearParsed).errcode = s.errcode := rfl
@[simp] theorem clearParsed_sinLen (s : State) : (s.clearParsed).sinLen = s.sinLen := rfl
@[simp] theorem clearParsed_sinIdx (s : State) : (s.clearParsed).sinIdx = s.sinIdx := rfl
@[simp] theorem clearParsed_cbufLen (s : State) : (s.clearParsed).cbufLen = s.cbufLen := rfl
@[simp] theorem clearParsed_cbufIdx (s : State) : (s.clearParsed).cbufIdx = s.cbufIdx := rfl
@[simp] theorem clearParsed_soutIdx (s : State) : (s.clearParsed).soutIdx = s.soutIdx := rfl
@[simp] theorem clearParsed_ftIdx (s : State) : (s.clearParsed).ftIdx = s.ftIdx := rfl
@[simp] theorem clearParsed_cbBitpos (s : State) : (s.clearParsed).cbBitpos = s.cbBitpos := rfl
@[simp] theorem clearParsed_bitsIdx (s : State) : (s.clearParsed).bitsIdx = s.bitsIdx := rfl
@[simp] theorem clearParsed_pkIdx (s : State) : (s.clearParsed).pkIdx = s.pkIdx := rfl
@[simp] theorem clearParsed_origBytes (s : State) : (s.clearParsed).origBytes = s.origBytes := rfl
@[simp] theorem clearParsed_compBytes (s : State) : (s.clearParsed).compBytes = s.compBytes := rfl
@[simp] theorem clearParsed_ft (s : State) : (s.clearParsed).ft = none := rfl
@[simp] theorem clearParsed_tree (s : State) : (s.clearParsed).tree = none := rfl
@[simp] theorem clearParsed_cb (s : State) : (s.clearParsed).cb = none := rfl
@[simp] theorem clearParsed_bits (s : State) : (s.clearParsed).bits = s.bits := rfl
@[simp] theorem clearParsed_pk (s : State) : (s.clearParsed).pk = none := rfl
@[simp] theorem clearParsed_sin (s : State) : (s.clearParsed).sin = s.sin := rfl
@[simp] theorem clearParsed_cbuf (s : State) : (s.clearParsed).cbuf = s.cbuf := rfl
@[simp] theorem clearParsed_sout (s : State) : (s.clearParsed).sout = s.sout := rfl
@[simp] theorem clearParsed_readData (s : State) : (s.clearParsed).readData = s.readData := rfl
@[simp] theorem clearParsed_agenda (s : State) : (s.clearParsed).agenda = s.agenda := rfl
@[simp] theorem clearParsed_epoch (s : State) : (s.clearParsed).epoch = s.epoch := rfl
@[simp] theorem clearParsed_draws (s : State) : (s.clearParsed).draws = s.draws := rfl

/-! ### `resetBlock`: a reset gives every value of R75 and a new epoch -/

@[simp] theorem resetBlock_cfg (s : State) : (resetBlock s).cfg = s.cfg := rfl
@[simp] theorem resetBlock_rstN (s : State) : (resetBlock s).rstN = s.rstN := rfl
@[simp] theorem resetBlock_eng (s : State) : (resetBlock s).eng = .idle := rfl
@[simp] theorem resetBlock_irqEn (s : State) : (resetBlock s).irqEn = false := rfl
@[simp] theorem resetBlock_done (s : State) : (resetBlock s).done = false := rfl
@[simp] theorem resetBlock_cmdDropped (s : State) : (resetBlock s).cmdDropped = false := rfl
@[simp] theorem resetBlock_wrDropped (s : State) : (resetBlock s).wrDropped = false := rfl
@[simp] theorem resetBlock_errcode (s : State) : (resetBlock s).errcode = 0 := rfl
@[simp] theorem resetBlock_sinLen (s : State) : (resetBlock s).sinLen = 0 := rfl
@[simp] theorem resetBlock_sinIdx (s : State) : (resetBlock s).sinIdx = 0 := rfl
@[simp] theorem resetBlock_cbufLen (s : State) : (resetBlock s).cbufLen = 0 := rfl
@[simp] theorem resetBlock_cbufIdx (s : State) : (resetBlock s).cbufIdx = 0 := rfl
@[simp] theorem resetBlock_soutIdx (s : State) : (resetBlock s).soutIdx = 0 := rfl
@[simp] theorem resetBlock_ftIdx (s : State) : (resetBlock s).ftIdx = 0 := rfl
@[simp] theorem resetBlock_cbBitpos (s : State) : (resetBlock s).cbBitpos = 0 := rfl
@[simp] theorem resetBlock_bitsIdx (s : State) : (resetBlock s).bitsIdx = 0 := rfl
@[simp] theorem resetBlock_pkIdx (s : State) : (resetBlock s).pkIdx = 0 := rfl
@[simp] theorem resetBlock_origBytes (s : State) : (resetBlock s).origBytes = 0 := rfl
@[simp] theorem resetBlock_compBytes (s : State) : (resetBlock s).compBytes = 0 := rfl
@[simp] theorem resetBlock_ft (s : State) : (resetBlock s).ft = none := rfl
@[simp] theorem resetBlock_tree (s : State) : (resetBlock s).tree = none := rfl
@[simp] theorem resetBlock_cb (s : State) : (resetBlock s).cb = none := rfl
@[simp] theorem resetBlock_bits (s : State) : (resetBlock s).bits = none := rfl
@[simp] theorem resetBlock_pk (s : State) : (resetBlock s).pk = none := rfl
@[simp] theorem resetBlock_sin (s : State) : (resetBlock s).sin = [] := rfl
@[simp] theorem resetBlock_cbuf (s : State) : (resetBlock s).cbuf = [] := rfl
@[simp] theorem resetBlock_sout (s : State) : (resetBlock s).sout = [] := rfl
@[simp] theorem resetBlock_readData (s : State) : (resetBlock s).readData = s.readData := rfl
@[simp] theorem resetBlock_agenda (s : State) : (resetBlock s).agenda = s.agenda := rfl
@[simp] theorem resetBlock_epoch (s : State) : (resetBlock s).epoch = s.epoch + 1 := rfl
@[simp] theorem resetBlock_draws (s : State) : (resetBlock s).draws = s.draws := rfl

end Sys2Proof.Machine
end

