-- ==== Sys2Proof/Tests/Slice0.lean ====
section
/-! SUPPORT. The model's own tests: the smoke tests of WellFormed, every command's word, at most two vectors per command,
and a witness for the hypotheses of every obligation. The expected results are those of spec/95_test_vectors.md
(the section is named at each group) or written out from the encodings of spec/30_encoding.md. -/

set_option Elab.async false

namespace Sys2Proof.Tests

open Sys2Proof Sys2Proof.Machine

/-! ### Small states -/

/-- Small legal parameters. -/
def small : Params := ⟨0, 64, 64, 64⟩

/-- A block after reset. -/
def fresh : State := State.resetFor small

/-- The elements of a list at indices 0, 1, ... -/
def listed {α : Type} (xs : List α) : Memory α := (List.range xs.length).zip xs

/-- A block after LOADSIN (R147). -/
def withText (xs : List Word) (s : State) : State := { s with sin := listed xs, sinLen := asWord xs.length }

/-- A block after LOADCBUF (R147). -/
def withBytes (bs : List Byte) (s : State) : State := { s with cbuf := listed bs, cbufLen := asWord bs.length }

/-- The next state of an outcome, if it is one. -/
def after (o : Host.Outcome State Fault Refusal) : Option State :=
  match o with
  | .next s => some s
  | .fault _ => none
  | .refused _ => none

/-- One reading of the next state. -/
def reads {α : Type} (f : State → α) (o : Host.Outcome State Fault Refusal) : Option α := (after o).map f

/-- "abracadabra". -/
def abraText : List Word := [0x61, 0x62, 0x72, 0x61, 0x63, 0x61, 0x64, 0x61, 0x62, 0x72, 0x61]

/-- Its table (section 2.1). -/
def abraFt : List Entry := [⟨0x61, 5⟩, ⟨0x62, 2⟩, ⟨0x72, 2⟩, ⟨0x63, 1⟩, ⟨0x64, 1⟩]

/-- Its tree (section 2.2). -/
def abraTree : HuffTree :=
  .node (.leaf 0x61 5)
    (.node (.node (.leaf 0x63 1) (.leaf 0x64 1) 2) (.node (.leaf 0x62 2) (.leaf 0x72 2) 4) 6) 11

/-- Its codes (section 2.3). -/
def abraCb : List Code := [[false], [true, true, false], [true, true, true], [true, false, false], [true, false, true]]

/-- Its 23 bits: 0,110,111,0,100,0,101,0,110,111,0 (section 1, L1-1). -/
def abraBits : List Bool :=
  [false, true, true, false, true, true, true, false, true, false, false, false]
  ++ [true, false, true, false, true, true, false, true, true, true, false]

/-- Its packed section (section 1, L1-1). -/
def abraPk : List Byte := [0x01, 0x6E, 0x8A, 0xDC]

/-- Its container (section 1, L1-1). -/
def abraBytes : List Byte :=
  [0x00, 0x05, 0x01, 0x61, 0x00, 0x00, 0x00, 0x05, 0x01, 0x62, 0x00, 0x00, 0x00, 0x02]
  ++ [0x01, 0x72, 0x00, 0x00, 0x00, 0x02, 0x01, 0x63, 0x00, 0x00, 0x00, 0x01]
  ++ [0x01, 0x64, 0x00, 0x00, 0x00, 0x01] ++ [0x01, 0x6E, 0x8A, 0xDC]

/-- The degenerate tree of "aaaa" (section 1, L1-2). -/
def aTree : HuffTree := .node (.leaf 0x61 4) .placeholder 4

/-- A block that holds the text and the stores of "abracadabra", as the step commands up to PACK leave them. -/
def abraState : State :=
  { withText abraText fresh with
    ft := some abraFt, tree := some abraTree, cb := some abraCb, bits := some abraBits, pk := some abraPk }

/-- A block with the container of "abracadabra" in CBUF. -/
def abraLoaded : State := withBytes abraBytes fresh

/-! ### Smoke tests: each check refuses an ill-formed term -/

theorem test_wf_all_commands : [Instr.nop, .ftBuild, .treeBuild, .cbGen, .encode, .pack, .serialize, .deserialize,
    .unpack, .decode, .compress, .decompress].all Instr.wf = true := by decide

theorem test_wf_refuses_rsv : rsvClear 0x00000100 = false ∧ rsvClear 0x80000001 = false := by decide

theorem test_wf_refuses_opcode : opcodeInUse 0x0A = false ∧ opcodeInUse 0x0F = false ∧ opcodeInUse 0x12 = false
    ∧ opcodeInUse 0xFF = false := by decide

theorem test_wf_refuses_word : wordWf 0x0000000A = false ∧ wordWf 0x00000110 = false ∧ wordWf 0x00000011 = true := by
  decide

theorem test_params_wf : small.wf = true ∧ Params.wf ⟨256, 2 ^ 30 - 1, 2 ^ 29 - 1, 2 ^ 32 - 1⟩ = true := by decide

theorem test_params_refuse_base : Params.wf ⟨128, 64, 64, 64⟩ = false := by decide

theorem test_params_refuse_sinCap : Params.wf ⟨0, 0, 64, 64⟩ = false ∧ Params.wf ⟨0, 2 ^ 30, 64, 64⟩ = false := by decide

theorem test_params_refuse_cbufCap : Params.wf ⟨0, 64, 0, 64⟩ = false ∧ Params.wf ⟨0, 64, 2 ^ 29, 64⟩ = false := by decide

theorem test_params_refuse_soutCap : Params.wf ⟨0, 64, 64, 0⟩ = false ∧ Params.wf ⟨0, 64, 64, 2 ^ 32⟩ = false := by decide

/-! ### Decoding: every command's word, bit by bit (R140, R141), and words that are no command (R144) -/

theorem test_decode_nop : decodeTableWord 32 0b00000000000000000000000000000000 = some .nop := by decide

theorem test_decode_ftBuild : decodeTableWord 32 0b00000000000000000000000000000001 = some .ftBuild := by decide

theorem test_decode_treeBuild : decodeTableWord 32 0b00000000000000000000000000000010 = some .treeBuild := by decide

theorem test_decode_cbGen : decodeTableWord 32 0b00000000000000000000000000000011 = some .cbGen := by decide

theorem test_decode_encode : decodeTableWord 32 0b00000000000000000000000000000100 = some .encode := by decide

theorem test_decode_pack : decodeTableWord 32 0b00000000000000000000000000000101 = some .pack := by decide

theorem test_decode_serialize : decodeTableWord 32 0b00000000000000000000000000000110 = some .serialize := by decide

theorem test_decode_deserialize : decodeTableWord 32 0b00000000000000000000000000000111 = some .deserialize := by decide

theorem test_decode_unpack : decodeTableWord 32 0b00000000000000000000000000001000 = some .unpack := by decide

theorem test_decode_decode : decodeTableWord 32 0b00000000000000000000000000001001 = some .decode := by decide

theorem test_decode_compress : decodeTableWord 32 0b00000000000000000000000000010000 = some .compress := by decide

theorem test_decode_decompress : decodeTableWord 32 0b00000000000000000000000000010001 = some .decompress := by decide

theorem test_decode_rejects : decodeTableWord 32 0x0A = none ∧ decodeTableWord 32 0x0F = none
    ∧ decodeTableWord 32 0x12 = none ∧ decodeTableWord 32 0xFF = none ∧ decodeTableWord 32 0x110 = none
    ∧ decodeTableWord 32 0x80000001 = none := by decide

/-! ### One or two vectors per command -/

/-- Section 2.10. -/
theorem test_nop : reads (fun t => (t.errcode, t.status)) (step (fresh.withFetchWord 32 0)) = some (0, 0x2) := by
  decide +kernel

/-- Section 2.10. -/
theorem test_illegal : reads (fun t => (t.errcode, t.status)) (step (fresh.withFetchWord 32 0xFF))
    = some (0xFF07, 0x6) := by decide +kernel

/-- Section 2.10: STEP shows bits 7:0 of a word whose RSV is not 0. -/
theorem test_illegal_rsv : reads State.errcode (step (fresh.withFetchWord 32 0x110)) = some 0x1007 := by decide +kernel

/-- Section 2.1. -/
theorem test_ftBuild : reads (fun t => (t.ft, t.origBytes)) (exec .ftBuild (withText abraText fresh))
    = some (some abraFt, 11) := by decide +kernel

/-- Section 2.1: multibyte symbols, in order of first occurrence. -/
theorem test_ftBuild_multibyte :
    reads (fun t => (t.ft, t.origBytes)) (exec .ftBuild (withText [0xE9, 0x20AC, 0xE9] fresh))
    = some (some [⟨0xE9, 2⟩, ⟨0x20AC, 1⟩], 7) := by decide +kernel

/-- Section 2.2. -/
theorem test_treeBuild : reads State.tree (exec .treeBuild { fresh with ft := some abraFt }) = some (some abraTree) := by
  decide +kernel

/-- Section 2.2: c (2, seq 2) is extracted before N3 (2, seq 3). -/
theorem test_treeBuild_tie :
    reads State.tree (exec .treeBuild { fresh with ft := some [⟨0x61, 1⟩, ⟨0x62, 1⟩, ⟨0x63, 2⟩] })
    = some (some (.node (.leaf 0x63 2) (.node (.leaf 0x61 1) (.leaf 0x62 1) 2) 4)) := by decide +kernel

/-- Section 2.3. -/
theorem test_cbGen : reads State.cb (exec .cbGen { fresh with ft := some abraFt, tree := some abraTree })
    = some (some abraCb) := by decide +kernel

/-- Section 2.3: the placeholder gets no code. -/
theorem test_cbGen_degenerate :
    reads State.cb (exec .cbGen { fresh with ft := some [⟨0x61, 4⟩], tree := some aTree })
    = some (some [[false]]) := by decide +kernel

/-- Section 2.4. -/
theorem test_encode : reads State.bits (exec .encode { abraState with bits := none }) = some (some abraBits) := by
  decide +kernel

/-- Section 2.4: "abc" under the codebook of "ab". -/
theorem test_encode_unknown :
    reads (fun t => (t.errcode, t.bits)) (exec .encode { withText [0x61, 0x62, 0x63] fresh with
      ft := some [⟨0x61, 1⟩, ⟨0x62, 1⟩], cb := some [[false], [true]] })
    = some (0x0409, none) := by decide +kernel

/-- Section 2.5. -/
theorem test_pack : reads State.pk (exec .pack abraState) = some (some abraPk) := by decide +kernel

/-- Section 2.5: 101100101. -/
theorem test_pack_nine :
    reads State.pk (exec .pack { fresh with bits := some [true, false, true, true, false, false, true, false, true] })
    = some (some [0x07, 0xB2, 0x80]) := by decide +kernel

/-- Section 2.6: the set padding bit is dropped. -/
theorem test_unpack : reads State.bits (exec .unpack { fresh with pk := some [0x01, 0xFF] })
    = some (some [true, true, true, true, true, true, true]) := by decide +kernel

/-- Section 2.6: p = 7 drops min(7, 0) bits of none. -/
theorem test_unpack_short : reads State.bits (exec .unpack { fresh with pk := some [0x07] }) = some (some []) := by
  decide +kernel

/-- Section 2.7. -/
theorem test_decode : reads State.sout (exec .decode abraState) = some (abraText.map BitVec.toNat) := by decide +kernel

/-- Section 2.7: the placeholder is reached at the first bit. -/
theorem test_decode_placeholder : reads (fun t => (t.errcode, t.sout)) (exec .decode { fresh with
      ft := some [⟨0x61, 4⟩], tree := some aTree, bits := some [true, false, false, false] })
    = some (0x0904, []) := by decide +kernel

/-- Section 2.8. -/
theorem test_serialize :
    reads (fun t => (t.cbufRead 0 36, t.cbufLen, t.compBytes)) (exec .serialize abraState)
    = some (abraBytes, 36, 36) := by decide +kernel

/-- Section 2.8: CBUF_CAP = 35, nothing written. -/
theorem test_serialize_full :
    reads (fun t => (t.errcode, t.cbuf, t.cbufLen)) (exec .serialize { abraState with cfg := ⟨0, 64, 35, 64⟩ })
    = some (0x0606, [], 0) := by decide +kernel

/-- Section 2.9. -/
theorem test_deserialize : reads (fun t => (t.ft, t.pk, t.validBits)) (exec .deserialize abraLoaded)
    = some (some abraFt, some abraPk, 0b10001) := by decide +kernel

/-- Section 2.9: a surrogate's bytes. -/
theorem test_deserialize_surrogate : reads (fun t => (t.errcode, t.validBits)) (exec .deserialize
      (withBytes [0x00, 0x01, 0x03, 0xED, 0xA0, 0x80, 0x00, 0x00, 0x00, 0x01, 0x07, 0x00] fresh))
    = some (0x0704, 0) := by decide +kernel

/-- Section 1, L1-1, by one step of the machine. -/
theorem test_compress :
    reads (fun t => (t.errcode, t.status, t.cbufRead 0 36, t.origBytes)) (step ((withText abraText fresh).withFetchWord 32 0x10))
    = some (0, 0x1F02, abraBytes, 11) := by decide +kernel

/-- Section 3, P5: the empty text. -/
theorem test_compress_empty : reads (fun t => (t.errcode, t.status)) (exec .compress fresh)
    = some (0x0201, 0x0106) := by decide +kernel

/-- Section 3, P2. -/
theorem test_decompress : reads (fun t => (t.errcode, t.status, t.sout)) (exec .decompress abraLoaded)
    = some (0, 0x1B02, abraText.map BitVec.toNat) := by decide +kernel

/-- Section 3, P4: the last byte dropped. -/
theorem test_decompress_truncated :
    reads (fun t => (t.errcode, t.status, t.sout)) (exec .decompress { abraLoaded with cbufLen := 35 })
    = some (0x0904, 0x1B06, []) := by decide +kernel

/-! ### Registers (section 2.12) -/

theorem test_id : (hostTransaction (.read 0x00 .word) fresh).readData = some 0x48554646 := by decide +kernel

theorem test_unaligned_and_short_reads : (hostTransaction (.read 0x00 .half) fresh).readData = some 0
    ∧ (hostTransaction (.read 0x01 .word) fresh).readData = some 0
    ∧ (hostTransaction (.read 0x78 .word) fresh).readData = some 0 := by decide +kernel

theorem test_cbuf_data_low_byte : (hostTransaction (.read 0x2C .word)
    (hostTransaction (.write 0x2C .word 0x1234) fresh)).readData = some 0x34 := by decide +kernel

theorem test_sin_data_beyond_end : hostTransaction (.write 0x20 .word 7) { fresh with sinIdx := 64 }
    = { fresh with sinIdx := 64 } := by decide +kernel

theorem test_ft_readback : (hostTransaction (.read 0x44 .word) { abraState with ftIdx := 2 }).readData = some 0x72
    ∧ (hostTransaction (.read 0x48 .word) { abraState with ftIdx := 2 }).readData = some 2
    ∧ (hostTransaction (.read 0x44 .word) { abraState with ftIdx := 5 }).readData = some 0 := by decide +kernel

/-- Section 3, P7, run a: a SIN_LEN write while BUSY is dropped and flagged. -/
theorem test_write_while_busy :
    hostTransaction (.write 0x18 .word 0) (accept 0x10 fresh) = { accept 0x10 fresh with wrDropped := true } := by
  decide +kernel

/-- Section 3, P8: a soft reset while BUSY. -/
theorem test_soft_reset_while_busy :
    (hostTransaction (.write 0x08 .word 2) (accept 0x11 abraState)).status = 0
    ∧ (hostTransaction (.write 0x08 .word 2) (accept 0x11 abraState)).eng = .idle := by decide +kernel

/-! ### The invariant on a concrete state -/

theorem abraFt_ok : TableOk abraFt where
  distinct := by decide
  scalars := by decide
  counts := by decide
  size := by decide

/-- A state with every store valid meets the invariant. -/
theorem abraState_inv : abraState.Inv where
  params := by decide
  buffers := ⟨by decide, by decide, by decide, by decide⟩
  stores := by
    refine ⟨?_, ?_, ?_⟩ <;> rintro x ⟨⟩
    · exact abraFt_ok
    · exact ⟨abraFt, rfl, by decide +kernel⟩
    · exact ⟨abraTree, rfl, by decide +kernel⟩
  lengths := by
    refine ⟨?_, ?_, by decide, fun x h => (nomatch h)⟩ <;> rintro x ⟨⟩ <;> decide
  control := control_of_idle rfl (.inl rfl)
  held := held_of_high rfl

/-- A BUSY state meets the invariant. -/
theorem busyState_inv : (accept 0x10 abraState).Inv :=
  ⟨abraState_inv.params, ⟨rfl, rfl, rfl, rfl⟩,
    ⟨abraState_inv.stores.table, abraState_inv.stores.tree, abraState_inv.stores.codebook⟩,
    ⟨abraState_inv.lengths.bits, abraState_inv.lengths.pk, abraState_inv.lengths.sout, abraState_inv.lengths.symbols⟩,
    ⟨fun _ => rfl, fun _ => rfl, .inl rfl⟩, held_of_high rfl⟩

/-! ### A witness for the hypotheses of each obligation -/

theorem test_hyp_ReservedWordsRunIllegalCommand :
    ∀ w ∈ ([0x0000000A, 0x0000000F, 0x00000012, 0x000000FF, 0x00000100, 0x80000001] : List Word),
      w.toNat / 2 ^ 8 ≠ 0 ∨ (0x0A ≤ w.toNat % 2 ^ 8 ∧ w.toNat % 2 ^ 8 ≤ 0x0F) ∨ 0x12 ≤ w.toNat % 2 ^ 8 := by
  intro w hw
  simp only [List.mem_cons, List.not_mem_nil, or_false] at hw
  rcases hw with rfl | rfl | rfl | rfl | rfl | rfl <;> decide

/-- BUSY with the agenda empty and with the engine to move; IDLE in the same two ways; a transaction and a pin level to
come. -/
theorem test_hyp_StepRunsTheDecodedCommand :
    ((accept 0x10 fresh).eng = .busy 0x10 ∧ (accept 0x10 fresh).rstN = true ∧ (accept 0x10 fresh).agenda = [])
    ∧ ((fresh.withFetchWord 32 0x10).eng = .busy 0x10 ∧ (fresh.withFetchWord 32 0x10).rstN = true
      ∧ (fresh.withFetchWord 32 0x10).agenda = [.engine])
    ∧ (fresh.eng = .idle ∧ fresh.rstN = true ∧ fresh.agenda = [])
    ∧ (let s := { fresh with agenda := [.engine, readMove .status] };
      s.eng = .idle ∧ s.agenda = .engine :: [readMove .status])
    ∧ ({ fresh with agenda := [readMove .status] } : State).agenda = .host (.read 0x0C .word) :: []
    ∧ ({ fresh with agenda := [.rstPin false] } : State).agenda = .rstPin false :: []
    ∧ decodeWord 0x10 = .ok .compress := ⟨⟨rfl, rfl, rfl⟩, ⟨rfl, rfl, rfl⟩, ⟨rfl, rfl, rfl⟩, ⟨rfl, rfl⟩, rfl, rfl, rfl⟩

/-- A poll, a dropped write, an IRQ_EN write and the pin staying high are no resets. -/
theorem test_hyp_AcceptedCommandCompletes :
    let s := { accept 0x10 fresh with agenda := [readMove .status, writeMove .sinLen 0, writeMove .ctrl 1, .rstPin true] }
    s.eng = .busy 0x10 ∧ s.rstN = true ∧ (s.agenda.all fun m => !resets m) = true := by decide +kernel

theorem test_hyp_FtBuildCountsTheText : (withText abraText fresh).sinLen.toNat ≤ small.sinCap
    ∧ Countable (withText abraText fresh).text ∧ small.wf = true := by
  refine ⟨by decide +kernel, ⟨by decide +kernel, by decide +kernel⟩, by decide⟩

/-- SIN_LEN one above SIN_CAP; the first word that is no scalar value, and the first surrogate. -/
theorem test_hyp_FtBuildErrors : small.sinCap < ({ fresh with sinLen := 65 } : State).sinLen.toNat
    ∧ (∃ x ∈ (withText [0x110000] fresh).text, scalar x = false)
    ∧ ∃ x ∈ (withText [0x61, 0xD800] fresh).text, scalar x = false := by
  refine ⟨by decide, ⟨0x110000, by decide +kernel, by decide⟩, ⟨0xD800, by decide +kernel, by decide⟩⟩

/-- A table of five entries, of two, and of one. -/
theorem test_hyp_TreeBuildShape : (abraState.ft = some abraFt ∧ abraFt ≠ [] ∧ 2 ≤ abraFt.length)
    ∧ (∀ ft ∈ [[⟨0x61, 1⟩, ⟨0x62, 1⟩], [⟨0x61, 4⟩]],
      ({ fresh with ft := some ft } : State).ft = some ft ∧ ft ≠ [] ∧ (2 ≤ ft.length ∨ ft.length = 1)) := by
  decide +kernel

theorem test_hyp_TreeBuildSmallTables : ({ fresh with ft := some [⟨0x61, 4⟩] } : State).ft = some [⟨0x61, 4⟩]
    ∧ ({ fresh with ft := some [] } : State).ft = some [] := by decide

theorem test_hyp_QueuePositionsIrrelevant :
    let x : QItem := ⟨1, 0, .leaf 0x61 1⟩
    let y : QItem := ⟨1, 1, .leaf 0x62 1⟩
    [y].length ≤ 1 ∧ [x, y].Perm [y, x] ∧ ([x, y].map QItem.seq).Nodup ∧ ∀ z ∈ [x, y], z.seq < 2 := by
  decide

theorem test_hyp_CbGenGivesRootPaths : abraState.Inv ∧ abraState.tree = some abraTree
    ∧ abraState.ftEntries[4]? = some ⟨0x64, 1⟩ := ⟨abraState_inv, rfl, rfl⟩

theorem test_hyp_CodebookIsPrefixFree : abraState.Inv ∧ abraState.cb = some abraCb := ⟨abraState_inv, rfl⟩

/-- 23 bits fit a CBUF_CAP of 3 bytes (24 bits). -/
theorem test_hyp_EncodeConcatenatesCodes :
    let s := { abraState with cfg := ⟨0, 11, 3, 64⟩ }
    s.cb = some abraCb ∧ s.sinLen.toNat ≤ s.cfg.sinCap ∧ (∀ x ∈ s.text, ∃ e ∈ s.ftEntries, e.sym = x)
    ∧ (codeBits s.ftEntries abraCb s.text).length ≤ 8 * s.cfg.cbufCap := by decide +kernel

/-- SIN_LEN one above SIN_CAP; a text with an unknown symbol; 23 bits against 16. -/
theorem test_hyp_EncodeErrors :
    (let s := { abraState with cfg := ⟨0, 10, 64, 64⟩ };
      s.cb = some abraCb ∧ s.cfg.sinCap < s.sinLen.toNat)
    ∧ (let s := withText [0x61, 0x7A] abraState;
      s.cb = some abraCb ∧ s.sinLen.toNat ≤ s.cfg.sinCap ∧ ∃ x ∈ s.text, ∀ e ∈ s.ftEntries, e.sym ≠ x)
    ∧ (let s := { abraState with cfg := ⟨0, 11, 2, 64⟩ };
      s.cb = some abraCb ∧ s.sinLen.toNat ≤ s.cfg.sinCap ∧ (∀ x ∈ s.text, ∃ e ∈ s.ftEntries, e.sym = x)
      ∧ 8 * s.cfg.cbufCap < (codeBits s.ftEntries abraCb s.text).length) := by decide +kernel

theorem test_hyp_EncodedLengthIsWeightedSum : abraState.cb = some abraCb
    ∧ abraState.ft = some (countsOf abraState.text) ∧ abraCb.length = abraState.ftEntries.length
    ∧ abraState.sinLen.toNat ≤ abraState.cfg.sinCap ∧ reads State.errcode (exec .encode abraState) = some 0 := by
  decide +kernel

/-- A section of 4 bytes against a CBUF_CAP of 4 and of 3. -/
theorem test_hyp_PackLaysOutTheBits :
    (let s := { abraState with cfg := ⟨0, 64, 4, 64⟩ };
      s.bits = some abraBits ∧ 1 + (abraBits.length + 7) / 8 ≤ s.cfg.cbufCap)
    ∧ (let s := { abraState with cfg := ⟨0, 64, 3, 64⟩ };
      s.bits = some abraBits ∧ s.cfg.cbufCap < 1 + (abraBits.length + 7) / 8) := by decide +kernel

/-- PK[0] at 7, PK[0] at 8, and an empty PK. -/
theorem test_hyp_UnpackExpandsBytes :
    ({ fresh with pk := some [0x07, 0xA5] } : State).pk = some (0x07 :: [0xA5]) ∧ (0x07 : Byte).toNat ≤ 7
    ∧ (∃ p bs, ({ fresh with pk := some [0x08] } : State).pk = some (p :: bs) ∧ 7 < p.toNat)
    ∧ ({ fresh with pk := some [] } : State).pk = some [] :=
  ⟨rfl, by decide, ⟨0x08, [], rfl, by decide⟩, rfl⟩

theorem test_hyp_UnpackInvertsPack : ({ fresh with pk := some (packed abraBits) } : State).pk = some (packed abraBits)
    ∧ abraState.bits = some abraBits
    ∧ reads State.errcode (exec .pack abraState) = some 0 := by decide +kernel

/-- "ab" as a list of (symbol, code) pairs of the tree of "abracadabra". -/
def abPaths : List (Nat × Code) := [(0x61, [false]), (0x62, [true, true, false])]

theorem abPaths_ok : PathsOf abraTree abPaths := by
  intro q hq
  simp only [abPaths, List.mem_cons, List.not_mem_nil, or_false] at hq
  rcases hq with rfl | rfl
  · exact ⟨by decide, 5, by decide⟩
  · exact ⟨by decide, 2, by decide⟩

/-- A table of total frequency 2 beside the tree; SOUT_CAP exactly 2. -/
theorem test_hyp_DecodeEmitsLeafSymbols :
    let s := { abraState with
      cfg := ⟨0, 64, 64, 2⟩, ft := some [⟨0x61, 1⟩, ⟨0x62, 1⟩], bits := some [false, true, true, false] }
    s.tree = some abraTree ∧ PathsOf abraTree abPaths ∧ s.bits = some (abPaths.map Prod.snd).flatten
    ∧ abPaths.length = totalFreq s.ftEntries ∧ abPaths.length ≤ s.cfg.soutCap :=
  ⟨rfl, abPaths_ok, rfl, by decide, by decide⟩

/-- A placeholder met after no code; an end at a Node; a count other than W; a count of W above SOUT_CAP. -/
theorem test_hyp_DecodeErrors :
    (PathsOf aTree [] ∧ subtree aTree [true] = some .placeholder)
    ∧ (PathsOf abraTree abPaths ∧ ∃ l r f, subtree abraTree [true, false] = some (.node l r f))
    ∧ (abPaths.length ≠ totalFreq abraState.ftEntries)
    ∧ (let s := { abraState with
          cfg := ⟨0, 64, 64, 1⟩, ft := some [⟨0x61, 1⟩, ⟨0x62, 1⟩], bits := some [false, true, true, false] };
      s.bits = some (abPaths.map Prod.snd).flatten ∧ abPaths.length = totalFreq s.ftEntries
      ∧ s.cfg.soutCap < abPaths.length) :=
  ⟨⟨fun _ h => (nomatch h), rfl⟩, ⟨abPaths_ok, _, _, _, rfl⟩, by decide, by decide⟩

theorem test_hyp_DecodeInvertsEncode : abraState.Inv ∧ abraState.ft = some (countsOf abraState.text)
    ∧ abraState.tree = some abraTree ∧ abraState.cbValid = true ∧ reads State.errcode (exec .encode abraState) = some 0
    ∧ abraState.text.length ≤ abraState.cfg.soutCap :=
  ⟨abraState_inv, by decide +kernel, rfl, rfl, by decide +kernel, by decide +kernel⟩

/-- The last scalar value of each UTF-8 length, and the values beside the surrogates. -/
theorem test_hyp_SymbolBytesHaveOneScalar :
    ∀ x ∈ [0x00, 0x7F, 0x80, 0x7FF, 0x800, 0xD7FF, 0xE000, 0xFFFF, 0x10000, 0x10FFFF],
      scalar x = true ∧ unutf8 (utf8 x) = some x := by decide

/-- A container of exactly CBUF_CAP = 36 bytes. -/
theorem test_hyp_SerializeWritesTheContainer :
    let s := { abraState with cfg := ⟨0, 64, 36, 64⟩ }
    s.cfg.wf = true ∧ s.ft = some abraFt ∧ s.pk = some abraPk ∧ abraFt ≠ [] ∧ abraFt.length ≤ 65535
    ∧ (container abraFt abraPk).length ≤ s.cfg.cbufCap ∧ ∀ e ∈ abraFt, e.freq ≤ 2 ^ 32 - 1 := by decide +kernel

/-- An empty table; a container of CBUF_CAP + 1 bytes; a SERIALIZE that fails. -/
theorem test_hyp_SerializeErrorsWriteNothing :
    (let s := { fresh with ft := some [], pk := some [] };
      s.ft = some [] ∧ s.pk = some [])
    ∧ (let s := { abraState with cfg := ⟨0, 64, 35, 64⟩ };
      s.ft = some abraFt ∧ s.pk = some abraPk ∧ abraFt ≠ [] ∧ abraFt.length ≤ 65535
      ∧ s.cfg.cbufCap < (container abraFt abraPk).length)
    ∧ reads State.errcode (exec .serialize fresh) = some 0x0608 := by decide +kernel

theorem test_hyp_DeserializeInvertsSerialize : TableOk abraFt ∧ abraLoaded.cbufLen.toNat ≤ abraLoaded.cfg.cbufCap
    ∧ abraLoaded.cbufRead 0 abraLoaded.cbufLen.toNat = container abraFt abraPk :=
  ⟨abraFt_ok, by decide +kernel, by decide +kernel⟩

/-- CBUF_LEN one above CBUF_CAP; a container; one byte, which no container is. -/
theorem test_hyp_DeserializeAcceptsExactlyContainers :
    small.cbufCap < ({ fresh with cbufLen := 65 } : State).cbufLen.toNat
    ∧ (abraLoaded.cbufLen.toNat ≤ small.cbufCap ∧ TableOk abraFt
      ∧ abraLoaded.cbufRead 0 abraLoaded.cbufLen.toNat = container abraFt abraPk)
    ∧ (withBytes [0x00] fresh).cbufLen.toNat ≤ small.cbufCap
    ∧ ¬ ∃ ft p, TableOk ft ∧ (withBytes [0x00] fresh).cbufRead 0 (withBytes [0x00] fresh).cbufLen.toNat
      = container ft p := by
  refine ⟨by decide, ⟨by decide +kernel, abraFt_ok, by decide +kernel⟩, by decide, ?_⟩
  rintro ⟨ft, p, -, h⟩
  have := congrArg List.length h
  rw [cbufRead_length, container_length] at this
  have h1 : (withBytes [0x00] fresh).cbufLen.toNat = 1 := by decide
  omega

/-- CBUF_CAP at the container's size, and one below it. -/
theorem test_hyp_CompressSucceedsWhenContainerFits : ∀ cap ∈ [36, 35],
    let s := { withText abraText fresh with cfg := ⟨0, 64, cap, 64⟩ }
    s.cfg.wf = true ∧ s.sinLen.toNat ≤ s.cfg.sinCap ∧ s.text.all scalar = true ∧ s.text.eraseDups.length ≤ 65535
    ∧ containerOfText s.text = some abraBytes := by decide +kernel

theorem test_hyp_CompressOfEmptyText : fresh.sinLen = 0 := rfl

theorem test_hyp_DecompressSucceeds :
    let s := withBytes (container [⟨0x61, 2⟩] [0x06, 0x00]) fresh
    let p : List (Nat × Code) := [(0x61, [false]), (0x61, [false])]
    s.cbufLen.toNat ≤ s.cfg.cbufCap ∧ TableOk [⟨0x61, 2⟩]
    ∧ s.cbufRead 0 s.cbufLen.toNat = container [⟨0x61, 2⟩] [0x06, 0x00]
    ∧ huffmanTree [⟨0x61, 2⟩] = some (.node (.leaf 0x61 2) .placeholder 2)
    ∧ PathsOf (.node (.leaf 0x61 2) .placeholder 2) p ∧ unpackBits [0x06, 0x00] = some (p.map Prod.snd).flatten
    ∧ p.length = totalFreq [⟨0x61, 2⟩] ∧ p.length ≤ s.cfg.soutCap := by
  refine ⟨by decide +kernel, ⟨by decide, by decide, by decide, by decide⟩, by decide +kernel, by decide +kernel,
    ?_, by decide +kernel, by decide, by decide⟩
  intro q hq
  simp only [List.mem_cons, List.not_mem_nil, or_false, or_self] at hq
  subst hq
  exact ⟨by decide, 2, by decide⟩

/-- DecompressInvertsCompress, TruncationIsDetected and SizesAfterCompress. -/
theorem test_hyp_after_compress :
    let s := withText abraText fresh
    s.cfg.wf = true ∧ reads State.errcode (exec .compress s) = some 0 ∧ s.text.length ≤ s.cfg.soutCap := by
  decide +kernel

/-- Two states with the same SIN and different stores and registers. -/
theorem test_hyp_CompressIsDeterministic :
    let s₁ := withText abraText fresh
    let s₂ := { abraState with irqEn := true, cbuf := [(3, 0x55)], ftIdx := 9 }
    s₁.cfg = s₂.cfg ∧ s₁.sinLen = s₂.sinLen ∧ s₁.text = s₂.text ∧ s₁.cfg.wf = true ∧ s₁ ≠ s₂ := by decide +kernel

/-- After reset every prerequisite is missing (MissingPrerequisite). -/
theorem test_hyp_MissingPrerequisite : fresh.ftValid = false ∧ fresh.treeValid = false ∧ fresh.cbValid = false
    ∧ fresh.bitsValid = false ∧ fresh.pkValid = false := by decide

/-- ErrorsOfEachCommand, and the frames, which hold of every next state. -/
theorem test_hyp_ErrorsOfEachCommand : abraState.Inv ∧ ∀ i, (after (exec i abraState)).isSome = true :=
  ⟨abraState_inv, fun i => by cases i <;> rfl⟩

/-- Offsets that reach no register, and the last that does. -/
theorem test_hyp_OtherAccessesHaveNoEffect : (regAt 0x78 .word).isSome = false ∧ (regAt 0x02 .word).isSome = false
    ∧ (regAt 0x00 .half).isSome = false ∧ (regAt 0x00 .byte).isSome = false
    ∧ (regAt 0x74 .word).isSome = true := by decide

/-- The IDLE register statements, outside reset. -/
theorem test_hyp_idle_registers : fresh.rstN = true ∧ fresh.eng = .idle := ⟨rfl, rfl⟩

theorem test_hyp_StatusAndCtrlWrites : fresh.rstN = true ∧ (0xFFFFFFFD : Word).getLsbD 1 = false := by decide

/-- The BUSY register statements. -/
theorem test_hyp_ReadsWhileBusy : (accept 0x10 abraState).Inv ∧ (accept 0x10 abraState).rstN = true
    ∧ (accept 0x10 abraState).eng = .busy 0x10 := ⟨busyState_inv, rfl, rfl⟩

/-- Both ports at the last index and one past it. -/
theorem test_hyp_BufferPorts :
    (let s := { fresh with sinIdx := 63, cbufIdx := 63 };
      s.rstN = true ∧ s.eng = .idle ∧ s.sinIdx.toNat < s.cfg.sinCap ∧ s.cbufIdx.toNat < s.cfg.cbufCap)
    ∧ (let s := { fresh with sinIdx := 64, cbufIdx := 64 };
      s.rstN = true ∧ s.eng = .idle ∧ s.cfg.sinCap ≤ s.sinIdx.toNat ∧ s.cfg.cbufCap ≤ s.cbufIdx.toNat) := by decide

/-- Every store valid, the indices at the last element and one past it; and every store invalid. -/
theorem test_hyp_ReadbackRegisters :
    (let s := { abraState with
        sout := [0x61], soutIdx := 0, ftIdx := 4, cbBitpos := 2, bitsIdx := 22, pkIdx := 3 };
      s.rstN = true ∧ s.eng = .idle ∧ s.soutIdx.toNat < s.sout.length ∧ s.ftIdx.toNat < abraFt.length
      ∧ s.ftIdx.toNat < abraCb.length ∧ s.cbBitpos.toNat < ((abraCb[4]?).getD []).length
      ∧ s.bitsIdx.toNat < abraBits.length ∧ s.pkIdx.toNat < abraPk.length)
    ∧ (let s := { abraState with
        sout := [0x61], soutIdx := 1, ftIdx := 5, cbBitpos := 3, bitsIdx := 23, pkIdx := 4 };
      s.sout.length ≤ s.soutIdx.toNat ∧ abraFt.length ≤ s.ftIdx.toNat ∧ abraCb.length ≤ s.ftIdx.toNat
      ∧ ((abraCb[4]?).getD []).length ≤ s.cbBitpos.toNat ∧ abraBits.length ≤ s.bitsIdx.toNat
      ∧ abraPk.length ≤ s.pkIdx.toNat)
    ∧ (fresh.ft = none ∧ fresh.cb = none ∧ fresh.bits = none ∧ fresh.pk = none) := by decide +kernel

theorem test_hyp_InterruptFollowsDone : ({ fresh with done := true } : State).rstN = true
    ∧ ({ fresh with done := true } : State).done = true := ⟨rfl, rfl⟩

/-- A soft reset outside reset; a block held in reset with nothing on the agenda, and with the engine to move. -/
theorem test_hyp_ResetsGiveTheResetState : abraState.rstN = true ∧ (0x3 : Word).getLsbD 1 = true
    ∧ (setResetPin false abraState).rstN = false ∧ (setResetPin false abraState).agenda = []
    ∧ (let s := setResetPin false { abraState with agenda := [.engine] };
      s.rstN = false ∧ s.agenda = [.engine]) := by decide +kernel

/-- The three statements about a step: a state that meets the premise, and its step. -/
theorem test_hyp_steps : (accept 0x10 abraState).Inv ∧ FlagChain (accept 0x10 abraState)
    ∧ BuffersOk (accept 0x10 abraState) ∧ (after (step (accept 0x10 abraState))).isSome = true :=
  ⟨busyState_inv, ⟨fun _ => rfl, fun _ => rfl⟩, busyState_inv.buffers, by decide +kernel⟩

/-! ### A text of 65536 distinct symbols, for FtBuildErrors' second clause -/

/-- The `i`-th scalar value. -/
def nthScalar (i : Nat) : Nat := if i < 0xD800 then i else i + 0x800

/-- The first `n` scalar values, as SIN holds them. -/
def wideSin (n : Nat) : Memory Word := (List.range n).map fun i => (i, BitVec.ofNat 32 (nthScalar i))

/-- A block whose SIN holds the first `n` scalar values. -/
def wideState (n : Nat) : State :=
  { State.resetFor ⟨0, n, 64, 64⟩ with sin := wideSin n, sinLen := asWord n }

theorem read?_map_range (f : Nat → Word) (n a i : Nat) (h : i < n) :
    Memory.read? ((List.range' a n).map fun i => (i, f i)) (a + i) = some (f (a + i)) := by
  induction n generalizing a i with
  | zero => omega
  | succ n ih =>
    rw [List.range'_succ, List.map_cons, Memory.read?_cons]
    cases i with
    | zero => simp
    | succ i =>
      rw [if_neg (by omega)]
      have := ih (a + 1) i (by omega)
      rw [show a + (i + 1) = a + 1 + i by omega]
      exact this

theorem wideState_text {n : Nat} (hn : n < 2 ^ 20) : (wideState n).text = (List.range n).map nthScalar := by
  have hlen : (wideState n).sinLen.toNat = n := by
    show (BitVec.ofNat 32 n).toNat = n
    rw [BitVec.toNat_ofNat]; omega
  simp only [State.text, State.sinRead, hlen, List.map_map]
  apply List.map_congr_left
  intro i hi
  have hi : i < n := by simpa using hi
  have h : Memory.read? (wideState n).sin (0 + i) = some (BitVec.ofNat 32 (nthScalar i)) := by
    show Memory.read? (wideSin n) (0 + i) = _
    have := read?_map_range (fun i => BitVec.ofNat 32 (nthScalar i)) n 0 i hi
    rw [← List.range_eq_range'] at this
    rw [wideSin, this, Nat.zero_add]
  simp only [Function.comp_apply, State.sinAt, h, Option.getD_some, BitVec.toNat_ofNat]
  apply Nat.mod_eq_of_lt
  unfold nthScalar
  split <;> omega

/-- A text of `n` distinct symbols, for every `n` up to 2^20. -/
theorem wideState_ok {n : Nat} (hn : n < 2 ^ 20) : (wideState n).sinLen.toNat ≤ (wideState n).cfg.sinCap
    ∧ (wideState n).text.all scalar = true ∧ (wideState n).text.eraseDups.length = n := by
  have hinj : ∀ i j, nthScalar i = nthScalar j → i = j := by
    intro i j h
    unfold nthScalar at h
    split at h <;> split at h <;> omega
  refine ⟨?_, ?_, ?_⟩
  · show (BitVec.ofNat 32 n).toNat ≤ n
    rw [BitVec.toNat_ofNat]
    exact Nat.mod_le _ _
  · rw [wideState_text hn, List.all_eq_true]
    intro x hx
    obtain ⟨i, hi, rfl⟩ := List.mem_map.1 hx
    have hi : i < n := by simpa using hi
    rw [scalar_iff]
    unfold nthScalar
    split <;> omega
  · have hd : (wideState n).text.Nodup := by
      rw [wideState_text hn]
      exact List.nodup_range.map (fun i j h => hinj i j h)
    have hp : (wideState n).text.eraseDups.Perm (wideState n).text :=
      (List.perm_ext_iff_of_nodup (eraseDups_nodup _) hd).2 fun x => by simp
    rw [hp.length_eq, wideState_text hn, List.length_map, List.length_range]

/-- Every hypothesis of FtBuildErrors' second clause, one symbol past the limit; and FtBuildCountsTheText's at the
limit. -/
theorem test_hyp_FtBuildErrors_limit :
    ((wideState 65536).sinLen.toNat ≤ (wideState 65536).cfg.sinCap ∧ (wideState 65536).text.all scalar = true
      ∧ 65535 < (wideState 65536).text.eraseDups.length)
    ∧ Countable (wideState 65535).text := by
  obtain ⟨h1, h2, h3⟩ := wideState_ok (n := 65536) (by norm_num)
  obtain ⟨-, h5, h6⟩ := wideState_ok (n := 65535) (by norm_num)
  exact ⟨⟨h1, h2, by rw [h3]; norm_num⟩, h5, by rw [h6]⟩

end Sys2Proof.Tests
end

