-- ==== Sys2Proof/Proofs/IdAndVersion.lean ====
section
/-! PROOF. The registers of constant value: ID and VERSION (spec/10_state.md R42). -/

namespace Sys2Proof.Machine
open Sys2Proof

/-- A register whose value no draw touches reads the same BUSY as IDLE (R462). -/
theorem hostRead_value_of_busy_eq_idle {s : State} {off : BitVec 8} {r : Reg} (h : s.rstN = true)
    (hr : regAt off .word = some r) (hv : ∀ draw, readRegisterBusy draw s r = readRegister s r) :
    (hostTransaction (.read off .word) s).readData = some (readRegister s r) := by
  cases he : s.eng with
  | idle => rw [hostRead_idle h he hr]
  | busy w => rw [hostRead_busy h he hr, hv]

/-- A Write that reaches a RO register does nothing, IDLE or BUSY (R461). -/
theorem writeRegister_ro {r : Reg} (ha : regAccess r = .ro) (v : Word) (s : State) : writeRegister r v s = s := by
  unfold writeRegister
  split
  case h_1 => cases ha
  case h_2 => cases ha
  case h_3 => cases ha
  case h_4 => simp only [ha]

/-- A Write at the offset of a RO register changes nothing (R461). -/
theorem hostWrite_ro {s : State} {off : BitVec 8} {r : Reg} (v : Word) (h : s.rstN = true)
    (hr : regAt off .word = some r) (ha : regAccess r = .ro) : hostTransaction (.write off .word v) s = s := by
  rw [hostWrite_reg v h hr, writeRegister_ro ha]

/-- Settles O44: ID and VERSION are RO registers, and no draw touches their values. -/
theorem idAndVersionAreConstant : Obligations.IdAndVersionAreConstant := by
  intro s v h
  have hid : regAt 0x00 .word = some .id := regAt_regOffset .id
  have hversion : regAt 0x04 .word = some .version := regAt_regOffset .version
  exact ⟨hostRead_value_of_busy_eq_idle h hid fun _ => rfl,
    hostRead_value_of_busy_eq_idle h hversion fun _ => rfl,
    hostWrite_ro v h hid rfl, hostWrite_ro v h hversion rfl⟩

end Sys2Proof.Machine
end

