-- ==== Sys2Proof/Proofs/BusAccesses.lean ====
section
/-! PROOF. The accesses that reach no register, and Reads (spec/10_state.md R111, R116). -/

namespace Sys2Proof.Machine
open Sys2Proof

/-! ### Accesses that reach no register -/

/-- What reaches a register, sizes included (R111). -/
theorem regAt_isSome (off : BitVec 8) (size : AccessSize) :
    (regAt off size).isSome = true ↔ size = .word ∧ off.toNat % 4 = 0 ∧ off.toNat ≤ 0x74 := by
  cases size with
  | byte => simp [regAt]
  | half => simp [regAt]
  | word => simp [regAt_word_isSome]

/-- A Write that reaches no register has no effect, in reset or not (R111). -/
theorem hostWrite_of_regAt_eq_none {off : BitVec 8} {size : AccessSize} (h : regAt off size = none) (v : Word)
    (s : State) : hostTransaction (.write off size v) s = s := by
  simp only [hostTransaction, hostWrite, h, ite_self]

/-- A Read that reaches no register answers 0, in reset or not (R111). -/
theorem hostRead_of_regAt_eq_none {off : BitVec 8} {size : AccessSize} (h : regAt off size = none) (s : State) :
    hostTransaction (.read off size) s = { s with readData := some 0 } := by
  simp only [hostTransaction, hostRead, h, ite_self]

/-- Settles O43: a register is found at its own aligned offset with size 4 only, and a transaction that finds none
leaves the state. -/
theorem otherAccessesHaveNoEffect : Obligations.OtherAccessesHaveNoEffect := by
  intro off size
  refine ⟨regAt_isSome off size, fun r hr => (regAt_offset hr).2, fun s hn => ?_⟩
  have hnone : regAt off size = none := Option.not_isSome_iff_eq_none.1 ((regAt_isSome off size).not.2 hn)
  exact ⟨fun v => hostWrite_of_regAt_eq_none hnone v s, hostRead_of_regAt_eq_none hnone s⟩

/-! ### Reads -/

/-- A Read does not depend on what the Read before it answered: no register shows that record, and every branch
writes over it. -/
theorem hostRead_readData (off : BitVec 8) (size : AccessSize) (s : State) (v : Option Word) :
    hostRead off size { s with readData := v } = hostRead off size s := rfl

/-- While IDLE a Read is idempotent: it draws nothing, so the second meets the first one's state but for the record it
writes over (R116). -/
theorem hostRead_hostRead {s : State} (hi : s.eng = .idle) (off : BitVec 8) (size : AccessSize) :
    hostRead off size (hostRead off size s) = hostRead off size s := by
  obtain ⟨v, d, hread, hdraws⟩ := hostRead_cases off size s
  have hd : d = s.draws := hdraws (by simp only [State.busy, hi])
  subst hd
  calc hostRead off size (hostRead off size s)
      = hostRead off size { s with readData := some v } := by rw [hread]
    _ = hostRead off size s := hostRead_readData off size s (some v)

/-- Settles O50: a Read changes only its own records and, while IDLE, draws nothing and is idempotent. -/
theorem readsHaveNoSideEffect : Obligations.ReadsHaveNoSideEffect := by
  intro s off size
  obtain ⟨v, d, hread, hdraws⟩ := hostRead_cases off size s
  refine ⟨by simp only [hostTransaction, hread], fun hi => ⟨?_, ?_⟩⟩
  · simpa only [hostTransaction, hread] using hdraws (by simp only [State.busy, hi])
  · exact congrArg State.readData (hostRead_hostRead hi off size)

end Sys2Proof.Machine
end

