-- ==== Sys2Proof/Proofs/CommandWords.lean ====
section
/-! PROOF. The command words: the rows of the opcode map, and what runs for every other word
(spec/30_encoding.md R141, R144; spec/40_command_model.md R201). -/

namespace Sys2Proof.Machine
open Sys2Proof

/-! ### The opcode table's words -/

/-- A command's word, read as a word of spec/opcode_table.json, is that command (R141). -/
theorem decodeTableWord_encode (i : Instr) : decodeTableWord 32 (encode i).toNat = some i := by
  have hword : tableWord 32 (encode i).toNat = encode i := by
    rw [tableWord, Nat.mod_eq_of_lt (encode i).isLt, BitVec.ofNat_toNat, BitVec.setWidth_eq]
  rw [decodeTableWord, hword, (decodeWord_eq_ok _ i).2 rfl]
  rfl

/-- Settles O1: the twelve words are the twelve commands' own. -/
theorem tableWordsDecode : Obligations.TableWordsDecode :=
  ⟨decodeTableWord_encode .nop, decodeTableWord_encode .ftBuild, decodeTableWord_encode .treeBuild,
    decodeTableWord_encode .cbGen, decodeTableWord_encode .encode, decodeTableWord_encode .pack,
    decodeTableWord_encode .serialize, decodeTableWord_encode .deserialize, decodeTableWord_encode .unpack,
    decodeTableWord_encode .decode, decodeTableWord_encode .compress, decodeTableWord_encode .decompress⟩

/-! ### Reserved words -/

/-- The completion step of a word that is not legal is IllegalCommand (R142). -/
theorem completionStep_of_not_wordWf {w : Word} (h : ¬ wordWf w = true) (s : State) :
    completionStep w s = execIllegal w s := by
  cases hd : decodeWord w with
  | ok i => exact absurd ((decodeWord_isOk w).1 ⟨i, hd⟩) h
  | error e => simp only [completionStep, hd]

/-- ERRCODE as a number: STEP above the error's number (R46). -/
theorem errorWord_eq_ofNat (e : ErrorCode) (st : Byte) :
    errorWord e st = BitVec.ofNat 32 (st.toNat * 2 ^ 8 + (errorNumber e).toNat) := by
  have hst : st.toNat % 2 ^ 32 = st.toNat := by omega
  apply BitVec.eq_of_toNat_eq
  rw [← Nat.shiftLeft_eq, Nat.shiftLeft_add_eq_or_of_lt (errorNumber e).isLt]
  simp only [errorWord, BitVec.toNat_or, BitVec.toNat_shiftLeft, BitVec.toNat_setWidth, BitVec.toNat_ofNat,
    Nat.or_mod_two_pow, hst]

/-- Settles O3: a reserved word is no legal word, and IllegalCommand only completes, with its error word. -/
theorem reservedWordsRunIllegalCommand : Obligations.ReservedWordsRunIllegalCommand := by
  intro s w hreserved
  have hillegal : ¬ wordWf w = true := by rw [wordWf_iff]; omega
  have herr : errorWord .illegalCommand (opcField w) = BitVec.ofNat 32 (w.toNat % 2 ^ 8 * 2 ^ 8 + 7) := by
    rw [errorWord_eq_ofNat, opcField_toNat]
    rfl
  refine ⟨completeWith (errorWord .illegalCommand (opcField w)) s, completionStep_of_not_wordWf hillegal s, ?_,
    err_completeWith_errorWord _ _ s⟩
  rw [herr]
  rfl

end Sys2Proof.Machine
end

