-- ==== Sys2Proof/Proofs/ContainerBytes.lean ====
section
/-! PROOF. The bytes of symbols and of the container (spec/30_encoding.md R160 to R172; spec/45_container.md
R350). -/

namespace Sys2Proof.Machine
open Sys2Proof

/-! ### Symbol bytes -/

/-- Two scalar values with the same encoding are equal: unutf8 finds both (R172). -/
theorem utf8_injective_on_scalars {x y : Nat} (hx : scalar x = true) (hy : scalar y = true) (h : utf8 x = utf8 y) :
    x = y :=
  Option.some.inj ((unutf8_eq_some.2 ⟨hx, h⟩).symm.trans (unutf8_eq_some.2 ⟨hy, rfl⟩))

/-- Settles O25: unutf8 names the scalar value back, and each range of R170's table is one case of its bytes. -/
theorem symbolBytesHaveOneScalar : Obligations.SymbolBytesHaveOneScalar := by
  refine ⟨fun u x => unutf8_eq_some, fun x y => utf8_injective_on_scalars, fun x hx => ?_⟩
  rw [utf8_toNat ((scalar_iff x).1 hx).1]
  refine ⟨fun h => ?_, fun h1 h2 => ?_, fun h1 h2 => ?_, fun h1 h2 => ?_⟩
  · rw [if_pos h]
  · rw [if_neg (by omega), if_pos h2]
  · rw [if_neg (by omega), if_neg (by omega), if_pos h2]
  · rw [if_neg (by omega), if_neg (by omega), if_neg (by omega)]

/-! ### SERIALIZE -/

/-- SERIALIZE with both stores valid, a table it can count and room for the container (R350). -/
theorem serializeCmd_eq_ok {s : State} {ft : List Entry} {p : List Byte} (hft : s.ft = some ft) (hpk : s.pk = some p)
    (hne : ft ≠ []) (hlen : ft.length ≤ 65535) (hfit : (container ft p).length ≤ s.cfg.cbufCap) :
    serializeCmd s = .ok { s with
      cbuf := Memory.writeList s.cbuf 0 (container ft p)
      cbufLen := BitVec.ofNat 32 (container ft p).length
      compBytes := BitVec.ofNat 32 (container ft p).length } := by
  simp only [serializeCmd, hft, hpk]
  rw [if_neg (List.length_eq_zero_iff.not.2 hne), if_neg (by omega), if_neg (by omega)]

/-- Settles O26: SERIALIZE writes the container as one list at CBUF[0 ..), so it reads back whole and the bytes beyond
are as before; its size and its bytes are the container's. -/
theorem serializeWritesTheContainer : Obligations.SerializeWritesTheContainer := by
  intro s ft p hcfg hft hpk hne hlen hfit
  obtain ⟨-, hcap, -⟩ := Params_bounds hcfg
  have hexec : exec .serialize s = finish (serializeCmd s) := rfl
  have hsize : (BitVec.ofNat 32 (container ft p).length).toNat = (container ft p).length := by
    rw [BitVec.toNat_ofNat, Nat.mod_eq_of_lt (by omega)]
  have hread : State.cbufRead { s with cbuf := Memory.writeList s.cbuf 0 (container ft p) } 0
      (BitVec.ofNat 32 (container ft p).length).toNat = container ft p := by
    rw [hsize, cbufRead_writeList]
  rw [serializeCmd_eq_ok hft hpk hne hlen hfit] at hexec
  exact ⟨_, Memory.writeList s.cbuf 0 (container ft p), hexec, rfl, hsize.trans (container_length ft p), hread,
    fun a ha => cbufAt_writeList_beyond s _ ha, fun hfreq => (congrArg (List.map BitVec.toNat) hread).trans
      (container_toNat (by omega) fun e he => Nat.lt_of_le_pred (by norm_num) (hfreq e he))⟩

end Sys2Proof.Machine
end

