-- ==== Sys2Proof/Proofs/CommandModel.lean ====
section
/-! PROOF. What the commands write: NOP, a missing prerequisite, and the frame of all twelve
(spec/40_command_model.md R193, R194, R200; spec/30_encoding.md R143). -/

namespace Sys2Proof.Machine
open Sys2Proof

/-! ### NOP and missing prerequisites -/

/-- Settles O7: NOP's result is the state it met, and completion adds ERRCODE, eng and DONE. -/
theorem nopOnlyCompletes : Obligations.NopOnlyCompletes := fun _ => rfl

/-- A command that fails its `require` completes on the state it met (R193). -/
theorem exec_of_sequenceError {i : Instr} {s : State} (h : cmdOf i s = sequenceError i s) :
    exec i s = .next (completeWith (errorWord .sequence (opcodeOf i)) s) := by
  rw [exec_eq_finish, h]
  rfl

theorem treeBuildCmd_eq_sequenceError {s : State} (h : s.ft = none) :
    treeBuildCmd s = sequenceError .treeBuild s := by
  rcases treeBuildCmd_cases s with ⟨-, he⟩ | ⟨hft, -⟩ | ⟨_, _, hft, -⟩
  · exact he
  · simp [hft] at h
  · simp [hft] at h

theorem cbGenCmd_eq_sequenceError {s : State} (h : s.tree = none) : cbGenCmd s = sequenceError .cbGen s := by
  rcases cbGenCmd_cases s with ⟨-, he⟩ | ⟨_, htree, -⟩
  · exact he
  · simp [htree] at h

theorem encodeCmd_eq_sequenceError {s : State} (h : s.cb = none) : encodeCmd s = sequenceError .encode s := by
  rcases encodeCmd_cases s with ⟨-, he⟩ | ⟨_, hcb, -⟩
  · exact he
  · simp [hcb] at h

theorem packCmd_eq_sequenceError {s : State} (h : s.bits = none) : packCmd s = sequenceError .pack s := by
  rcases packCmd_cases s with ⟨-, he⟩ | ⟨_, hbits, -⟩
  · exact he
  · simp [hbits] at h

theorem serializeCmd_eq_sequenceError {s : State} (h : s.ft = none ∨ s.pk = none) :
    serializeCmd s = sequenceError .serialize s := by
  rcases serializeCmd_cases s with ⟨-, he⟩ | ⟨_, _, hft, hpk, -⟩
  · exact he
  · simp [hft, hpk] at h

theorem unpackCmd_eq_sequenceError {s : State} (h : s.pk = none) : unpackCmd s = sequenceError .unpack s := by
  rcases unpackCmd_cases s with ⟨-, he⟩ | ⟨_, hpk, -⟩
  · exact he
  · simp [hpk] at h

theorem decodeCmd_eq_sequenceError {s : State} (h : s.tree = none ∨ s.bits = none) :
    decodeCmd s = sequenceError .decode s := by
  rcases decodeCmd_cases s with ⟨-, he⟩ | ⟨_, _, htree, hbits, -⟩
  · exact he
  · simp [htree, hbits] at h

/-- Settles O38: a valid flag is 0 exactly when its store is `none`, and each command then raises SequenceError. -/
theorem missingPrerequisite : Obligations.MissingPrerequisite := by
  intro s
  simp only [State.ftValid, State.treeValid, State.cbValid, State.bitsValid, State.pkValid,
    Option.isSome_eq_false_iff, Option.isNone_iff_eq_none]
  exact ⟨fun h => exec_of_sequenceError (treeBuildCmd_eq_sequenceError h),
    fun h => exec_of_sequenceError (cbGenCmd_eq_sequenceError h),
    fun h => exec_of_sequenceError (encodeCmd_eq_sequenceError h),
    fun h => exec_of_sequenceError (packCmd_eq_sequenceError h),
    fun h => exec_of_sequenceError (serializeCmd_eq_sequenceError h),
    fun h => exec_of_sequenceError (unpackCmd_eq_sequenceError h),
    fun h => exec_of_sequenceError (decodeCmd_eq_sequenceError h)⟩

/-! ### The frame of all twelve commands (R194) -/

/-- `s` with the state that `i`'s row names as written taken from `u`: the "writes" column of R143, read store by
store. -/
def State.withRow (s : State) (i : Instr) (u : State) : State :=
  { s with
    ft := if i ∈ [.ftBuild, .deserialize, .compress, .decompress] then u.ft else s.ft
    tree := if i ∈ [.ftBuild, .treeBuild, .deserialize, .compress, .decompress] then u.tree else s.tree
    cb := if i ∈ [.ftBuild, .treeBuild, .cbGen, .deserialize, .compress, .decompress] then u.cb else s.cb
    bits := if i ∈ [.encode, .unpack, .compress, .decompress] then u.bits else s.bits
    pk := if i ∈ [.pack, .deserialize, .compress, .decompress] then u.pk else s.pk
    sout := if i ∈ [.decode, .decompress] then u.sout else s.sout
    cbufLen := if i ∈ [.serialize, .compress] then u.cbufLen else s.cbufLen
    compBytes := if i ∈ [.serialize, .compress] then u.compBytes else s.compBytes
    cbuf := if i ∈ [.serialize, .compress] then u.cbuf else s.cbuf
    origBytes := if i ∈ [.ftBuild, .compress] then u.origBytes else s.origBytes }

/-- A command's result differs from the state it met in its row alone (R194): each outcome is an update of stores of
that row. -/
theorem cmdOf_state_eq_withRow (i : Instr) (s : State) : (cmdOf i s).state = s.withRow i (cmdOf i s).state := by
  cases i <;> simp only [cmdOf]
  case nop => rfl
  case ftBuild => rcases ftBuildCmd_cases s with ⟨-, -, h⟩ | ⟨-, h⟩ | ⟨-, -, -, h⟩ <;> rw [h] <;> rfl
  case treeBuild => rcases treeBuildCmd_cases s with ⟨-, h⟩ | ⟨-, h⟩ | ⟨_, _, -, -, -, h⟩ <;> rw [h] <;> rfl
  case cbGen => rcases cbGenCmd_cases s with ⟨-, h⟩ | ⟨_, -, h⟩ <;> rw [h] <;> rfl
  case encode =>
    rcases encodeCmd_cases s with ⟨-, h⟩ | ⟨_, -, ⟨-, -, -, h⟩ | ⟨-, h⟩ | ⟨-, -, h⟩ | ⟨-, -, -, h⟩⟩ <;>
    rw [h] <;> rfl
  case pack => rcases packCmd_cases s with ⟨-, h⟩ | ⟨_, -, ⟨-, h⟩ | ⟨-, h⟩⟩ <;> rw [h] <;> rfl
  case serialize =>
    rcases serializeCmd_cases s with ⟨-, h⟩ | ⟨_, _, -, -, ⟨-, h⟩ | ⟨-, -, h⟩ | ⟨-, -, -, h⟩ | ⟨-, -, -, h⟩⟩ <;>
    rw [h] <;> rfl
  case deserialize =>
    rcases deserializeCmd_cases s with ⟨-, h⟩ | ⟨-, -, h⟩ | ⟨-, _, _, -, -, h⟩ <;> rw [h] <;> rfl
  case unpack => rcases unpackCmd_cases s with ⟨-, h⟩ | ⟨_, -, ⟨-, h⟩ | ⟨_, -, h⟩⟩ <;> rw [h] <;> rfl
  case decode =>
    rcases decodeCmd_cases s with ⟨-, h⟩ | ⟨_, _, -, -, ⟨-, h⟩ | ⟨_, -, ⟨-, h⟩ | ⟨-, -, h⟩ | ⟨-, -, h⟩⟩⟩ <;>
    rw [h] <;> rfl
  case compress =>
    rcases compressCmd_cases s with ⟨-, h⟩ | ⟨-, -, -, h⟩ | ⟨-, -, h⟩ | ⟨_, _, -, ⟨-, h⟩ | ⟨-, _, _, h⟩⟩ <;>
    rw [h] <;> rfl
  case decompress =>
    rcases decompressCmd_cases s with ⟨-, h⟩ | ⟨-, -, h⟩
      | ⟨-, _, _, -, -, ⟨-, h⟩ | ⟨_, -, ⟨-, h⟩ | ⟨_, -, ⟨-, h⟩ | ⟨_, -, -, ⟨-, h⟩ | ⟨-, h⟩⟩⟩⟩⟩ <;>
    rw [h] <;> rfl

/-- Settles O40: completion writes ERRCODE, eng and DONE over the command's row, and a store outside the row is the
state's own. -/
theorem commandsWriteOnlyTheirRow : Obligations.CommandsWriteOnlyTheirRow := by
  intro i s t h
  rw [exec_eq_finish] at h
  obtain ⟨w, hw⟩ := complete_eq (cmdOf i s)
  have ht : t = completeWith w (s.withRow i (cmdOf i s).state) := by
    rw [finish_next h, hw, ← cmdOf_state_eq_withRow]
  subst ht
  exact ⟨⟨rfl, rfl, rfl, rfl, rfl, rfl, rfl, rfl, rfl, rfl, rfl, rfl, rfl, rfl, rfl, rfl, rfl, rfl⟩,
    fun hi => if_neg hi, fun hi => if_neg hi, fun hi => if_neg hi, fun hi => if_neg hi, fun hi => if_neg hi,
    fun hi => if_neg hi, fun hi => ⟨if_neg hi, if_neg hi, if_neg hi⟩, fun hi => if_neg hi⟩

end Sys2Proof.Machine
end

