-- ==== Sys2Proof/Proofs/FreqTable.lean ====
section
/-! PROOF. FT_BUILD: the table of counts and ORIG_BYTES, and its two errors in their order
(spec/41_freq_table.md R231 to R236). -/

namespace Sys2Proof.Machine
open Sys2Proof

/-! ### FT_BUILD's outcome on each kind of text -/

/-- The two input checks of R231 pass together exactly when neither fails. -/
theorem input_available_iff (s : State) :
    (s.sinLen.toNat ≤ s.cfg.sinCap ∧ s.text.all scalar = true)
      ↔ ¬ (s.cfg.sinCap < s.sinLen.toNat ∨ s.text.all scalar = false) := by
  rw [not_or, not_lt, Bool.not_eq_false]

/-- FT_BUILD counts a text it accepts (R232, R233). -/
theorem ftBuildCmd_of_countable {s : State} (hlen : s.sinLen.toNat ≤ s.cfg.sinCap) (hc : Countable s.text) :
    ftBuildCmd s = .ok { s with
      ft := some (countsOf s.text), tree := none, cb := none
      origBytes := BitVec.ofNat 32 ((s.text.map utf8len).sum) } := by
  obtain ⟨hscalar, hsize⟩ := hc
  rcases ftBuildCmd_cases s with ⟨-, -, h⟩ | ⟨hbad, -⟩ | ⟨-, -, hmany, -⟩
  · exact h
  · exact absurd hbad ((input_available_iff s).1 ⟨hlen, hscalar⟩)
  · exact absurd hsize hmany.not_ge

/-- FT_BUILD without its input is InputUnavailableError, whatever the table would hold (R231). -/
theorem ftBuildCmd_of_input_unavailable {s : State}
    (hbad : s.cfg.sinCap < s.sinLen.toNat ∨ s.text.all scalar = false) :
    ftBuildCmd s = .err .inputUnavailable 0x01 s.clearTables := by
  rcases ftBuildCmd_cases s with ⟨hlen, ⟨hscalar, -⟩, -⟩ | ⟨-, h⟩ | ⟨hlen, hscalar, -, -⟩
  · exact absurd hbad ((input_available_iff s).1 ⟨hlen, hscalar⟩)
  · exact h
  · exact absurd hbad ((input_available_iff s).1 ⟨hlen, hscalar⟩)

/-- FT_BUILD of scalar values with too many distinct ones is FormatLimitExceeded (R236). -/
theorem ftBuildCmd_of_too_many_symbols {s : State} (hlen : s.sinLen.toNat ≤ s.cfg.sinCap)
    (hscalar : s.text.all scalar = true) (hmany : 65535 < s.text.eraseDups.length) :
    ftBuildCmd s = .err .formatLimit 0x01 s.clearTables := by
  rcases ftBuildCmd_cases s with ⟨-, ⟨-, hsize⟩, -⟩ | ⟨hbad, -⟩ | ⟨-, -, -, h⟩
  · exact absurd hsize hmany.not_ge
  · exact absurd hbad ((input_available_iff s).1 ⟨hlen, hscalar⟩)
  · exact h

/-! ### The obligations -/

/-- Settles O8: FT_BUILD's loop makes the table of counts, and a symbol has at most four bytes. -/
theorem ftBuildCountsTheText : Obligations.FtBuildCountsTheText := by
  intro s hlen hc
  refine ⟨?_, fun hcfg => ?_⟩
  · rw [exec_eq_finish, cmdOf, ftBuildCmd_of_countable hlen hc]
    rfl
  · obtain ⟨hcap, -⟩ := Params_bounds hcfg
    have hsum := utf8len_sum_le s.text
    rw [text_length] at hsum
    omega

/-- Settles O9: FT_BUILD checks its input before it counts, and either error empties the tables alone. -/
theorem ftBuildErrors : Obligations.FtBuildErrors := by
  intro s
  refine ⟨fun hbad => ?_, fun hlen hscalar hmany => ?_⟩
  · have hbad' : s.cfg.sinCap < s.sinLen.toNat ∨ s.text.all scalar = false := by
      simpa only [List.all_eq_false, Bool.not_eq_true] using hbad
    rw [exec_eq_finish, cmdOf, ftBuildCmd_of_input_unavailable hbad']
    rfl
  · rw [exec_eq_finish, cmdOf, ftBuildCmd_of_too_many_symbols hlen hscalar hmany]
    rfl

end Sys2Proof.Machine
end

