-- ==== Sys2Proof/Proofs/TreeBuild.lean ====
section
/-! PROOF. TREE_BUILD: the small tables, the shape of the tree and the merge pass (spec/42_tree.md R251 to
R257). -/

namespace Sys2Proof.Machine
open Sys2Proof

/-! ### TREE_BUILD's outcome on each kind of table -/

/-- TREE_BUILD of a table with a tree leaves that tree and no codebook (R250, R190). -/
theorem exec_treeBuild_of_tree {s : State} {ft : List Entry} {t : HuffTree} (hft : s.ft = some ft)
    (ht : huffmanTree ft = some t) :
    exec .treeBuild s = .next { s with
      tree := some t, cb := none, errcode := 0, eng := .idle, done := true } := by
  have hcmd : treeBuildCmd s = .ok { s with tree := some t, cb := none } := by
    simp only [treeBuildCmd, hft, ht]
  rw [exec_eq_finish, cmdOf, hcmd]
  rfl

/-- TREE_BUILD of the empty table is EmptyInputError, with STEP its own, and leaves no tree and no codebook (R255). -/
theorem exec_treeBuild_of_empty {s : State} (hft : s.ft = some []) :
    exec .treeBuild s = .next { s with
      tree := none, cb := none, errcode := 0x0201, eng := .idle, done := true } := by
  have hcmd : treeBuildCmd s = raiseIn .treeBuild .emptyInput { s with tree := none, cb := none } := by
    simp only [treeBuildCmd, hft, huffmanTree_eq_none.2]
  rw [exec_eq_finish, cmdOf, hcmd]
  rfl

/-- The tree of one entry is the degenerate one, the real leaf left (R253). -/
theorem huffmanTree_singleton (e : Entry) :
    huffmanTree [e] = some (.node (.leaf e.sym e.freq) .placeholder e.freq) := rfl

/-- The walk of the degenerate tree records the path to its left child (R253, R282). -/
theorem codesOf_degenerate (e : Entry) :
    codesOf (.node (.leaf e.sym e.freq) .placeholder e.freq) [e] = [[false]] := by
  simp [codesOf, walkCodes, recordCode]

/-- Settles O11: the degenerate tree is the tree of its one entry, and the empty table has none. -/
theorem treeBuildSmallTables : Obligations.TreeBuildSmallTables := fun _ e =>
  ⟨fun hft => exec_treeBuild_of_tree hft (huffmanTree_singleton e), codesOf_degenerate e, exec_treeBuild_of_empty⟩

/-- Settles O10: one entry has the degenerate tree, whose shape is read off; two or more have the merge loop's, whose
shape is `huffmanTree_shape`. -/
theorem treeBuildShape : Obligations.TreeBuildShape := by
  intro s ft hft hne
  rcases ft with _ | ⟨e, _ | ⟨e', t⟩⟩
  · exact absurd rfl hne
  · exact ⟨_, exec_treeBuild_of_tree hft (huffmanTree_singleton e), .refl _,
      by simp [sumsHold, treeFreq], by simp [treeFreq, totalFreq], by simp, fun _ => ⟨rfl, rfl⟩⟩
  · obtain ⟨tr, htr, hleaves, hnodes, hplaceholders, hsums, hfreq⟩ :=
      huffmanTree_shape (ft := e :: e' :: t) (by simp)
    exact ⟨tr, exec_treeBuild_of_tree hft htr, hleaves, hsums, hfreq, fun _ => ⟨hnodes, hplaceholders⟩, by simp⟩

/-! ### The merge pass -/

/-- Settles O12: the key order and the numbering are read off, and one pass is `mergeLoop_pass`, whose node is
`mergeItems a b`. -/
theorem mergePassTakesTheTwoLeast : Obligations.MergePassTakesTheTwoLeast :=
  ⟨keyLt_iff, fun _ _ _ => rfl, fun ft i j => leafItems_getElem? i ft j, mergeLoop_single, mergeLoop_pass⟩

end Sys2Proof.Machine
end

