-- ==== Sys2Proof/Proofs/Codebook.lean ====
section
/-! PROOF. CB_GEN's root paths, none of which begins another, ENCODE's errors in their order, and the length of an
encoded text (spec/43_codebook.md R281 to R284, R290 to R293). -/

namespace Sys2Proof.Machine
open Sys2Proof

/-! ### The codebook of a table that meets R61 -/

/-- A valid TREE is the tree of FT, whose symbols are distinct (R61, R63). -/
theorem StoresOk.huffmanTree_of_tree {s : State} {t : HuffTree} (h : StoresOk s) (ht : s.tree = some t) :
    (s.ftEntries.map Entry.sym).Nodup ∧ huffmanTree s.ftEntries = some t := by
  obtain ⟨ft, hft, hbuilt⟩ := h.tree t ht
  have hentries : s.ftEntries = ft := by
    rw [Option.mem_def] at hft
    simp only [State.ftEntries, hft, Option.getD_some]
  rw [hentries]
  exact ⟨(h.table ft hft).distinct, hbuilt⟩

/-- CB_GEN of a valid TREE leaves its codes (R280, R190). -/
theorem exec_cbGen_of_tree {s : State} {t : HuffTree} (ht : s.tree = some t) :
    exec .cbGen s = .next { s with
      cb := some (codesOf t s.ftEntries), errcode := 0, eng := .idle, done := true } := by
  have hcmd : cbGenCmd s = .ok { s with cb := some (codesOf t s.ftEntries) } := by
    simp only [cbGenCmd, ht]
  rw [exec_eq_finish, cmdOf, hcmd]
  rfl

/-- Settles O14: TREE is the tree of FT, so the walk's codes are the root paths of `codesOf_path`. -/
theorem cbGenGivesRootPaths : Obligations.CbGenGivesRootPaths := by
  intro s tr hinv htree
  obtain ⟨hdistinct, hbuilt⟩ := hinv.stores.huffmanTree_of_tree htree
  exact ⟨_, exec_cbGen_of_tree htree, codesOf_length tr s.ftEntries, fun _ _ he => codesOf_path hdistinct hbuilt he⟩

/-- Settles O15: CB is the codebook of TREE, whose codes lead to different leaves. -/
theorem codebookIsPrefixFree : Obligations.CodebookIsPrefixFree := by
  intro s cs hinv hcb
  obtain ⟨tr, htree, rfl⟩ := hinv.stores.codebook cs hcb
  obtain ⟨hdistinct, hbuilt⟩ := hinv.stores.huffmanTree_of_tree htree
  exact codesOf_prefixFree hdistinct hbuilt

/-! ### ENCODE's errors -/

/-- ENCODE without its input is InputUnavailableError, whatever the text would be (R291). -/
theorem encodeCmd_of_input_unavailable {s : State} {cs : List Code} (hcb : s.cb = some cs)
    (hlen : s.cfg.sinCap < s.sinLen.toNat) :
    encodeCmd s = .err .inputUnavailable 0x04 { s with bits := none } := by
  simp only [encodeCmd, hcb, if_pos hlen]
  rfl

/-- ENCODE of a text with a symbol outside FT is UnknownSymbol (R292). -/
theorem encodeCmd_of_unknown_symbol {s : State} {cs : List Code} (hcb : s.cb = some cs)
    (hlen : s.sinLen.toNat ≤ s.cfg.sinCap) (hunknown : ∃ x ∈ s.text, ∀ e ∈ s.ftEntries, e.sym ≠ x) :
    encodeCmd s = .err .unknownSymbol 0x04 { s with bits := none } := by
  simp only [encodeCmd, hcb, if_neg hlen.not_gt, encodeText_none hunknown]
  rfl

/-- ENCODE of a stream longer than CBUF's bits is OutputWriteError (R291). -/
theorem encodeCmd_of_long_stream {s : State} {cs : List Code} (hcb : s.cb = some cs)
    (hlen : s.sinLen.toNat ≤ s.cfg.sinCap) (hknown : ∀ x ∈ s.text, ∃ e ∈ s.ftEntries, e.sym = x)
    (hlong : 8 * s.cfg.cbufCap < (codeBits s.ftEntries cs s.text).length) :
    encodeCmd s = .err .outputWrite 0x04 { s with bits := none } := by
  simp only [encodeCmd, hcb, if_neg hlen.not_gt, encodeText_some hknown, if_pos hlong]
  rfl

/-- Settles O17: ENCODE checks its input, then the symbols, then the room, and each error empties BITS alone. -/
theorem encodeErrors : Obligations.EncodeErrors := by
  intro s cs hcb
  refine ⟨fun hlen => ?_, fun hlen hunknown => ?_, fun hlen hknown hlong => ?_⟩
  · rw [exec_eq_finish, cmdOf, encodeCmd_of_input_unavailable hcb hlen]
    rfl
  · rw [exec_eq_finish, cmdOf, encodeCmd_of_unknown_symbol hcb hlen hunknown]
    rfl
  · rw [exec_eq_finish, cmdOf, encodeCmd_of_long_stream hcb hlen hknown hlong]
    rfl

/-! ### The length of an encoded text -/

/-- A symbol's place in FT is its place among FT's symbols. -/
theorem findIdx_sym_eq_idxOf (ft : List Entry) (x : Nat) :
    (ft.findIdx fun e => e.sym == x) = (ft.map Entry.sym).idxOf x := by
  rw [List.idxOf, List.findIdx_map]
  rfl

/-- A text's stream is as long as its symbols' codes together (R290). -/
theorem codeBits_length (ft : List Entry) (cs : List Code) (txt : List Nat) :
    (codeBits ft cs txt).length
      = (txt.map fun x => (cs.getD ((ft.map Entry.sym).idxOf x) []).length).sum := by
  simp only [codeBits, List.length_flatten, List.map_map, Function.comp_def, findIdx_sym_eq_idxOf]

/-- Entry by entry, the j-th distinct symbol of a text is at place j of its table, so its count meets its own code. -/
theorem zipWith_countsOf (txt : List Nat) (cs : List Code) (hlen : cs.length = txt.eraseDups.length) :
    List.zipWith (fun e c => e.freq * c.length) (countsOf txt) cs
      = txt.eraseDups.map fun x => txt.count x * (cs.getD (txt.eraseDups.idxOf x) []).length := by
  refine List.ext_getElem (by simp [countsOf_length, hlen]) fun j hj hj' => ?_
  have hdups : j < txt.eraseDups.length := by simpa using hj'
  have hplace : txt.eraseDups.idxOf txt.eraseDups[j] = j := (eraseDups_nodup txt).idxOf_getElem j hdups
  simp [countsOf, hplace, hlen, hdups]

/-- The stream of a text under a codebook of its own counts has the weighted length of R293. -/
theorem codeBits_length_countsOf {txt : List Nat} {cs : List Code} (hlen : cs.length = (countsOf txt).length) :
    (codeBits (countsOf txt) cs txt).length
      = (List.zipWith (fun e c => e.freq * c.length) (countsOf txt) cs).sum := by
  rw [countsOf_length] at hlen
  rw [codeBits_length, countsOf_syms, zipWith_countsOf txt cs hlen,
    sum_by_counts txt fun x => (cs.getD (txt.eraseDups.idxOf x) []).length]

/-- Settles O18: every symbol of the text has an entry in its own counts, and a stream that fits is the text's, whose
length is `codeBits_length_countsOf`. -/
theorem encodedLengthIsWeightedSum : Obligations.EncodedLengthIsWeightedSum := by
  intro s t cs hcb hft hcodes hlen hexec
  have hentries : s.ftEntries = countsOf s.text := by simp only [State.ftEntries, hft, Option.getD_some]
  have ht : t = complete (encodeCmd s) := finish_next hexec
  rcases encodeCmd_cases s with ⟨hnone, -⟩ | ⟨cs', hcb', hcases⟩
  · simp [hnone] at hcb
  obtain rfl : cs = cs' := by simpa [hcb] using hcb'
  rcases hcases with ⟨-, -, -, he⟩ | ⟨hshort, -⟩ | ⟨-, ⟨x, hx, hunknown⟩, -⟩ | ⟨-, -, -, he⟩
  · rw [ht, he]
    refine ⟨(by decide : (0 : Word) ≠ 0x0409), fun _ => ?_⟩
    rw [hentries] at hcodes ⊢
    exact codeBits_length_countsOf hcodes
  · exact absurd hlen hshort.not_ge
  · obtain ⟨e, he, hsym⟩ := countsOf_known s.text x hx
    exact absurd hsym (hunknown e (hentries ▸ he))
  · rw [ht, he]
    exact ⟨(by decide : errorWord .outputWrite 0x04 ≠ 0x0409), fun hzero => absurd hzero (errorWord_ne_zero _ _)⟩

end Sys2Proof.Machine
end

