-- ==== Sys2Proof/Proofs/Bitpack.lean ====
section
/-! PROOF. PACK's layout, UNPACK's expansion and that the one inverts the other, DECODE's errors, and that DECODE
inverts ENCODE (spec/44_bitpack.md R311 to R336). -/

namespace Sys2Proof.Machine
open Sys2Proof

/-! ### Completion of a command's result -/

/-- A command that succeeds completes with ERRCODE 0 (R190). -/
theorem exec_of_ok {i : Instr} {s u : State} (h : cmdOf i s = .ok u) : exec i s = .next (completeWith 0 u) := by
  rw [exec_eq_finish, h]
  rfl

/-- A command that raises an error completes with its number and the command's own STEP (R190, R192). -/
theorem exec_of_raiseIn {i : Instr} {s u : State} {e : ErrorCode} (h : cmdOf i s = raiseIn i e u) :
    exec i s = .next (completeWith (errorWord e (opcodeOf i)) u) := by
  rw [exec_eq_finish, h]
  rfl

/-! ### PACK -/

/-- PACK of a stream whose section fits leaves that section (R310, R190). -/
theorem exec_pack_of_fits {s : State} {b : List Bool} (hbits : s.bits = some b)
    (hfit : 1 + (b.length + 7) / 8 ≤ s.cfg.cbufCap) :
    exec .pack s = .next { s with pk := some (packed b), errcode := 0, eng := .idle, done := true } := by
  have hcmd : cmdOf .pack s = .ok { s with pk := some (packed b) } := by
    simp only [cmdOf, packCmd, hbits, packed_length, if_neg hfit.not_gt]
  exact (exec_of_ok hcmd :)

/-- PACK of a stream whose section is longer than CBUF is OutputWriteError, with STEP its own (R312). -/
theorem exec_pack_of_long {s : State} {b : List Bool} (hbits : s.bits = some b)
    (hlong : s.cfg.cbufCap < 1 + (b.length + 7) / 8) :
    exec .pack s = .next { s with pk := none, errcode := 0x0506, eng := .idle, done := true } := by
  have hcmd : cmdOf .pack s = raiseIn .pack .outputWrite { s with pk := none } := by
    simp only [cmdOf, packCmd, hbits, packed_length, if_pos hlong]
  exact (exec_of_raiseIn hcmd :)

/-- A PACK that leaves ERRCODE 0 left the packed section (R310). -/
theorem pack_success {s t : State} {b : List Bool} (hbits : s.bits = some b) (hexec : exec .pack s = .next t)
    (hzero : t.errcode = 0) : t = completeWith 0 { s with pk := some (packed b) } := by
  rcases le_or_gt (1 + (b.length + 7) / 8) s.cfg.cbufCap with hfit | hlong
  · rw [exec_pack_of_fits hbits hfit] at hexec
    exact (Host.Outcome.next.inj hexec).symm
  · rw [exec_pack_of_long hbits hlong] at hexec
    obtain rfl := Host.Outcome.next.inj hexec
    exact absurd hzero (by decide : (0x0506 : Word) ≠ 0)

/-- Bit 7 - k mod 8 of the group byte k div 8 is bit k of the padded stream (R168). -/
theorem groupBytes_getLsbD (b : List Bool) (k : Nat) :
    (groupBytes ((b.length + 7) / 8) (b ++ List.replicate (padCount b.length) false))[k / 8]?.map
        (fun y => y.getLsbD (7 - k % 8))
      = (b ++ List.replicate (padCount b.length) false)[k]? := by
  rw [← expandBytes_getElem?, expandBytes_packed_tail]

/-- Settles O19: the section is the padding count and the groups of the padded stream, whose bits are the stream's and
then zeros. -/
theorem packLaysOutTheBits : Obligations.PackLaysOutTheBits := by
  intro s b hbits
  refine ⟨fun hfit => ?_, exec_pack_of_long hbits⟩
  have hpad : (BitVec.ofNat 8 (padCount b.length)).toNat = padCount b.length := by
    have := padCount_le b.length
    rw [BitVec.toNat_ofNat]
    omega
  have hexec := exec_pack_of_fits hbits hfit
  rw [packed_eq] at hexec
  refine ⟨_, _, hexec, groupBytes_length _ _, hpad, hpad.trans_le (padCount_le _), ?_, fun k hk => ?_,
    fun k hlow hhigh => ?_⟩
  · rw [groupBytes_length, hpad, padCount_spec, Nat.mul_comm]
  · rw [groupBytes_getLsbD, List.getElem?_append_left hk]
  · rw [groupBytes_length, ← padCount_spec] at hhigh
    rw [groupBytes_getLsbD, List.getElem?_append_right hlow, List.getElem?_replicate_of_lt (by omega)]

/-! ### UNPACK -/

/-- UNPACK of a section with bits leaves those bits (R320, R190). -/
theorem exec_unpack_of_bits {s : State} {pk : List Byte} {b : List Bool} (hpk : s.pk = some pk)
    (hb : unpackBits pk = some b) :
    exec .unpack s = .next { s with bits := some b, errcode := 0, eng := .idle, done := true } := by
  have hcmd : cmdOf .unpack s = .ok { s with bits := some b } := by simp only [cmdOf, unpackCmd, hpk, hb]
  exact (exec_of_ok hcmd :)

/-- UNPACK of bytes that are no section is MalformedBufferError, with STEP its own (R320). -/
theorem exec_unpack_of_malformed {s : State} {pk : List Byte} (hpk : s.pk = some pk) (hb : unpackBits pk = none) :
    exec .unpack s = .next { s with bits := none, errcode := 0x0803, eng := .idle, done := true } := by
  have hcmd : cmdOf .unpack s = raiseIn .unpack .malformedBuffer { s with bits := none } := by
    simp only [cmdOf, unpackCmd, hpk, hb]
  exact (exec_of_raiseIn hcmd :)

/-- Settles O20: BITS is the expansion cut at its length less the padding count, so its bits are the expansion's. -/
theorem unpackExpandsBytes : Obligations.UnpackExpandsBytes := by
  intro s
  refine ⟨fun p bs hpk hp => ?_, ?_⟩
  · have hlen : ((expandBytes bs).take (8 * bs.length - p.toNat)).length = 8 * bs.length - p.toNat := by
      rw [List.length_take, expandBytes_length, Nat.min_eq_left (Nat.sub_le _ _)]
    refine ⟨_, exec_unpack_of_bits hpk (unpackBits_cons hp), hlen, fun k hk => ?_⟩
    rw [hlen] at hk
    rw [List.getElem?_take_of_lt hk, expandBytes_getElem?]
  · rintro (hpk | ⟨p, bs, hpk, hp⟩)
    · exact exec_unpack_of_malformed hpk (unpackBits_eq_none.2 (.inl rfl))
    · exact exec_unpack_of_malformed hpk (unpackBits_eq_none.2 (.inr ⟨p, bs, rfl, hp⟩))

/-- Settles O21: UNPACK of packed(b) finds b again, and packed(b) is what a PACK that succeeds leaves. -/
theorem unpackInvertsPack : Obligations.UnpackInvertsPack := by
  refine ⟨fun s b hpk => exec_unpack_of_bits hpk (unpackBits_packed b), fun s t b hbits hexec hzero => ?_⟩
  rw [pack_success hbits hexec hzero]
  exact exec_unpack_of_bits rfl (unpackBits_packed b)

/-! ### DECODE's outcome on each kind of walk -/

section
variable {s : State} {tr : HuffTree} {b : List Bool} {out : List Nat} (htree : s.tree = some tr)
  (hbits : s.bits = some b)
include htree hbits

/-- DECODE of a stream whose walk emits W symbols, no more than SOUT holds, leaves them (R330, R334). -/
theorem exec_decode_of_emits (hwalk : decodeWalk tr [] b = some out) (hcount : out.length = totalFreq s.ftEntries)
    (hfit : out.length ≤ s.cfg.soutCap) :
    exec .decode s = .next { s with sout := out, errcode := 0, eng := .idle, done := true } := by
  have hcmd : cmdOf .decode s = .ok { s with sout := out } := by
    simp only [cmdOf, decodeCmd, htree, hbits, hwalk, if_neg (not_not.2 hcount), if_neg hfit.not_gt]
  exact (exec_of_ok hcmd :)

/-- DECODE of a stream whose walk fails is CorruptStreamError (R332, R333). -/
theorem exec_decode_of_walk_eq_none (hwalk : decodeWalk tr [] b = none) :
    exec .decode s = .next { s with sout := [], errcode := 0x0904, eng := .idle, done := true } := by
  have hcmd : cmdOf .decode s = raiseIn .decode .corruptStream { s with sout := [] } := by
    simp only [cmdOf, decodeCmd, htree, hbits, hwalk]
  exact (exec_of_raiseIn hcmd :)

/-- DECODE of a stream with another number of symbols than W is CorruptStreamError (R334). -/
theorem exec_decode_of_miscount (hwalk : decodeWalk tr [] b = some out)
    (hcount : out.length ≠ totalFreq s.ftEntries) :
    exec .decode s = .next { s with sout := [], errcode := 0x0904, eng := .idle, done := true } := by
  have hcmd : cmdOf .decode s = raiseIn .decode .corruptStream { s with sout := [] } := by
    simp only [cmdOf, decodeCmd, htree, hbits, hwalk, if_pos hcount]
  exact (exec_of_raiseIn hcmd :)

/-- DECODE of a stream with W symbols, more than SOUT holds, is OutputWriteError (R334). -/
theorem exec_decode_of_long (hwalk : decodeWalk tr [] b = some out) (hcount : out.length = totalFreq s.ftEntries)
    (hlong : s.cfg.soutCap < out.length) :
    exec .decode s = .next { s with sout := [], errcode := 0x0906, eng := .idle, done := true } := by
  have hcmd : cmdOf .decode s = raiseIn .decode .outputWrite { s with sout := [] } := by
    simp only [cmdOf, decodeCmd, htree, hbits, hwalk, if_neg (not_not.2 hcount), if_pos hlong]
  exact (exec_of_raiseIn hcmd :)

end

/-! ### DECODE's errors -/

/-- Whole codes and nothing after them decode to their symbols (R331). -/
theorem decodeWalk_whole_codes {t : HuffTree} {p : List (Nat × Code)} (hp : PathsOf t p) :
    decodeWalk t [] (p.map Prod.snd).flatten = some (p.map Prod.fst) := by
  simpa [decodeWalk_nil] using decodeWalk_codes hp []

/-- What fails from the root fails after whole codes too (R332, R333). -/
theorem decodeWalk_codes_eq_none {t : HuffTree} {p : List (Nat × Code)} {rest : List Bool} (hp : PathsOf t p)
    (hrest : decodeWalk t [] rest = none) : decodeWalk t [] ((p.map Prod.snd).flatten ++ rest) = none := by
  rw [decodeWalk_codes hp, hrest, Option.map_none]

/-- A stream that ends at a Node below the root fails (R333). -/
theorem decodeWalk_ends_at_node {t l r : HuffTree} {f : Nat} {c : List Bool} (hc : c ≠ [])
    (h : subtree t c = some (.node l r f)) : decodeWalk t [] c = none := by
  have hthrough := decodeWalk_through (p := []) (q := c) [] h
  rw [List.append_nil, List.nil_append] at hthrough
  rw [hthrough, decodeWalk_midcode t hc]

/-- Settles O23: the walk of the whole codes emits their symbols, then fails at the placeholder or mid-code, or has
symbols that W or SOUT_CAP refuses. -/
theorem decodeErrors : Obligations.DecodeErrors := by
  intro s tr p htree hp
  have hwhole := decodeWalk_whole_codes hp
  refine ⟨fun c rest hsub hc hbits => ?_, fun c l r f hsub hc hbits => ?_, fun hbits hcount => ?_,
    fun hbits hcount hlong => ?_⟩
  · rw [List.append_assoc] at hbits
    exact exec_decode_of_walk_eq_none htree hbits (decodeWalk_codes_eq_none hp (decodeWalk_placeholder rest hc hsub))
  · exact exec_decode_of_walk_eq_none htree hbits (decodeWalk_codes_eq_none hp (decodeWalk_ends_at_node hc hsub))
  · exact exec_decode_of_miscount htree hbits hwhole (by rwa [List.length_map])
  · exact exec_decode_of_long htree hbits hwhole (by rwa [List.length_map]) (by rwa [List.length_map])

/-! ### DECODE after ENCODE -/

/-- The walk over a text encoded by the tree's own codebook emits the text (R336). -/
theorem decodeWalk_codeBits {ft : List Entry} {t : HuffTree} (hd : (ft.map Entry.sym).Nodup)
    (ht : huffmanTree ft = some t) {txt : List Nat} (hknown : ∀ x ∈ txt, ∃ e ∈ ft, e.sym = x) :
    decodeWalk t [] (codeBits ft (codesOf t ft) txt) = some txt := by
  obtain ⟨p, hp, hsyms, hcodes⟩ := codeBits_paths hd ht hknown
  rw [← hcodes, decodeWalk_whole_codes hp, hsyms]

/-- A valid CB is the codebook of TREE (R64). -/
theorem StoresOk.cb_eq_of_tree {s : State} {t : HuffTree} (h : StoresOk s) (ht : s.tree = some t)
    (hcb : s.cbValid = true) : s.cb = some (codesOf t s.ftEntries) := by
  obtain ⟨cs, hcs⟩ := Option.isSome_iff_exists.1 hcb
  obtain ⟨t', ht', rfl⟩ := h.codebook cs hcs
  obtain rfl : t = t' := Option.some.inj (ht.symm.trans ht')
  exact hcs

/-- An ENCODE that leaves ERRCODE 0 left the text's stream (R290). -/
theorem encode_success {s t : State} {cs : List Code} (hcb : s.cb = some cs) (hexec : exec .encode s = .next t)
    (hzero : t.errcode = 0) : t = completeWith 0 { s with bits := some (codeBits s.ftEntries cs s.text) } := by
  have ht : t = complete (encodeCmd s) := finish_next hexec
  rcases encodeCmd_cases s with ⟨hnone, -⟩ | ⟨cs', hcb',
    ⟨-, -, -, hcmd⟩ | ⟨-, hcmd⟩ | ⟨-, -, hcmd⟩ | ⟨-, -, -, hcmd⟩⟩
  · simp [hnone] at hcb
  · obtain rfl : cs = cs' := by simpa [hcb] using hcb'
    rw [ht, hcmd]
    rfl
  all_goals
    rw [ht, hcmd] at hzero
    exact absurd hzero (errorWord_ne_zero _ _)

/-- Settles O24: CB is the codebook of TREE, so the walk over the text's stream emits the text; its length is the sum of
its counts, and DECODE stores it. -/
theorem decodeInvertsEncode : Obligations.DecodeInvertsEncode := by
  intro s t tr hinv hft htree hcbValid hexec hzero
  have hentries : s.ftEntries = countsOf s.text := by simp only [State.ftEntries, hft, Option.getD_some]
  obtain ⟨hdistinct, hbuilt⟩ := hinv.stores.huffmanTree_of_tree htree
  have hwalk : decodeWalk tr [] (codeBits s.ftEntries (codesOf tr s.ftEntries) s.text) = some s.text :=
    decodeWalk_codeBits hdistinct hbuilt (hentries ▸ countsOf_known s.text)
  have hcount : totalFreq s.ftEntries = s.text.length := by rw [hentries, totalFreq_countsOf]
  rw [encode_success (hinv.stores.cb_eq_of_tree htree hcbValid) hexec hzero]
  exact ⟨hwalk, hcount, fun hfit => exec_decode_of_emits htree rfl hwalk hcount.symm hfit⟩

end Sys2Proof.Machine
end

