-- ==== Sys2Proof/Proofs/Container.lean ====
section
/-! PROOF. SERIALIZE's errors, DESERIALIZE of a container, the composites as sequences of their step commands, that
COMPRESS depends on the text alone, and that DECOMPRESS detects a missing byte (spec/45_container.md R352 to R368). -/

namespace Sys2Proof.Machine
open Sys2Proof

/-! ### SERIALIZE's errors -/

/-- SERIALIZE of an empty table is EmptyInputError (R352). -/
theorem serializeCmd_of_empty_table {s : State} {p : List Byte} (hft : s.ft = some []) (hpk : s.pk = some p) :
    serializeCmd s = raiseIn .serialize .emptyInput s := by
  simp only [serializeCmd, hft, hpk, List.length_nil, if_true]

/-- SERIALIZE of a table it can count, with a container longer than CBUF, is OutputWriteError (R353). -/
theorem serializeCmd_of_long_container {s : State} {ft : List Entry} {p : List Byte} (hft : s.ft = some ft)
    (hpk : s.pk = some p) (hne : ft ≠ []) (hlen : ft.length ≤ 65535)
    (hlong : s.cfg.cbufCap < (container ft p).length) :
    serializeCmd s = raiseIn .serialize .outputWrite s := by
  simp only [serializeCmd, hft, hpk, if_neg (List.length_eq_zero_iff.not.2 hne), if_neg hlen.not_gt, if_pos hlong]

/-- SERIALIZE succeeds, or raises an error on the state it met (R353). -/
theorem serializeCmd_ok_or_raises (s : State) :
    (∃ u, serializeCmd s = .ok u) ∨ ∃ e, serializeCmd s = raiseIn .serialize e s := by
  rcases serializeCmd_cases s with ⟨-, h⟩ | ⟨_, _, -, -, ⟨-, h⟩ | ⟨-, -, h⟩ | ⟨-, -, -, h⟩ | ⟨-, -, -, h⟩⟩
  · exact .inr ⟨_, h⟩
  · exact .inr ⟨_, h⟩
  · exact .inr ⟨_, h⟩
  · exact .inr ⟨_, h⟩
  · exact .inl ⟨_, h⟩

/-- Settles O27: each of SERIALIZE's errors is raised on the state it met, so completion alone changes it. -/
theorem serializeErrorsWriteNothing : Obligations.SerializeErrorsWriteNothing := by
  refine ⟨fun s ft p hft hpk => ⟨fun hempty => ?_, fun hne hlen hlong => ?_⟩, fun s t hexec hfailed => ?_⟩
  · subst hempty
    exact (exec_of_raiseIn (i := .serialize) (serializeCmd_of_empty_table hft hpk) :)
  · exact (exec_of_raiseIn (i := .serialize) (serializeCmd_of_long_container hft hpk hne hlen hlong) :)
  · have ht : t = complete (serializeCmd s) := finish_next hexec
    rcases serializeCmd_ok_or_raises s with ⟨u, hok⟩ | ⟨e, herr⟩
    · rw [ht, hok] at hfailed
      exact absurd rfl hfailed
    · rw [ht, herr]
      rfl

/-! ### DESERIALIZE of a container -/

/-- DESERIALIZE of the container of a table that meets R61 gives back the table and the packed section (R359). -/
theorem deserializeCmd_of_container {s : State} {ft : List Entry} {p : List Byte} (htable : TableOk ft)
    (hlen : s.cbufLen.toNat ≤ s.cfg.cbufCap) (hread : s.cbufRead 0 s.cbufLen.toNat = container ft p) :
    deserializeCmd s = .ok { s with ft := some ft, pk := some p, tree := none, cb := none } := by
  simp only [deserializeCmd, if_neg hlen.not_gt, hread, parseContainer_container htable]

/-- Settles O28: DESERIALIZE parses the bytes CBUF holds, and a container parses to what it was made of. -/
theorem deserializeInvertsSerialize : Obligations.DeserializeInvertsSerialize :=
  fun _ _ _ htable hlen hread => exec_of_ok (i := .deserialize) (deserializeCmd_of_container htable hlen hread)

/-! ### The composites -/

/-- The last step command of a composite ends it, whatever it answers (R361). -/
theorem runSequence_singleton (c : State → CmdResult) (s : State) : runSequence [c] s = c s := by
  unfold runSequence
  cases c s <;> rfl

/-- Settles O32: the step commands run one after the other, each completed, are their sequence completed; completion
between two of them changes only the host's side, which no command reads. -/
theorem compositesRunTheirSteps : Obligations.CompositesRunTheirSteps := by
  intro s
  rw [runUntilError_eq, runUntilError_eq, exec_eq_finish, exec_eq_finish]
  exact ⟨rfl, rfl⟩

/-! ### COMPRESS as a function of the text (R365) -/

/-- The ERRCODE of COMPRESS by the parameters `p`, a SIN_LEN of `n` and the text (R360, R363). -/
def compressErrcode (p : Params) (n : Nat) (txt : List Nat) : Word :=
  if p.sinCap < n ∨ txt.all scalar = false then 0x0105
  else if 65535 < txt.eraseDups.length then 0x0102
  else
    match huffmanTree (countsOf txt) with
    | none => 0x0201
    | some t =>
      let b := codeBits (countsOf txt) (codesOf t (countsOf txt)) txt
      if (container (countsOf txt) (packed b)).length ≤ p.cbufCap then 0
      else errorWord .outputWrite (overflowStep p.cbufCap b)

/-- COMPRESS leaves the ERRCODE of its parameters, SIN_LEN and text, whatever else the state holds. -/
theorem errcode_compressCmd (s : State) :
    (complete (compressCmd s)).errcode = compressErrcode s.cfg s.sinLen.toNat s.text := by
  unfold compressErrcode
  rcases compress_errcode s with ⟨hbad, he⟩ | ⟨hlen, hscalar, hmany, he⟩ | ⟨hlen, hempty, he⟩
    | ⟨hlen, ⟨hscalar, hsize⟩, t, b, htree, rfl, hroom⟩
  · rw [he, if_pos hbad]
  · rw [he, if_neg ((input_available_iff s).1 ⟨hlen, hscalar⟩), if_pos hmany]
  · have hscalar : s.text.all scalar = true := by rw [hempty]; rfl
    rw [he, if_neg ((input_available_iff s).1 ⟨hlen, hscalar⟩), hempty]
    rfl
  · rw [if_neg ((input_available_iff s).1 ⟨hlen, hscalar⟩), if_neg hsize.not_gt, htree]
    rcases hroom with ⟨hfit, he⟩ | ⟨hlong, he⟩
    · exact he.trans (if_pos hfit).symm
    · exact he.trans (if_neg hlong.not_ge).symm

/-- A successful COMPRESS leaves the container of its text in CBUF (R360). -/
theorem containerOfText_eq_cbufRead {s t : State} (hcfg : s.cfg.wf = true) (hexec : exec .compress s = .next t)
    (hzero : t.errcode = 0) : containerOfText s.text = some (t.cbufRead 0 t.cbufLen.toNat) := by
  obtain ⟨tr, b, hplan, hfit, rfl⟩ := compress_success hexec hzero
  obtain ⟨hlen, hread⟩ := compressed_reads (tr := tr) hcfg hfit
  rw [containerOfText_eq hplan, hlen, hread _ le_rfl, List.take_length]

/-- Settles O36: the ERRCODE and the container are functions of what the two states share. -/
theorem compressIsDeterministic : Obligations.CompressIsDeterministic := by
  intro s₁ s₂ t₁ t₂ hparams hlen htext hcfg hexec₁ hexec₂
  have herr : t₁.errcode = t₂.errcode := by
    rw [finish_next (r := compressCmd s₁) hexec₁, finish_next (r := compressCmd s₂) hexec₂, errcode_compressCmd,
      errcode_compressCmd, hparams, hlen, htext]
  refine ⟨herr, fun hzero => Option.some.inj ?_⟩
  rw [← containerOfText_eq_cbufRead hcfg hexec₁ hzero,
    ← containerOfText_eq_cbufRead (hparams ▸ hcfg) hexec₂ (herr ▸ hzero), htext]

/-! ### DECOMPRESS of a truncated container (R368) -/

/-- DECOMPRESS of a container whose packed section unpacks is DECODE of the stores the three steps before it leave
(R362). -/
theorem exec_decompress_of_container {s : State} {ft : List Entry} {p : List Byte} {tr : HuffTree} {b : List Bool}
    (htable : TableOk ft) (hlen : s.cbufLen.toNat ≤ s.cfg.cbufCap)
    (hread : s.cbufRead 0 s.cbufLen.toNat = container ft p) (htree : huffmanTree ft = some tr)
    (hb : unpackBits p = some b) :
    exec .decompress s = exec .decode
      { s with ft := some ft, pk := some p, tree := some tr, cb := none, bits := some b } := by
  have hcmd : decompressCmd s = runSequence [decodeCmd]
      { s with ft := some ft, pk := some p, tree := some tr, cb := none, bits := some b } := by
    unfold decompressCmd
    rw [runSequence_ok (deserializeCmd_of_container htable hlen hread),
      runSequence_ok (by simp only [treeBuildCmd, htree]; rfl), runSequence_ok (by simp only [unpackCmd, hb]; rfl)]
  rw [exec_eq_finish, exec_eq_finish, cmdOf, cmdOf, hcmd, runSequence_singleton]

/-- A container less its last byte is the container of the packed section less its last byte. -/
theorem container_dropLast (ft : List Entry) {p : List Byte} (hp : p ≠ []) :
    (container ft p).dropLast = container ft p.dropLast := by
  rw [container, container, List.dropLast_append_of_ne_nil (List.append_ne_nil_of_right_ne_nil _ hp),
    List.dropLast_append_of_ne_nil hp]

/-- What CBUF reads as after a successful COMPRESS when CBUF_LEN is one less. -/
theorem compressed_reads_truncated {s : State} {tr : HuffTree} {b : List Bool} (hcfg : s.cfg.wf = true)
    (hfit : (container (countsOf s.text) (packed b)).length ≤ s.cfg.cbufCap) {t : State}
    (ht : t = completeWith 0 (compressedState s tr b)) :
    (t.cbufLen - 1).toNat ≤ t.cfg.cbufCap
      ∧ t.cbufRead 0 (t.cbufLen - 1).toNat = container (countsOf s.text) (packed b).dropLast := by
  obtain ⟨hlen, hread⟩ := compressed_reads (tr := tr) hcfg hfit
  rw [← ht] at hlen hread
  have hcap : t.cfg.cbufCap = s.cfg.cbufCap := by rw [ht]; rfl
  have hpos : 2 ≤ (container (countsOf s.text) (packed b)).length := by rw [container_length]; omega
  have hless : (t.cbufLen - 1).toNat = (container (countsOf s.text) (packed b)).length - 1 := by
    rw [← hlen] at hpos ⊢
    bv_omega
  have hne : packed b ≠ [] := by rw [packed_eq]; exact List.cons_ne_nil _ _
  rw [hless, hread _ (Nat.sub_le _ _), ← List.dropLast_eq_take, container_dropLast _ hne]
  exact ⟨(Nat.sub_le _ _).trans (hfit.trans_eq hcap.symm), rfl⟩

section
variable {s : State} {tr : HuffTree} {b : List Bool} (hplan : CompressPlan s tr b)
include hplan

/-- The stream COMPRESS makes decodes to the text (R336). -/
theorem CompressPlan.decodeWalk_stream : decodeWalk tr [] b = some s.text := by
  rw [hplan.stream]
  exact decodeWalk_codeBits (countsOf_syms s.text ▸ eraseDups_nodup s.text) hplan.tree (countsOf_known s.text)

/-- The stream COMPRESS makes has bits, since the text has a tree and so is not empty. -/
theorem CompressPlan.stream_ne_nil : b ≠ [] := by
  rintro rfl
  have hwalk := hplan.decodeWalk_stream
  rw [decodeWalk_nil] at hwalk
  have htree := hplan.tree
  rw [← Option.some.inj hwalk] at htree
  simp [countsOf, huffmanTree] at htree

end

/-- What a stream less a few last bits decodes to, if anything, is shorter: those bits emit a symbol. -/
theorem decodeWalk_length_lt_of_append {t : HuffTree} {b r : List Bool} {out txt : List Nat} (hr : r ≠ [])
    (hwhole : decodeWalk t [] (b ++ r) = some txt) (hwalk : decodeWalk t [] b = some out) :
    out.length < txt.length := by
  rw [decodeWalk_append hwalk, Option.map_eq_some_iff] at hwhole
  obtain ⟨rest, hrest, rfl⟩ := hwhole
  have hemits := List.length_pos_iff.2 (decodeWalk_emits hr hrest)
  rw [List.length_append]
  omega

/-- Settles O35: without its last byte the section unpacks to the stream without some last bits, which fails to decode
or decodes to fewer symbols than the table counts. -/
theorem truncationIsDetected : Obligations.TruncationIsDetected := by
  intro s t hcfg hexec hzero
  obtain ⟨tr, b, hplan, hfit, ht⟩ := compress_success hexec hzero
  obtain ⟨hlen, hread⟩ := compressed_reads_truncated hcfg hfit ht
  obtain ⟨b', r, hb', hsplit, hr⟩ := packed_dropLast_unpacks hplan.stream_ne_nil
  have hwhole := hplan.decodeWalk_stream
  rw [hsplit] at hwhole
  rw [exec_decompress_of_container (s := { t with cbufLen := t.cbufLen - 1 }) (countable_table hcfg hplan.text) hlen
    hread hplan.tree hb']
  cases hwalk : decodeWalk tr [] b' with
  | none => exact ⟨_, exec_decode_of_walk_eq_none rfl rfl hwalk, rfl, rfl⟩
  | some out =>
    have hcount : out.length ≠ totalFreq (countsOf s.text) := by
      rw [totalFreq_countsOf]
      exact (decodeWalk_length_lt_of_append hr hwhole hwalk).ne
    exact ⟨_, exec_decode_of_miscount rfl rfl hwalk hcount, rfl, rfl⟩

end Sys2Proof.Machine
end

