-- ==== Sys2Proof/Proofs/Interrupt.lean ====
section
/-! PROOF. The irq output: a level that follows DONE and CTRL.IRQ_EN (spec/60_exceptions.md R420, R421). -/

namespace Sys2Proof.Machine
open Sys2Proof

/-- The level of irq is the conjunction of the two bits (R421). -/
theorem irq_eq_true_iff (s : State) : s.irq = true ↔ s.done = true ∧ s.irqEn = true := Bool.and_eq_true_iff

/-- With DONE = 1 the level is IRQ_EN alone. -/
theorem irq_of_done {s : State} (h : s.done = true) : s.irq = s.irqEn := by
  rw [State.irq, h, Bool.true_and]

/-- Every command sets DONE when it completes (R420). -/
theorem done_of_exec {i : Instr} {s t : State} (h : exec i s = .next t) : t.done = true := by
  rw [exec_eq_finish] at h
  rw [finish_next h]
  exact (complete_eng _).2

/-- IRQ_EN is in no command's row, so every command keeps it (R194). -/
theorem irqEn_of_exec {i : Instr} {s t : State} (h : exec i s = .next t) : t.irqEn = s.irqEn := by
  obtain ⟨⟨-, -, hirqEn, -⟩, -⟩ := commandsWriteOnlyTheirRow i s t h
  exact hirqEn

/-- A Write of CTRL that is no soft reset sets IRQ_EN and nothing else, IDLE or BUSY (R43). -/
theorem hostWrite_ctrl {s : State} {v : Word} (h : s.rstN = true) (hv : v.getLsbD 1 = false) :
    hostTransaction (.write 0x08 .word v) s = { s with irqEn := v.getLsbD 0 } := by
  have hctrl : regAt 0x08 .word = some .ctrl := regAt_regOffset .ctrl
  rw [hostWrite_reg v h hctrl]
  simp only [writeRegister, writeCtrl, hv, Bool.false_eq_true, if_false]

/-- With DONE = 1 such a Write sets the level of irq at once (R421). -/
theorem irq_hostWrite_ctrl {s : State} {v : Word} (h : s.rstN = true) (hd : s.done = true)
    (hv : v.getLsbD 1 = false) : (hostTransaction (.write 0x08 .word v) s).irq = v.getLsbD 0 := by
  rw [hostWrite_ctrl h hv]
  exact irq_of_done hd

/-- A Write of STATUS clears the flags it names, IDLE or BUSY (R44). -/
theorem hostWrite_status {s : State} (v : Word) (h : s.rstN = true) :
    hostTransaction (.write 0x0C .word v) s = writeStatus v s := by
  have hstatus : regAt 0x0C .word = some .status := regAt_regOffset .status
  rw [hostWrite_reg v h hstatus]
  rfl

/-- Clearing DONE lowers irq (R421). -/
theorem irq_writeStatus_of_done_bit {v : Word} (hv : v.getLsbD 1 = true) (s : State) :
    (writeStatus v s).irq = false := by
  simp only [State.irq, writeStatus, hv, Bool.not_true, Bool.and_false, Bool.false_and]

/-- Settles O54: completion sets DONE and keeps IRQ_EN, and each Write moves one of the two bits whose conjunction irq
is. -/
theorem interruptFollowsDone : Obligations.InterruptFollowsDone := by
  refine ⟨irq_eq_true_iff, fun i s t h => ?_, fun s hr hd => ⟨?_, ?_, ?_⟩⟩
  · rw [irq_of_done (done_of_exec h), irqEn_of_exec h]
  · exact irq_hostWrite_ctrl hr hd (by decide)
  · exact irq_hostWrite_ctrl hr hd (by decide)
  · rw [hostWrite_status _ hr]
    exact irq_writeStatus_of_done_bit (by decide) s

end Sys2Proof.Machine
end

