-- ==== Sys2Proof/Proofs/BusyWrites.lean ====
section
/-! PROOF. Writes while BUSY: CMD is accepted or dropped, and what a Write of any other register does
(spec/10_state.md R45; spec/70_reset_and_hazards.md R460, R461). -/

namespace Sys2Proof.Machine
open Sys2Proof

/-! ### Writes through the BUSY bit -/

theorem busy_of_eng_idle {s : State} (h : s.eng = .idle) : s.busy = false := by rw [State.busy, h]

theorem busy_of_eng_busy {s : State} {w : Word} (h : s.eng = .busy w) : s.busy = true := by rw [State.busy, h]

/-- A Write at a register's own offset reaches that register (R34, R40). -/
theorem hostWrite_regOffset {s : State} (r : Reg) (v : Word) (h : s.rstN = true) :
    hostTransaction (.write (regOffset r) .word v) s = writeRegister r v s :=
  hostWrite_reg v h (regAt_regOffset r)

/-- A CMD write while IDLE is accepted (R45). -/
theorem writeCmd_of_idle {s : State} (v : Word) (h : s.busy = false) : writeCmd v s = accept v s := by
  simp only [writeCmd, h, Bool.false_eq_true, if_false]

/-- A CMD write while BUSY only sets CMD_DROPPED (R460). -/
theorem writeCmd_of_busy {s : State} (v : Word) (h : s.busy = true) : writeCmd v s = { s with cmdDropped := true } := by
  simp only [writeCmd, h, if_true]

/-- A write of a RW register other than CTRL while BUSY only sets WR_DROPPED (R461). -/
theorem writeRw_of_busy {s : State} (r : Reg) (v : Word) (h : s.busy = true) :
    writeRw r v s = { s with wrDropped := true } := by
  simp only [writeRw, h, if_true]

/-- CTRL is the one RW register whose writes do not ask whether the block is BUSY (R461). -/
theorem writeRegister_rw {r : Reg} (ha : regAccess r = .rw) (hc : r ≠ .ctrl) (v : Word) (s : State) :
    writeRegister r v s = writeRw r v s := by
  unfold writeRegister
  split
  case h_1 => exact absurd rfl hc
  case h_2 => cases ha
  case h_3 => cases ha
  case h_4 => simp only [ha]

/-! ### The register map by access code -/

/-- The offsets of the registers that satisfy `p`, in the order of the map (R40). -/
def offsetsWhere (p : Reg → Bool) : List (BitVec 8) := (allRegs.filter p).map regOffset

theorem forall_mem_offsetsWhere {p : Reg → Bool} {Q : BitVec 8 → Prop} (h : ∀ r, p r = true → Q (regOffset r)) :
    ∀ off ∈ offsetsWhere p, Q off :=
  List.forall_mem_map.2 fun r hr => h r (List.mem_filter.1 hr).2

theorem offsetsWhere_rw : offsetsWhere (fun r => regAccess r = .rw ∧ r ≠ .ctrl)
    = [0x18, 0x1C, 0x20, 0x24, 0x28, 0x2C, 0x34, 0x40, 0x50, 0x5C, 0x68] := by decide

theorem offsetsWhere_ro : offsetsWhere (fun r => regAccess r = .ro)
    = [0x00, 0x04, 0x14, 0x30, 0x38, 0x3C, 0x44, 0x48, 0x4C, 0x54, 0x58, 0x60, 0x64, 0x6C, 0x70, 0x74] := by decide

/-! ### The obligations -/

/-- Settles O47: the BUSY bit alone decides between acceptance and the drop. -/
theorem cmdWriteIsAcceptedOrDropped : Obligations.CmdWriteIsAcceptedOrDropped := by
  intro s v h
  have hwrite : hostTransaction (.write 0x10 .word v) s = writeCmd v s := hostWrite_regOffset .cmd v h
  refine ⟨fun hi => ⟨hostRead_idle h hi (regAt_regOffset .cmd), ?_⟩, fun w hb => ?_⟩
  · rw [hwrite, writeCmd_of_idle v (busy_of_eng_idle hi), accept]
  · rw [hwrite, writeCmd_of_busy v (busy_of_eng_busy hb)]

/-- Settles O48: the RW and the RO offsets are those of the map's access codes, so one rule per code answers each
list, and the offsets from 0x78 on reach no register. -/
theorem writesWhileBusyAreDropped : Obligations.WritesWhileBusyAreDropped := by
  intro s v h
  refine ⟨fun w hb => ?rw, fun _ _ => ⟨hostWrite_regOffset .ctrl v h, hostWrite_status v h⟩, ?ro,
    fun off hoff => ?reserved⟩
  case rw =>
    rw [← offsetsWhere_rw]
    refine forall_mem_offsetsWhere fun r hr => ?_
    obtain ⟨ha, hc⟩ := of_decide_eq_true hr
    rw [hostWrite_regOffset r v h, writeRegister_rw ha hc, writeRw_of_busy r v (busy_of_eng_busy hb)]
  case ro =>
    rw [← offsetsWhere_ro]
    exact forall_mem_offsetsWhere fun r hr => hostWrite_ro v h (regAt_regOffset r) (of_decide_eq_true hr)
  case reserved =>
    obtain ⟨-, -, hno⟩ := otherAccessesHaveNoEffect off .word
    exact (hno s (by omega)).1 v

end Sys2Proof.Machine
end

