-- ==== Sys2Proof/Proofs/StepInvariants.lean ====
section
/-! PROOF. What every step keeps: the buffers' canonical form, the chain of valid flags and the whole invariant, which
holds at reset (spec/10_state.md R61 to R76; spec/40_command_model.md R197; spec/70_reset_and_hazards.md R450). -/

namespace Sys2Proof.Machine
open Sys2Proof

/-! ### One step kept, move by move -/

/-- A property that each of the three kinds of move keeps, and taking a move off the agenda too, is kept by every
step. Unlike `step_keeps` it may read the control fields and the pin. -/
theorem step_keeps_of_moves {P : State → Prop} (hagenda : ∀ s rest, P s → P { s with agenda := rest })
    (hengine : ∀ s t, P s → engineMove s = .next t → P t) (hhost : ∀ s x, P s → P (hostTransaction x s))
    (hpin : ∀ s b, P s → P (setResetPin b s)) {s t : State} (hs : P s) (hstep : step s = .next t) : P t := by
  obtain ⟨u, hu, hmove⟩ := step_cases hstep
  have hPu : P u := by
    rcases hu with rfl | ⟨_, rest, -, rfl⟩
    · exact hs
    · exact hagenda s rest hs
  rcases hmove with hmove | ⟨x, rfl⟩ | ⟨b, rfl⟩
  · exact hengine u t hPu hmove
  · exact hhost u x hPu
  · exact hpin u b hPu

/-! ### The parameters -/

/-- Every step keeps the parameters legal: no move writes them (R6). -/
theorem step_keeps_params {s t : State} (h : s.cfg.wf = true) (hstep : step s = .next t) : t.cfg.wf = true := by
  refine step_keeps (P := fun u => u.cfg.wf = true) (fun i u hu => ?_) (fun _ _ _ _ _ _ _ _ _ _ _ hu => hu)
    (fun _ hu => hu) (fun v u r hu => ?_) h hstep
  · obtain ⟨hcfg, -⟩ := cmdOf_keeps_pins u.cfg u.rstN i u ⟨rfl, rfl⟩
    rwa [hcfg]
  · rcases storeRegister_cases v u r with ⟨_, _, _, _, _, _, _, _, _, he⟩ | ⟨-, he⟩ | ⟨-, he⟩ <;> rw [he] <;> exact hu

/-! ### The buffers -/

/-- The store of a RW register keeps the buffers canonical and in range: a data write goes below the capacity (R48,
R50). -/
theorem storeRegister_keeps_buffers (v : Word) (s : State) (r : Reg) (h : BuffersOk s) :
    BuffersOk (storeRegister v s r) := by
  obtain ⟨hsin, hsinIn, hcbuf, hcbufIn⟩ := h
  rcases storeRegister_cases v s r with ⟨_, _, _, _, _, _, _, _, _, he⟩ | ⟨hlt, he⟩ | ⟨hlt, he⟩ <;> rw [he]
  · exact ⟨hsin, hsinIn, hcbuf, hcbufIn⟩
  · exact ⟨Memory.wf_write hsin _ _, Memory.within_write hsinIn hlt _, hcbuf, hcbufIn⟩
  · exact ⟨hsin, hsinIn, Memory.wf_write hcbuf _ _, Memory.within_write hcbufIn hlt _⟩

/-- Settles O60: commands keep the buffers, a store writes below the capacity, and a reset empties both lists. -/
theorem stepKeepsBuffersCanonical : Obligations.StepKeepsBuffersCanonical := fun _ _ =>
  step_keeps cmdOf_keeps_buffers
    (fun _ _ _ _ _ _ _ _ _ _ _ h => ⟨h.sinWf, h.sinWithin, h.cbufWf, h.cbufWithin⟩)
    (fun _ _ => ⟨rfl, rfl, rfl, rfl⟩) storeRegister_keeps_buffers

/-! ### The flag chain (R197) -/

/-- No store, so every flag is 0 and the chain holds. -/
theorem flagChain_of_no_stores {s : State} (htree : s.tree = none) (hcb : s.cb = none) : FlagChain s where
  cbNeedsTree h := by simp [State.cbValid, hcb] at h
  treeNeedsFt h := by simp [State.treeValid, htree] at h

/-- The store of a RW register touches no valid flag. -/
theorem storeRegister_keeps_flagChain (v : Word) (s : State) (r : Reg) (h : FlagChain s) :
    FlagChain (storeRegister v s r) := by
  rcases storeRegister_cases v s r with ⟨_, _, _, _, _, _, _, _, _, he⟩ | ⟨-, he⟩ | ⟨-, he⟩ <;> rw [he] <;>
  exact ⟨h.cbNeedsTree, h.treeNeedsFt⟩

/-- Settles O59: the commands keep the chain, and a reset clears every flag. -/
theorem stepKeepsTheFlagChain : Obligations.StepKeepsTheFlagChain :=
  ⟨flagChain_of_no_stores rfl rfl, fun _ _ =>
    step_keeps cmdOf_keeps_flagChain (fun _ _ _ _ _ _ _ _ _ _ _ h => ⟨h.cbNeedsTree, h.treeNeedsFt⟩)
      (fun _ _ => flagChain_of_no_stores rfl rfl) storeRegister_keeps_flagChain⟩

/-! ### The stores and lengths -/

/-- `DataOk` reads the parameters, the stores and SOUT alone. -/
theorem DataOk.congr {s t : State} (h : DataOk s) (hcfg : t.cfg = s.cfg) (hft : t.ft = s.ft) (htree : t.tree = s.tree)
    (hcb : t.cb = s.cb) (hbits : t.bits = s.bits) (hpk : t.pk = s.pk) (hsout : t.sout = s.sout) : DataOk t := by
  obtain ⟨⟨htable, hbuilt, hcodes⟩, hlbits, hlpk, hlsout, hsyms⟩ := h
  have hentries : t.ftEntries = s.ftEntries := by rw [State.ftEntries, hft, State.ftEntries]
  refine ⟨⟨?_, ?_, ?_⟩, ?_, ?_, ?_, ?_⟩
  · rwa [hft]
  · rwa [htree, hft]
  · rwa [hcb, htree, hentries]
  · rwa [hbits, hcfg]
  · rwa [hpk, hcfg]
  · rwa [hsout, hcfg]
  · rwa [hsout]

/-- With every store invalid and SOUT empty there is nothing to check. -/
theorem dataOk_of_no_stores {s : State} (hft : s.ft = none) (htree : s.tree = none) (hcb : s.cb = none)
    (hbits : s.bits = none) (hpk : s.pk = none) (hsout : s.sout = []) : DataOk s :=
  ⟨storesOk_table (by simp [hft]) htree hcb, by simp [hbits], by simp [hpk], by simp [hsout], by simp [hsout]⟩

/-- The store of a RW register touches no store, nor SOUT. -/
theorem storeRegister_keeps_data (v : Word) (s : State) (r : Reg) (h : DataOk s) : DataOk (storeRegister v s r) := by
  rcases storeRegister_cases v s r with ⟨_, _, _, _, _, _, _, _, _, he⟩ | ⟨-, he⟩ | ⟨-, he⟩ <;> rw [he] <;>
  exact h.congr rfl rfl rfl rfl rfl rfl rfl

/-- Every step keeps the stores and lengths as the rules say (R61, R63, R64, R67, R68, R72). -/
theorem step_keeps_data {s t : State} (h : DataOk s) (hstep : step s = .next t) : DataOk t :=
  step_keeps cmdOf_keeps_data (fun _ _ _ _ _ _ _ _ _ _ _ h => h.congr rfl rfl rfl rfl rfl rfl rfl)
    (fun _ _ => dataOk_of_no_stores rfl rfl rfl rfl rfl rfl) storeRegister_keeps_data h hstep

/-! ### The control fields (R45, R46) -/

theorem control_resetBlock (s : State) : ControlOk (resetBlock s) := control_of_idle rfl (.inl rfl)

/-- The store of a RW register touches no control field. -/
theorem storeRegister_keeps_control (v : Word) (s : State) (r : Reg) (h : ControlOk s) :
    ControlOk (storeRegister v s r) := by
  rcases storeRegister_cases v s r with ⟨_, _, _, _, _, _, _, _, _, he⟩ | ⟨-, he⟩ | ⟨-, he⟩ <;> rw [he] <;>
  exact ⟨h.busyDone, h.busyErr, h.errcode⟩

/-- The engine's move holds the state or completes. -/
theorem engineMove_keeps_control (s t : State) (h : ControlOk s) (hmove : engineMove s = .next t) : ControlOk t := by
  rcases engineMove_cases hmove with rfl | ⟨-, _, -, ⟨_, -, rfl⟩ | rfl⟩
  · exact h
  · exact control_complete _
  · exact control_complete _

/-- A host transaction resets, changes records, sets no DONE that was 0, accepts with DONE and ERRCODE cleared, or
stores a register. -/
theorem hostTransaction_keeps_control (s : State) (x : Transaction) (h : ControlOk s) :
    ControlOk (hostTransaction x s) := by
  rcases hostTransaction_cases x s with ⟨-, -, he⟩
    | ⟨-, ⟨_, _, he⟩ | ⟨_, d, _, _, -, hd, he⟩ | ⟨-, -, _, he⟩ | ⟨-, -, v, r, he⟩⟩ <;> rw [he]
  · exact control_resetBlock s
  · exact ⟨h.busyDone, h.busyErr, h.errcode⟩
  · refine ⟨fun hbusy => Bool.eq_false_iff.2 fun hdone => ?_, h.busyErr, h.errcode⟩
    exact Bool.eq_false_iff.1 (h.busyDone hbusy) (hd hdone)
  · exact ⟨fun _ => rfl, fun _ => rfl, .inl rfl⟩
  · exact storeRegister_keeps_control v s r h

/-- The pin resets the block or changes itself alone. -/
theorem setResetPin_keeps_control (s : State) (b : Bool) (h : ControlOk s) : ControlOk (setResetPin b s) := by
  cases b with
  | false => exact control_of_idle rfl (.inl rfl)
  | true => exact ⟨h.busyDone, h.busyErr, h.errcode⟩

theorem step_keeps_control {s t : State} (h : ControlOk s) (hstep : step s = .next t) : ControlOk t :=
  step_keeps_of_moves (fun _ _ h => ⟨h.busyDone, h.busyErr, h.errcode⟩) engineMove_keeps_control
    hostTransaction_keeps_control setResetPin_keeps_control h hstep

/-! ### The reset values, held while the pin is low (R450) -/

/-- The model's own records may change while the block is held in reset. -/
theorem HeldInReset.with_records {s : State} (h : HeldInReset s) (v : Option Word) (rest : List Move) (d : Nat) :
    HeldInReset { s with readData := v, agenda := rest, draws := d } := fun hlow =>
  congrArg (fun u : State => { u with readData := v, agenda := rest, draws := d }) (h hlow)

/-- A command runs with the pin high, and leaves it so. -/
theorem engineMove_keeps_held (s t : State) (h : HeldInReset s) (hmove : engineMove s = .next t) : HeldInReset t := by
  rcases engineMove_cases hmove with rfl | ⟨hhigh, _, -, ⟨i, -, rfl⟩ | rfl⟩
  · exact h
  · obtain ⟨w, hw⟩ := complete_eq (cmdOf i s)
    obtain ⟨-, hpin⟩ := cmdOf_keeps_pins s.cfg s.rstN i s ⟨rfl, rfl⟩
    exact held_of_high (by rw [hw, completeWith_rstN, hpin, hhigh])
  · exact held_of_high hhigh

/-- A host transaction that changes more than the model's records needs the pin high, and leaves it so. -/
theorem hostTransaction_keeps_held (s : State) (x : Transaction) (h : HeldInReset s) :
    HeldInReset (hostTransaction x s) := by
  rcases hostTransaction_cases x s with ⟨hhigh, -, he⟩
    | ⟨-, ⟨v, d, he⟩ | ⟨_, _, _, _, hhigh, -, he⟩ | ⟨hhigh, -, _, he⟩ | ⟨hhigh, -, v, r, he⟩⟩ <;> rw [he]
  · exact held_of_high hhigh
  · exact h.with_records v s.agenda d
  · exact held_of_high hhigh
  · exact held_of_high hhigh
  · rcases storeRegister_cases v s r with ⟨_, _, _, _, _, _, _, _, _, he'⟩ | ⟨-, he'⟩ | ⟨-, he'⟩ <;> rw [he'] <;>
    exact held_of_high hhigh

/-- The pin going low puts the reset values in place; going high, it holds nothing. -/
theorem heldInReset_setResetPin (s : State) (b : Bool) : HeldInReset (setResetPin b s) := by
  cases b with
  | false => exact fun _ => rfl
  | true => exact held_of_high rfl

theorem step_keeps_held {s t : State} (h : HeldInReset s) (hstep : step s = .next t) : HeldInReset t :=
  step_keeps_of_moves (fun s rest h => h.with_records s.readData rest s.draws) engineMove_keeps_held
    hostTransaction_keeps_held (fun s b _ => heldInReset_setResetPin s b) h hstep

/-! ### The invariant -/

/-- Settles O58: each part of the invariant is kept by every step on its own. -/
theorem stepKeepsTheInvariant : Obligations.StepKeepsTheInvariant := by
  intro s t hinv hstep
  obtain ⟨hstores, hlengths⟩ := step_keeps_data ⟨hinv.stores, hinv.lengths⟩ hstep
  exact ⟨step_keeps_params hinv.params hstep, stepKeepsBuffersCanonical s t hinv.buffers hstep, hstores, hlengths,
    step_keeps_control hinv.control hstep, step_keeps_held hinv.held hstep⟩

/-- The bounds of R6 as propositions. -/
theorem params_wf_iff (p : Params) : p.wf = true ↔ p.base % 256 = 0 ∧ (1 ≤ p.sinCap ∧ p.sinCap ≤ 2 ^ 30 - 1)
    ∧ (1 ≤ p.cbufCap ∧ p.cbufCap ≤ 2 ^ 29 - 1) ∧ 1 ≤ p.soutCap ∧ p.soutCap ≤ 2 ^ 32 - 1 := by
  simp only [Params.wf, Bool.and_eq_true, beq_iff_eq, decide_eq_true_eq, and_assoc]

/-- The parameters lie within R6 whatever the raw numbers are: each is a remainder, plus 1. -/
theorem configParams_wf : Config.params.wf = true := by
  rw [params_wf_iff]
  simp only [Config.params]
  omega

/-- Settles O57: the reset values meet the invariant with any legal parameters. -/
theorem resetMeetsTheInvariant : Obligations.ResetMeetsTheInvariant := resetFor_inv configParams_wf

end Sys2Proof.Machine
end

