-- ==== Sys2Proof/Proofs/Schedule.lean ====
section
/-! PROOF. Command words, what one step is, and that an accepted command completes (spec/30_encoding.md R140 to R145;
spec/60_exceptions.md R400, R435; spec/70_reset_and_hazards.md R471). -/

namespace Sys2Proof.Machine
open Sys2Proof

/-! ### Decode and encode -/

/-- Settles O2: a decoded word's opcode is its command's and RSV is 0, so it is the command's word; and the opcode map
has a row exactly for the opcodes in use. -/
theorem decodeAgreesWithEncode : Obligations.DecodeAgreesWithEncode := fun w =>
  ⟨decodeWord_eq_ok w, decodeWord_isOk w⟩

/-! ### One step -/

/-- With the agenda used up the engine moves (R471). -/
theorem step_of_agenda_nil {s : State} (h : s.agenda = []) : step s = engineMove s := by
  simp only [step, nextStep, h]

/-- With a move at the head of the agenda that move is taken (R30, R32). -/
theorem step_of_agenda_cons {s : State} {m : Move} {rest : List Move} (h : s.agenda = m :: rest) :
    step s = takeMove m { s with agenda := rest } := by
  simp only [step, nextStep, h]

/-- While IDLE the engine holds the block's state (R435). -/
theorem engineMove_of_idle {s : State} (h : s.eng = .idle) : engineMove s = .next s := by
  simp only [engineMove, h, holdState_eq]

/-- In reset the engine holds the block's state (R450). -/
theorem engineMove_of_low {s : State} (h : s.rstN = false) : engineMove s = .next s := by
  simp only [engineMove, h, Bool.false_eq_true, if_false, holdState_eq]
  split <;> rfl

/-- While BUSY with the pin high the engine completes the latched word (R190). -/
theorem engineMove_of_busy {s : State} {w : Word} (h : s.eng = .busy w) (hhigh : s.rstN = true) :
    engineMove s = completionStep w s := by
  simp only [engineMove, h, hhigh, if_true]

/-- A word as a 32-bit table word is itself. -/
theorem tableWord_toNat (w : Word) : tableWord 32 w.toNat = w := by
  rw [tableWord, Nat.mod_eq_of_lt w.isLt, BitVec.ofNat_toNat, BitVec.setWidth_eq]

/-- The state withFetchWord makes has the engine to move next, on the state that acceptance of the word leaves (log
5). -/
theorem step_withFetchWord (s : State) (w : Word) :
    step (s.withFetchWord 32 w.toNat) = completionStep w { accept w s with rstN := true } := by
  rw [State.withFetchWord, tableWord_toNat]
  have hhead : (latchCommand w s).agenda = .engine :: s.agenda := rfl
  exact (step_of_agenda_cons hhead).trans (engineMove_of_busy (s := { accept w s with rstN := true }) rfl rfl)

/-- While IDLE with the pin high, a CMD write leaves what acceptance leaves (R45). -/
theorem accept_eq_hostWrite {s : State} (w : Word) (hi : s.eng = .idle) (h : s.rstN = true) :
    { accept w s with rstN := true } = hostTransaction (.write 0x10 .word w) s := by
  obtain ⟨-, haccept⟩ := (cmdWriteIsAcceptedOrDropped s w h).1 hi
  rw [haccept, accept, h]

/-- Settles O4: each clause is the head of the agenda taken, and the engine's move by its state. -/
theorem stepRunsTheDecodedCommand : Obligations.StepRunsTheDecodedCommand := by
  intro s
  refine ⟨fun x rest ha => step_of_agenda_cons ha, fun b rest ha => step_of_agenda_cons ha,
    fun hi => ⟨fun ha => ?_, fun rest ha => ?_⟩, fun w hb hhigh => ⟨fun ha => ?_, fun rest ha => ?_⟩,
    step_withFetchWord s, fun w hi hhigh => ?_, fun w i hd => ?_⟩
  · rw [step_of_agenda_nil ha, engineMove_of_idle hi]
  · exact (step_of_agenda_cons ha).trans (engineMove_of_idle hi)
  · rw [step_of_agenda_nil ha, engineMove_of_busy hb hhigh]
  · exact (step_of_agenda_cons ha).trans (engineMove_of_busy hb hhigh)
  · rw [step_withFetchWord, accept_eq_hostWrite w hi hhigh]
  · simp only [completionStep, hd]

/-! ### No error is fatal (R400) -/

/-- The completion step of every word, legal or not, leaves an IDLE state with DONE set (R190, R201). -/
theorem completionStep_completes (w : Word) (s : State) :
    ∃ t, completionStep w s = .next t ∧ t.eng = .idle ∧ t.done = true := by
  cases hd : decodeWord w with
  | ok i => exact ⟨complete (cmdOf i s), by simp only [completionStep, hd, exec_eq_finish, finish], complete_eng _⟩
  | error e => exact ⟨complete (illegalCmd w s), by simp only [completionStep, hd, execIllegal, finish], complete_eng _⟩

/-- Settles O5: each kind of move is a next state, and so is each command's completion. -/
theorem nothingStopsTheMachine : Obligations.NothingStopsTheMachine := by
  refine ⟨fun s => ?_, fun i s => ⟨complete (cmdOf i s), exec_eq_finish i s, complete_eng _⟩⟩
  cases ha : s.agenda with
  | nil => rw [step_of_agenda_nil ha]; exact engineMove_next s
  | cons m rest =>
    rw [step_of_agenda_cons ha]
    cases m with
    | engine => exact engineMove_next _
    | host x => exact ⟨_, rfl⟩
    | rstPin b => exact ⟨_, rfl⟩

/-! ### An accepted command completes (R471) -/

/-- What a command reads: the parameters, the lengths, the stores and the buffers (R126, R129). -/
def commandInputs (s : State) : Params × Word × Word × Option (List Entry) × Option HuffTree × Option (List Code)
    × Option (List Bool) × Option (List Byte) × Memory Word × Memory Byte × Nat :=
  (s.cfg, s.sinLen, s.cbufLen, s.ft, s.tree, s.cb, s.bits, s.pk, s.sin, s.cbuf, s.epoch)

/-- The next step of a BUSY block completes its word when the agenda has the engine at its head or nothing left. -/
theorem step_completes {s : State} {w : Word} (hb : s.eng = .busy w) (hhigh : s.rstN = true)
    (ha : s.agenda = [] ∨ ∃ rest, s.agenda = .engine :: rest) :
    ∃ t, step s = .next t ∧ t.eng = .idle ∧ t.done = true := by
  obtain ⟨-, -, -, hbusy, -⟩ := stepRunsTheDecodedCommand s
  rcases ha with ha | ⟨rest, ha⟩
  · rw [(hbusy w hb hhigh).1 ha]; exact completionStep_completes w _
  · rw [(hbusy w hb hhigh).2 rest ha]; exact completionStep_completes w _

/-- Any other move that is no reset leaves a BUSY block with its word and its command's inputs. -/
theorem step_waits {s : State} {w : Word} {m : Move} {rest : List Move} (hb : s.eng = .busy w) (hhigh : s.rstN = true)
    (ha : s.agenda = m :: rest) (hm : m ≠ .engine) (hn : resets m = false) :
    ∃ u, step s = .next u ∧ u.eng = .busy w ∧ u.rstN = true ∧ u.agenda = rest ∧ commandInputs u = commandInputs s := by
  rw [step_of_agenda_cons ha]
  cases m with
  | engine => exact absurd rfl hm
  | host x =>
    obtain ⟨_, _, _, _, _, _, -, hx⟩ := hostTransaction_busy (s := { s with agenda := rest }) hb hn
    exact ⟨_, congrArg Host.Outcome.next hx, hb, hhigh, rfl, rfl⟩
  | rstPin high =>
    cases high with
    | false => cases hn
    | true => exact ⟨_, rfl, hb, rfl, rfl, rfl⟩

/-- Settles O6, by induction on the agenda: up to the engine's first move, or the agenda's end, every move leaves the
command waiting with its word and inputs. -/
theorem acceptedCommandCompletes : Obligations.AcceptedCommandCompletes := by
  intro s w hb hhigh hresets
  suffices h : ∃ (k : Nat) (u t : State), k ≤ s.agenda.length ∧ Host.Core.run Sys2Proof.core k s = .next u
      ∧ u.eng = .busy w ∧ step u = .next t ∧ t.eng = .idle ∧ t.done = true ∧ commandInputs u = commandInputs s by
    simpa only [commandInputs, Prod.mk.injEq] using h
  generalize hagenda : s.agenda = agenda at hresets ⊢
  induction agenda generalizing s with
  | nil =>
    obtain ⟨t, ht, hidle, hdone⟩ := step_completes hb hhigh (.inl hagenda)
    exact ⟨0, s, t, le_rfl, rfl, hb, ht, hidle, hdone, rfl⟩
  | cons m rest ih =>
    by_cases hm : m = .engine
    · obtain ⟨t, ht, hidle, hdone⟩ := step_completes hb hhigh (.inr ⟨rest, hm ▸ hagenda⟩)
      exact ⟨0, s, t, Nat.zero_le _, rfl, hb, ht, hidle, hdone, rfl⟩
    · rw [List.all_cons, Bool.and_eq_true, Bool.not_eq_true'] at hresets
      obtain ⟨s', hs', hb', hhigh', ha', hsame⟩ := step_waits hb hhigh hagenda hm hresets.1
      obtain ⟨k, u, t, hk, hrun, hu, hstep, hidle, hdone, hsame'⟩ := ih s' hb' hhigh' ha' hresets.2
      refine ⟨k + 1, u, t, Nat.succ_le_succ hk, ?_, hu, hstep, hidle, hdone, hsame'.trans hsame⟩
      have hcore : Sys2Proof.core.step s = .next s' := hs'
      simp only [Host.Core.run, hcore, hrun]

end Sys2Proof.Machine
end

