-- ==== Sys2Proof/Proofs/CodingSuccess.lean ====
section
/-! PROOF. The merge queue as a set, and what ENCODE, DECODE and DESERIALIZE do on success (spec/42_tree.md R252;
spec/43_codebook.md R290; spec/44_bitpack.md R331, R334; spec/45_container.md R354 to R358). -/

namespace Sys2Proof.Machine
open Sys2Proof

/-! ### The queue's order does not matter (R252) -/

/-- A merge gives the new node a seq that no element left in the queue has, and every seq stays below the next one. -/
theorem mergeItems_keeps_seqs {a b : QItem} {rest l : List QItem} {next : Nat} (hperm : (a :: b :: rest).Perm l)
    (hnodup : (l.map QItem.seq).Nodup) (hbelow : ∀ z ∈ l, z.seq < next) :
    ((mergeItems a b next :: rest).map QItem.seq).Nodup ∧ ∀ z ∈ mergeItems a b next :: rest, z.seq < next + 1 := by
  have hrest : ∀ z ∈ rest, z.seq < next := fun z hz => hbelow z (hperm.subset (by simp [hz]))
  have hold : ((a :: b :: rest).map QItem.seq).Nodup := (hperm.map QItem.seq).nodup_iff.2 hnodup
  refine ⟨List.nodup_cons.2 ⟨fun hmem => ?_, hold.of_cons.of_cons⟩, fun z hz => ?_⟩
  · obtain ⟨z, hz, hseq⟩ := List.mem_map.1 hmem
    exact absurd hseq (hrest z hz).ne
  · rcases List.mem_cons.1 hz with rfl | hz
    · exact Nat.lt_succ_self next
    · exact (hrest z hz).trans (Nat.lt_succ_self next)

/-- Settles O13, by induction on the passes: both queues have the same least element and the same next one, by
`least_unique`, and what is left is again the same elements. -/
theorem queuePositionsIrrelevant : Obligations.QueuePositionsIrrelevant := by
  intro n
  induction n with
  | zero =>
    intro next x x' q q' hlen hperm _ _
    obtain rfl : q = [] := List.length_eq_zero_iff.1 (Nat.le_zero.1 hlen)
    obtain ⟨rfl, rfl⟩ := List.cons.inj (List.singleton_perm.1 hperm)
    rfl
  | succ n ih =>
    intro next x x' q q' hlen hperm hnodup hbelow
    rcases q with _ | ⟨y, q⟩
    · obtain ⟨rfl, rfl⟩ := List.cons.inj (List.singleton_perm.1 hperm)
      rfl
    rcases q' with _ | ⟨y', q'⟩
    · simpa using hperm.length_eq
    obtain ⟨a, b, rest, hp, ha, hb, he⟩ := mergeLoop_pass n next x y q
    obtain ⟨a', b', rest', hp', ha', hb', he'⟩ := mergeLoop_pass n next x' y' q'
    obtain ⟨rfl, htail⟩ := least_unique hperm hnodup hp hp' ha ha'
    have hnodup_tail : ((b :: rest).map QItem.seq).Nodup :=
      ((hp.map QItem.seq).nodup_iff.2 hnodup).of_cons
    obtain ⟨rfl, hrest⟩ := least_unique htail hnodup_tail (.refl _) (.refl _) hb hb'
    obtain ⟨hnodup', hbelow'⟩ := mergeItems_keeps_seqs hp hnodup hbelow
    have hshort : rest.length ≤ n := by
      have := hp.length_eq
      simp only [List.length_cons] at this hlen
      omega
    rw [he, he']
    exact ih _ _ _ _ _ hshort (hrest.cons _) hnodup' hbelow'

/-! ### ENCODE -/

/-- ENCODE of a text it knows, whose stream fits, leaves that stream (R290). -/
theorem encodeCmd_of_fits {s : State} {cs : List Code} (hcb : s.cb = some cs) (hlen : s.sinLen.toNat ≤ s.cfg.sinCap)
    (hknown : ∀ x ∈ s.text, ∃ e ∈ s.ftEntries, e.sym = x)
    (hfit : (codeBits s.ftEntries cs s.text).length ≤ 8 * s.cfg.cbufCap) :
    encodeCmd s = .ok { s with bits := some (codeBits s.ftEntries cs s.text) } := by
  simp only [encodeCmd, hcb, if_neg hlen.not_gt, encodeText_some hknown, if_neg hfit.not_gt]

/-- Settles O16: the encoder's loop makes the codes at the symbols' places in FT, one after the other. -/
theorem encodeConcatenatesCodes : Obligations.EncodeConcatenatesCodes := fun _ _ hcb hlen hknown hfit =>
  exec_of_ok (i := .encode) (encodeCmd_of_fits hcb hlen hknown hfit)

/-! ### DECODE -/

/-- Settles O22: the walk over whole codes emits their symbols, as many as there are codes. -/
theorem decodeEmitsLeafSymbols : Obligations.DecodeEmitsLeafSymbols := by
  intro s tr p htree hp hbits hcount hfit
  exact exec_decode_of_emits htree hbits (decodeWalk_whole_codes hp) (by rwa [List.length_map])
    (by rwa [List.length_map])

/-! ### DESERIALIZE -/

/-- DESERIALIZE with CBUF_LEN above CBUF_CAP is InputUnavailableError (R355). -/
theorem deserializeCmd_of_long {s : State} (hlong : s.cfg.cbufCap < s.cbufLen.toNat) :
    deserializeCmd s = raiseIn .deserialize .inputUnavailable s.clearParsed := if_pos hlong

/-- DESERIALIZE of bytes that are no container of a table that meets R61 is CorruptStreamError (R356 to R358). -/
theorem deserializeCmd_of_no_container {s : State} (hlen : s.cbufLen.toNat ≤ s.cfg.cbufCap)
    (hno : ¬ ∃ ft p, TableOk ft ∧ s.cbufRead 0 s.cbufLen.toNat = container ft p) :
    deserializeCmd s = raiseIn .deserialize .corruptStream s.clearParsed := by
  rcases deserializeCmd_cases s with ⟨hlong, -⟩ | ⟨-, -, he⟩ | ⟨-, ft, p, hok, hread, -⟩
  · exact absurd hlen hlong.not_ge
  · exact he
  · exact absurd ⟨ft, p, hok, hread⟩ hno

/-- Settles O29: a parse that succeeds found a container, and a container parses, so the three cases are DESERIALIZE's
own. -/
theorem deserializeAcceptsExactlyContainers : Obligations.DeserializeAcceptsExactlyContainers := fun s =>
  ⟨fun hlong => exec_of_raiseIn (i := .deserialize) (deserializeCmd_of_long hlong), fun hlen =>
    ⟨fun ft p hok hread => deserializeInvertsSerialize s ft p hok hlen hread,
      fun hno => exec_of_raiseIn (i := .deserialize) (deserializeCmd_of_no_container hlen hno)⟩⟩

end Sys2Proof.Machine
end

