-- ==== Sys2Proof/Proofs/Composites.lean ====
section
/-! PROOF. COMPRESS by its container, the empty text, DECOMPRESS of a container, the round trip and the two sizes
(spec/45_container.md R360 to R367). -/

namespace Sys2Proof.Machine
open Sys2Proof

/-! ### COMPRESS -/

/-- A table with a tree is not empty (R255). -/
theorem CompressPlan.counts_ne_nil {s : State} {tr : HuffTree} {b : List Bool} (hplan : CompressPlan s tr b) :
    countsOf s.text ≠ [] := by
  intro hempty
  have htree := hplan.tree
  rw [huffmanTree_eq_none.2 hempty] at htree
  cases htree

/-- The empty text has the empty table. -/
theorem CompressPlan.text_ne_nil {s : State} {tr : HuffTree} {b : List Bool} (hplan : CompressPlan s tr b) :
    s.text ≠ [] := fun hempty => hplan.counts_ne_nil (by simp [hempty, countsOf])

/-- COMPRESS of a text that has a container leaves it when it fits CBUF, and else raises an error (R360, R363). -/
theorem compressCmd_of_container {s : State} {c : List Byte} (hlen : s.sinLen.toNat ≤ s.cfg.sinCap)
    (hc : Countable s.text) (hcontainer : containerOfText s.text = some c) :
    ∃ t b, c = container (countsOf s.text) (packed b)
      ∧ ((c.length ≤ s.cfg.cbufCap ∧ compressCmd s = .ok (compressedState s t b))
        ∨ (s.cfg.cbufCap < c.length ∧ ∃ st u, compressCmd s = .err .outputWrite st u)) := by
  obtain ⟨hscalar, hsize⟩ := hc
  rcases compressCmd_cases s with ⟨hbad, -⟩ | ⟨-, -, hmany, -⟩ | ⟨-, hempty, -⟩ | ⟨t, b, hplan, hroom⟩
  · exact absurd hbad ((input_available_iff s).1 ⟨hlen, hscalar⟩)
  · exact absurd hsize hmany.not_ge
  · rw [hempty, containerOfText_nil] at hcontainer
    cases hcontainer
  · obtain rfl : container (countsOf s.text) (packed b) = c :=
      Option.some.inj ((containerOfText_eq hplan).symm.trans hcontainer)
    refine ⟨t, b, rfl, ?_⟩
    rcases hroom with hfits | ⟨hlong, _, _, he⟩
    · exact .inl hfits
    · exact .inr ⟨hlong, _, _, he⟩

/-- Settles O30: a text with a container is compressed to it exactly when it fits, and what fits is written as one list
at CBUF[0 ..). -/
theorem compressSucceedsWhenContainerFits : Obligations.CompressSucceedsWhenContainerFits := by
  intro s c hcfg hlen hc hcontainer
  refine ⟨complete (compressCmd s), exec_eq_finish .compress s, (complete_eng _).1, (complete_eng _).2, ?_⟩
  obtain ⟨t, b, rfl, ⟨hfit, he⟩ | ⟨hlong, st, u, he⟩⟩ := compressCmd_of_container hlen hc hcontainer
  · obtain ⟨hsize, hread⟩ := compressed_reads (tr := t) hcfg hfit
    rw [he]
    refine ⟨iff_of_true rfl hfit, fun _ => ⟨?_, hsize, rfl, rfl, fun a ha => cbufAt_writeList_beyond s _ ha⟩⟩
    exact (congrArg _ hsize).trans ((hread _ le_rfl).trans List.take_length)
  · have hfailed : (complete (compressCmd s)).errcode ≠ 0 := by rw [he]; exact errorWord_ne_zero _ _
    exact ⟨iff_of_false hfailed hlong.not_ge, fun hzero => absurd hzero hfailed⟩

/-- Settles O31: FT_BUILD counts the empty text to the empty table, of which TREE_BUILD makes no tree. -/
theorem compressOfEmptyText : Obligations.CompressOfEmptyText := by
  intro s hlen
  have hempty : s.text = [] := List.length_eq_zero_iff.1 (by rw [text_length, hlen]; rfl)
  have hcmd : compressCmd s
      = .err .emptyInput 0x02 { s with ft := some [], tree := none, cb := none, origBytes := 0 } := by
    rcases compressCmd_cases s with ⟨hlong | hbad, -⟩ | ⟨-, -, hmany, -⟩ | ⟨-, -, he⟩ | ⟨t, b, hplan, -⟩
    · rw [hlen] at hlong
      exact absurd hlong (Nat.not_lt_zero _)
    · rw [hempty] at hbad
      cases hbad
    · rw [hempty] at hmany
      exact absurd hmany (Nat.not_lt_zero _)
    · exact he
    · exact absurd hempty hplan.text_ne_nil
  rw [exec_eq_finish, cmdOf, hcmd]
  rfl

/-! ### DECOMPRESS -/

/-- DECOMPRESS of a container whose stream decodes to W symbols, no more than SOUT holds (R362). -/
theorem exec_decompress_of_emits {s : State} {ft : List Entry} {pk : List Byte} {tr : HuffTree} {b : List Bool}
    {out : List Nat} (htable : TableOk ft) (hlen : s.cbufLen.toNat ≤ s.cfg.cbufCap)
    (hread : s.cbufRead 0 s.cbufLen.toNat = container ft pk) (htree : huffmanTree ft = some tr)
    (hb : unpackBits pk = some b) (hwalk : decodeWalk tr [] b = some out) (hcount : out.length = totalFreq ft)
    (hfit : out.length ≤ s.cfg.soutCap) :
    exec .decompress s = .next { s with
      ft := some ft, tree := some tr, cb := none, pk := some pk, bits := some b, sout := out
      errcode := 0, eng := .idle, done := true } := by
  rw [exec_decompress_of_container htable hlen hread htree hb]
  exact exec_decode_of_emits rfl rfl hwalk hcount hfit

/-- Settles O33: a stream of W root paths to leaves decodes to their symbols. -/
theorem decompressSucceeds : Obligations.DecompressSucceeds := by
  intro s ft pk tr p hlen htable hread htree hp hb hcount hfit
  exact exec_decompress_of_emits htable hlen hread htree hb (decodeWalk_whole_codes hp)
    (by rwa [List.length_map]) (by rwa [List.length_map])

/-- Settles O34: COMPRESS leaves the container of the text's counts and stream; unpacking gives the stream back, and the
walk over it emits the text. -/
theorem decompressInvertsCompress : Obligations.DecompressInvertsCompress := by
  intro s t hcfg hexec hzero hfit
  obtain ⟨tr, b, hplan, hroom, rfl⟩ := compress_success hexec hzero
  obtain ⟨hsize, hread⟩ := compressed_reads (tr := tr) hcfg hroom
  have hwhole := hread _ le_rfl
  rw [List.take_length, ← hsize] at hwhole
  exact ⟨_, exec_decompress_of_emits (countable_table hcfg hplan.text) (hsize.trans_le hroom) hwhole hplan.tree
    (unpackBits_packed b) hplan.decodeWalk_stream (totalFreq_countsOf s.text).symm hfit, rfl, rfl⟩

/-! ### The two sizes (R367) -/

/-- The UTF-8 size of a non-empty text is not 0, and it fits ORIG_BYTES. -/
theorem utf8len_sum_bounds {s : State} (hcfg : s.cfg.wf = true) (hlen : s.sinLen.toNat ≤ s.cfg.sinCap)
    (hne : s.text ≠ []) : 1 ≤ (s.text.map utf8len).sum ∧ (s.text.map utf8len).sum < 2 ^ 32 := by
  obtain ⟨hcap, -⟩ := Params_bounds hcfg
  have hpos : 1 ≤ s.text.length := List.length_pos_iff.2 hne
  have hlow := length_le_utf8len_sum s.text
  have hhigh := utf8len_sum_le s.text
  rw [text_length] at hpos hlow hhigh
  omega

/-- A container with an entry and a packed stream with a bit: two bytes of count, six or more of entry, the padding count
and a byte of bits. -/
theorem ten_le_container_length {ft : List Entry} {b : List Bool} (hft : ft ≠ []) (hb : b ≠ []) :
    10 ≤ (container ft (packed b)).length := by
  have hbits : 1 ≤ b.length := List.length_pos_iff.2 hb
  obtain ⟨e, ft', rfl⟩ := List.exists_cons_of_ne_nil hft
  have hsym := utf8_length_pos e.sym
  rw [container_length, packed_length, List.map_cons, List.sum_cons]
  omega

/-- Settles O37: the text of a successful COMPRESS and its stream are not empty, and both sizes fit their registers. -/
theorem sizesAfterCompress : Obligations.SizesAfterCompress := by
  intro s t hcfg hexec hzero
  obtain ⟨tr, b, hplan, hroom, rfl⟩ := compress_success hexec hzero
  obtain ⟨horig, horigFits⟩ := utf8len_sum_bounds hcfg hplan.fits hplan.text_ne_nil
  obtain ⟨hsize, -⟩ := compressed_reads (tr := tr) hcfg hroom
  have horigHeld : (BitVec.ofNat 32 (s.text.map utf8len).sum).toNat = (s.text.map utf8len).sum := by
    rw [BitVec.toNat_ofNat, Nat.mod_eq_of_lt horigFits]
  exact ⟨horig.trans_eq horigHeld.symm,
    (ten_le_container_length hplan.counts_ne_nil hplan.stream_ne_nil).trans_eq hsize.symm⟩

end Sys2Proof.Machine
end

