-- ==== Sys2Proof/Proofs/CommandResults.lean ====
section
/-! PROOF. The errors each command can leave, what it keeps of SIN and CBUF, and that the host's side plays no part in
its result (spec/40_command_model.md R191, R194; spec/45_container.md R352; spec/60_exceptions.md R403). -/

namespace Sys2Proof.Machine
open Sys2Proof

/-! ### The errors of each command (R403) -/

/-- The ERRCODE a result leaves (R190). -/
def CmdResult.errcode : CmdResult → Word
  | .ok _ => 0
  | .err e step _ => errorWord e step

theorem complete_errcode (r : CmdResult) : (complete r).errcode = r.errcode := by cases r <;> rfl

theorem ftBuildCmd_errcode (s : State) : (ftBuildCmd s).errcode ∈ ([0, 0x0102, 0x0105] : List Word) := by
  rcases ftBuildCmd_cases s with ⟨-, -, h⟩ | ⟨-, h⟩ | ⟨-, -, -, h⟩ <;> simp only [h, CmdResult.errcode] <;> decide

theorem treeBuildCmd_errcode (s : State) : (treeBuildCmd s).errcode ∈ ([0, 0x0201, 0x0208] : List Word) := by
  rcases treeBuildCmd_cases s with ⟨-, h⟩ | ⟨-, h⟩ | ⟨_, _, -, -, -, h⟩ <;> simp only [h, CmdResult.errcode] <;>
  decide

theorem cbGenCmd_errcode (s : State) : (cbGenCmd s).errcode ∈ ([0, 0x0308] : List Word) := by
  rcases cbGenCmd_cases s with ⟨-, h⟩ | ⟨_, -, h⟩ <;> simp only [h, CmdResult.errcode] <;> decide

theorem encodeCmd_errcode (s : State) :
    (encodeCmd s).errcode ∈ ([0, 0x0405, 0x0406, 0x0408, 0x0409] : List Word) := by
  rcases encodeCmd_cases s with ⟨-, h⟩ | ⟨_, -, ⟨-, -, -, h⟩ | ⟨-, h⟩ | ⟨-, -, h⟩ | ⟨-, -, -, h⟩⟩ <;>
  simp only [h, CmdResult.errcode] <;> decide

theorem packCmd_errcode (s : State) : (packCmd s).errcode ∈ ([0, 0x0506, 0x0508] : List Word) := by
  rcases packCmd_cases s with ⟨-, h⟩ | ⟨_, -, ⟨-, h⟩ | ⟨-, h⟩⟩ <;> simp only [h, CmdResult.errcode] <;> decide

/-- A table that meets R61 has no more entries than the format can count, so SERIALIZE never finds too many (R350). -/
theorem serializeCmd_errcode {s : State} (hstores : StoresOk s) :
    (serializeCmd s).errcode ∈ ([0, 0x0601, 0x0606, 0x0608] : List Word) := by
  rcases serializeCmd_cases s with ⟨-, h⟩ | ⟨ft, _, hft, -, ⟨-, h⟩ | ⟨-, hmany, -⟩ | ⟨-, -, -, h⟩ | ⟨-, -, -, h⟩⟩
  case inr.inr.inl => exact absurd (hstores.table ft hft).size hmany.not_ge
  all_goals simp only [h, CmdResult.errcode]; decide

theorem deserializeCmd_errcode (s : State) : (deserializeCmd s).errcode ∈ ([0, 0x0704, 0x0705] : List Word) := by
  rcases deserializeCmd_cases s with ⟨-, h⟩ | ⟨-, -, h⟩ | ⟨-, _, _, -, -, h⟩ <;>
  simp only [h, CmdResult.errcode] <;> decide

theorem unpackCmd_errcode (s : State) : (unpackCmd s).errcode ∈ ([0, 0x0803, 0x0808] : List Word) := by
  rcases unpackCmd_cases s with ⟨-, h⟩ | ⟨_, -, ⟨-, h⟩ | ⟨_, -, h⟩⟩ <;> simp only [h, CmdResult.errcode] <;> decide

theorem decodeCmd_errcode (s : State) : (decodeCmd s).errcode ∈ ([0, 0x0904, 0x0906, 0x0908] : List Word) := by
  rcases decodeCmd_cases s with ⟨-, h⟩ | ⟨_, _, -, -, ⟨-, h⟩ | ⟨_, -, ⟨-, h⟩ | ⟨-, -, h⟩ | ⟨-, -, h⟩⟩⟩ <;>
  simp only [h, CmdResult.errcode] <;> decide

/-- An overflow of COMPRESS is found by ENCODE, PACK or SERIALIZE (R363). -/
theorem overflowStep_cases (cap : Nat) (b : List Bool) :
    overflowStep cap b = 0x04 ∨ overflowStep cap b = 0x05 ∨ overflowStep cap b = 0x06 := by
  unfold overflowStep
  split
  · exact .inl rfl
  · split
    · exact .inr (.inl rfl)
    · exact .inr (.inr rfl)

theorem compressCmd_errcode (s : State) :
    (compressCmd s).errcode ∈ ([0, 0x0102, 0x0105, 0x0201, 0x0406, 0x0506, 0x0606] : List Word) := by
  rcases compressCmd_cases s with ⟨-, h⟩ | ⟨-, -, -, h⟩ | ⟨-, -, h⟩ | ⟨_, b, -, ⟨-, h⟩ | ⟨-, _, _, h⟩⟩
  case inr.inr.inr.inr =>
    rcases overflowStep_cases s.cfg.cbufCap b with hstep | hstep | hstep <;>
    simp only [h, hstep, CmdResult.errcode] <;> decide
  all_goals simp only [h, CmdResult.errcode]; decide

theorem decompressCmd_errcode (s : State) :
    (decompressCmd s).errcode ∈ ([0, 0x0201, 0x0704, 0x0705, 0x0803, 0x0904, 0x0906] : List Word) := by
  rcases decompressCmd_cases s with ⟨-, h⟩ | ⟨-, -, h⟩
    | ⟨-, _, _, -, -, ⟨-, h⟩ | ⟨_, -, ⟨-, h⟩ | ⟨_, -, ⟨-, h⟩ | ⟨_, -, -, ⟨-, h⟩ | ⟨-, h⟩⟩⟩⟩⟩ <;>
  simp only [h, CmdResult.errcode] <;> decide

/-- Settles O39: completion records the result's error, and each command's outcomes are listed once, with its STEP. -/
theorem errorsOfEachCommand : Obligations.ErrorsOfEachCommand := by
  intro i s t hinv hexec
  rw [exec_eq_finish] at hexec
  rw [finish_next hexec, complete_errcode]
  cases i with
  | nop => exact List.mem_singleton.2 rfl
  | ftBuild => exact ftBuildCmd_errcode s
  | treeBuild => exact treeBuildCmd_errcode s
  | cbGen => exact cbGenCmd_errcode s
  | encode => exact encodeCmd_errcode s
  | pack => exact packCmd_errcode s
  | serialize => exact serializeCmd_errcode hinv.stores
  | deserialize => exact deserializeCmd_errcode s
  | unpack => exact unpackCmd_errcode s
  | decode => exact decodeCmd_errcode s
  | compress => exact compressCmd_errcode s
  | decompress => exact decompressCmd_errcode s

/-! ### What commands keep of the buffers (R194, R352) -/

/-- Beyond a list written at CBUF[0 ..) CBUF reads as before. -/
theorem cbufAt_of_writeList {s t : State} {bs : List Byte} {a : Nat} (hcbuf : t.cbuf = Memory.writeList s.cbuf 0 bs)
    (hepoch : t.epoch = s.epoch) (ha : bs.length ≤ a) : t.cbufAt a = s.cbufAt a :=
  (cbufAt_congr (s := { s with cbuf := Memory.writeList s.cbuf 0 bs }) hcbuf hepoch a).trans
    (cbufAt_writeList_beyond s bs ha)

/-- Settles O41: a command keeps SIN, and it keeps CBUF or, on success, is SERIALIZE or COMPRESS and wrote its
container. -/
theorem buffersOutsideTheContainerKept : Obligations.BuffersOutsideTheContainerKept := by
  intro i s t hexec
  rw [exec_eq_finish] at hexec
  obtain ⟨hsin, hepoch, hcbuf⟩ := cmdOf_buffers i s
  rw [← finish_next hexec] at hsin hepoch hcbuf
  refine ⟨sinAt_congr hsin hepoch, ?_⟩
  rcases hcbuf with hkept | ⟨hzero, ⟨rfl, hwritten⟩ | ⟨rfl, hwritten⟩⟩
  · have hall := cbufAt_congr hkept hepoch
    exact ⟨fun _ => hall, fun _ => hall, fun _ a _ => hall a, fun _ a _ => hall a⟩
  · exact ⟨fun hi => absurd (by simp) hi, fun hfailed => absurd hzero hfailed,
      fun _ _ ha => cbufAt_of_writeList hwritten hepoch ha, fun hi => (nomatch hi)⟩
  · exact ⟨fun hi => absurd (by simp) hi, fun hfailed => absurd hzero hfailed, fun hi => (nomatch hi),
      fun _ _ ha => cbufAt_of_writeList hwritten hepoch ha⟩

/-! ### The host's side (R191) -/

/-- Completion writes ERRCODE, eng and DONE over the host's side and leaves the rest of it. -/
theorem complete_map_withHost (r : CmdResult) (h : State) : complete (r.map (·.withHost h)) = { complete r with
    irqEn := h.irqEn, cmdDropped := h.cmdDropped, wrDropped := h.wrDropped
    sinIdx := h.sinIdx, cbufIdx := h.cbufIdx, soutIdx := h.soutIdx, ftIdx := h.ftIdx
    cbBitpos := h.cbBitpos, bitsIdx := h.bitsIdx, pkIdx := h.pkIdx, readData := h.readData
    agenda := h.agenda, draws := h.draws } := by
  cases r <;> rfl

/-- Settles O42: no command reads or writes the host's side, so its result is the same but for that side. -/
theorem resultsIgnoreTheHostSide : Obligations.ResultsIgnoreTheHostSide := by
  intro i s t h hexec
  rw [exec_eq_finish] at hexec
  have hresult : exec i (s.withHost h) = .next (complete ((cmdOf i s).map (·.withHost h))) := by
    rw [exec_eq_finish, cmdOf_ignoresHost i s h, finish]
  rw [complete_map_withHost, ← finish_next hexec] at hresult
  exact hresult

end Sys2Proof.Machine
end

