-- ==== Sys2Proof/Proofs/Registers.lean ====
section
/-! PROOF. What the registers read and what their writes do: STATUS and CTRL, reads while BUSY, the data ports, the
lengths and indices, and the readback of the stores (spec/10_state.md R43 to R59; spec/70_reset_and_hazards.md
R462). -/

namespace Sys2Proof.Machine
open Sys2Proof

/-! ### Reads and writes through the register map -/

/-- While IDLE a register reads the value `readRegister` gives it, at its own offset (R34, R40). -/
theorem readsAs_regOffset {s : State} {v : Word} (r : Reg) (h : s.rstN = true) (hi : s.eng = .idle)
    (hv : readRegister s r = v) : ReadsAs s (regOffset r) v :=
  hv ▸ hostRead_idle h hi (regAt_regOffset r)

/-- While IDLE a Write of a RW register other than CTRL is its store (R47 to R57). -/
theorem hostWrite_rw_of_idle {s : State} (r : Reg) (v : Word) (h : s.rstN = true) (hi : s.eng = .idle)
    (ha : regAccess r = .rw) (hc : r ≠ .ctrl) :
    hostTransaction (.write (regOffset r) .word v) s = storeRegister v s r := by
  rw [hostWrite_regOffset r v h, writeRegister_rw ha hc]
  simp only [writeRw, busy_of_eng_idle hi, Bool.false_eq_true, if_false]

/-- CTRL as a number: IRQ_EN in bit 0 (R43). -/
theorem ctrl_eq_ite (s : State) : s.ctrl = if s.irqEn then 1 else 0 := by
  cases h : s.irqEn <;> simp only [State.ctrl, h] <;> rfl

/-! ### STATUS and CTRL -/

/-- Settles O46: the two Writes do not ask whether the block is BUSY. -/
theorem statusAndCtrlWrites : Obligations.StatusAndCtrlWrites := fun _ v h =>
  ⟨hostWrite_status v h, fun hv => hostWrite_ctrl h hv⟩

/-- STATUS[4:0] are the low group (R44). -/
theorem statusWord_low (valid low : BitVec 5) {k : Nat} (h : k < 5) :
    (statusWord valid low).getLsbD k = low.getLsbD k := by
  rw [statusWord_bits, if_pos h]

/-- STATUS[12:8] are the valid flags (R44). -/
theorem statusWord_valid (valid low : BitVec 5) {k : Nat} (h8 : 8 ≤ k) (h12 : k ≤ 12) :
    (statusWord valid low).getLsbD k = valid.getLsbD (k - 8) := by
  rw [statusWord_bits, if_neg (by omega), if_neg (by omega), if_pos (by omega)]

/-- STATUS[7:5] and STATUS[31:13] are reserved (R41). -/
theorem statusWord_reserved (valid low : BitVec 5) {k : Nat} (h : (5 ≤ k ∧ k ≤ 7) ∨ 13 ≤ k) :
    (statusWord valid low).getLsbD k = false := by
  rw [statusWord_bits, if_neg (by omega)]
  split
  · rfl
  · rw [if_neg (by omega)]

/-- STATUS[4:0] flag by flag, whatever the valid flags read (R44). -/
theorem statusWord_lowBits (valid : BitVec 5) (s : State) : (statusWord valid s.lowBits).getLsbD 0 = s.busy
    ∧ (statusWord valid s.lowBits).getLsbD 1 = s.done ∧ (statusWord valid s.lowBits).getLsbD 2 = s.err
    ∧ (statusWord valid s.lowBits).getLsbD 3 = s.cmdDropped
    ∧ (statusWord valid s.lowBits).getLsbD 4 = s.wrDropped := by
  simpa (disch := omega) only [statusWord_low] using lowBits_bits s

/-- STATUS[12:8] flag by flag while IDLE (R44, R69). -/
theorem status_validBits (s : State) : s.status.getLsbD 8 = s.ft.isSome ∧ s.status.getLsbD 9 = s.tree.isSome
    ∧ s.status.getLsbD 10 = s.cb.isSome ∧ s.status.getLsbD 11 = s.bits.isSome
    ∧ s.status.getLsbD 12 = s.pk.isSome := by
  simpa (disch := omega) only [State.status, statusWord_valid] using validBits_bits s

/-- Settles O45: STATUS is its two groups of flags, and bits between and above them are 0. -/
theorem statusReadsItsFlags : Obligations.StatusReadsItsFlags := by
  intro s h hi
  obtain ⟨hbusy, hdone, herr, hcmd, hwr⟩ := statusWord_lowBits s.validBits s
  obtain ⟨hft, htree, hcb, hbits, hpk⟩ := status_validBits s
  have herr' : s.status.getLsbD 2 = true ↔ s.errcode.toNat % 2 ^ 8 ≠ 0 := by rw [State.status, herr, err_iff]
  exact ⟨s.status, readsAs_regOffset .status h hi rfl, hbusy.trans (busy_of_eng_idle hi), hdone, herr', hcmd, hwr,
    hft, htree, hcb, hbits, hpk, fun k hk => statusWord_reserved _ _ hk⟩

/-! ### Reads while BUSY (R462) -/

/-- A Read of a register while BUSY uses up one free value (log 3). -/
theorem hostRead_busy_draws {s : State} {off : BitVec 8} {r : Reg} {w : Word} (h : s.rstN = true)
    (hb : s.eng = .busy w) (hr : regAt off .word = some r) :
    (hostTransaction (.read off .word) s).draws = s.draws + 1 := by
  simp only [hostTransaction, hostRead, h, hr, busy_of_eng_busy hb, if_true]

/-- A register R462 does not define reads the free value while BUSY. -/
theorem readRegisterBusy_of_undefined {r : Reg}
    (hr : regOffset r ∉ ([0x00, 0x04, 0x08, 0x0C, 0x14] : List (BitVec 8))) (draw : Word) (s : State) :
    readRegisterBusy draw s r = draw := by
  unfold readRegisterBusy
  split
  case h_6 => rfl
  all_goals exact absurd (by decide) hr

/-- STATUS[12:8] while BUSY are the draw's own bits. -/
theorem statusWord_draw (draw : Word) (low : BitVec 5) {k : Nat} (h8 : 8 ≤ k) (h12 : k ≤ 12) :
    (statusWord (draw.extractLsb' 8 5) low).getLsbD k = draw.getLsbD k := by
  rw [statusWord_valid _ _ h8 h12, BitVec.getLsbD_extractLsb', Nat.add_sub_cancel' h8,
    decide_eq_true (by omega : k - 8 < 5), Bool.true_and]

/-- Settles O49: the defined registers answer from the state, whose DONE and ERRCODE the invariant makes 0, and every
other register answers the draw. -/
theorem readsWhileBusy : Obligations.ReadsWhileBusy := by
  intro s w hinv h hb
  have hbusy := busy_of_eng_busy hb
  have hdone := hinv.control.busyDone hbusy
  have herrcode := hinv.control.busyErr hbusy
  have hread : ∀ r, (hostTransaction (.read (regOffset r) .word) s).readData
      = some (readRegisterBusy (Config.busyRead s.draws) s r) := fun r => hostRead_busy h hb (regAt_regOffset r)
  obtain ⟨hbit0, hbit1, hbit2, hcmd, hwr⟩ :=
    statusWord_lowBits ((Config.busyRead s.draws).extractLsb' 8 5) s
  have herr : s.err = false := by rw [State.err, herrcode]; rfl
  refine ⟨hread .id, hread .version, (hread .ctrl).trans (congrArg some (ctrl_eq_ite s)),
    (hread .errcode).trans (congrArg some herrcode),
    ⟨_, hread .status, hbit0.trans hbusy, hbit1.trans hdone, hbit2.trans herr, hcmd, hwr,
      fun k h8 h12 => statusWord_draw _ _ h8 h12⟩, fun off halign hoff => ?_⟩
  obtain ⟨r, hr⟩ := Option.isSome_iff_exists.1 ((regAt_word_isSome off).2 ⟨halign, hoff⟩)
  refine ⟨hostRead_busy_draws h hb hr, fun hundefined => ?_⟩
  rw [← (regAt_offset hr).2] at hundefined
  rw [hostRead_busy h hb hr, readRegisterBusy_of_undefined hundefined]

/-! ### The data ports (R48, R50) -/

/-- SIN after a write of one word: that word at its index, every other as before (R70, R102). -/
theorem sinAt_write (s : State) (i a : Nat) (v : Word) :
    State.sinAt { s with sin := Memory.write s.sin i v } a = if a = i then v else s.sinAt a := by
  simp only [State.sinAt, Memory.read?_write]
  split <;> rfl

/-- CBUF after a write of one byte: that byte at its index, every other as before (R71, R102). -/
theorem cbufAt_write (s : State) (i a : Nat) (v : Byte) :
    State.cbufAt { s with cbuf := Memory.write s.cbuf i v } a = if a = i then v else s.cbufAt a := by
  simp only [State.cbufAt, Memory.read?_write]
  split <;> rfl

/-- Settles O51: each port tests its index against the capacity, reading and writing alike. -/
theorem bufferPorts : Obligations.BufferPorts := by
  intro s v h hi
  have hsin : hostTransaction (.write 0x20 .word v) s = storeRegister v s .sinData :=
    hostWrite_rw_of_idle .sinData v h hi rfl (by decide)
  have hcbuf : hostTransaction (.write 0x2C .word v) s = storeRegister v s .cbufData :=
    hostWrite_rw_of_idle .cbufData v h hi rfl (by decide)
  refine ⟨fun hin => ⟨readsAs_regOffset .sinData h hi (if_pos hin), _, hsin.trans (if_pos hin), fun a =>
      sinAt_write s _ a v⟩,
    fun hout => ⟨readsAs_regOffset .sinData h hi (if_neg hout.not_gt), hsin.trans (if_neg hout.not_gt)⟩,
    fun hin => ⟨readsAs_regOffset .cbufData h hi (if_pos hin), _, hcbuf.trans (if_pos hin), fun a =>
      cbufAt_write s _ a _⟩,
    fun hout => ⟨readsAs_regOffset .cbufData h hi (if_neg hout.not_gt), hcbuf.trans (if_neg hout.not_gt)⟩⟩

/-! ### The lengths and indices -/

/-- Settles O52: each is a RW register whose store and whose read are its field. -/
theorem lengthAndIndexRegisters : Obligations.LengthAndIndexRegisters := by
  intro s v h hi
  have hwrite : ∀ r, regAccess r = .rw → r ≠ .ctrl →
      hostTransaction (.write (regOffset r) .word v) s = storeRegister v s r :=
    fun r ha hc => hostWrite_rw_of_idle r v h hi ha hc
  have hread : ∀ r, ReadsAs s (regOffset r) (readRegister s r) := fun r => readsAs_regOffset r h hi rfl
  exact ⟨hwrite .sinLen rfl (by decide), hread .sinLen, hwrite .sinIdx rfl (by decide), hread .sinIdx,
    hwrite .cbufLen rfl (by decide), hread .cbufLen, hwrite .cbufIdx rfl (by decide), hread .cbufIdx,
    hwrite .soutIdx rfl (by decide), hread .soutIdx, hwrite .ftIdx rfl (by decide), hread .ftIdx,
    hwrite .cbBitpos rfl (by decide), hread .cbBitpos, hwrite .bitsIdx rfl (by decide), hread .bitsIdx,
    hwrite .pkIdx rfl (by decide), hread .pkIdx⟩

/-! ### The readback of the stores -/

/-- An element port in range reads the element. -/
theorem asWord_getElem?_of_lt {α : Type} (f : α → Nat) {l : List α} {i : Nat} (h : i < l.length) :
    asWord ((l[i]?.map f).getD 0) = BitVec.ofNat 32 (f l[i]) := by
  rw [List.getElem?_eq_getElem h]
  rfl

/-- An element port at or beyond the length reads 0. -/
theorem asWord_getElem?_of_ge {α : Type} (f : α → Nat) {l : List α} {i : Nat} (h : l.length ≤ i) :
    asWord ((l[i]?.map f).getD 0) = 0 := by
  rw [List.getElem?_eq_none h]
  rfl

/-- A bit as a register value. -/
theorem ofNat_boolToNat (b : Bool) : BitVec.ofNat 32 b.toNat = if b then 1 else 0 := by cases b <;> rfl

section
variable {s : State} (h : s.rstN = true) (hi : s.eng = .idle)
include h hi

/-- SOUT_LEN and SOUT_DATA (R51, R52). -/
theorem readsAs_sout : ReadsAs s 0x30 (BitVec.ofNat 32 s.sout.length)
    ∧ (∀ hlt : s.soutIdx.toNat < s.sout.length, ReadsAs s 0x38 (BitVec.ofNat 32 s.sout[s.soutIdx.toNat]))
    ∧ (s.sout.length ≤ s.soutIdx.toNat → ReadsAs s 0x38 0) := by
  have hdata : readRegister s .soutData = asWord ((s.sout[s.soutIdx.toNat]?.map id).getD 0) := by
    rw [Option.map_id_fun, id]
    rfl
  exact ⟨readsAs_regOffset .soutLen h hi rfl,
    fun hlt => readsAs_regOffset .soutData h hi (hdata.trans (asWord_getElem?_of_lt id hlt)),
    fun hge => readsAs_regOffset .soutData h hi (hdata.trans (asWord_getElem?_of_ge id hge))⟩

/-- FT_COUNT, FT_SYM and FT_FREQ of the entries, valid or not (R53, R54). -/
theorem readsAs_ft {ft : List Entry} (hft : s.ftEntries = ft) : ReadsAs s 0x3C (BitVec.ofNat 32 ft.length)
    ∧ (∀ hlt : s.ftIdx.toNat < ft.length, ReadsAs s 0x44 (BitVec.ofNat 32 ft[s.ftIdx.toNat].sym)
      ∧ ReadsAs s 0x48 (BitVec.ofNat 32 ft[s.ftIdx.toNat].freq))
    ∧ (ft.length ≤ s.ftIdx.toNat → ReadsAs s 0x44 0 ∧ ReadsAs s 0x48 0) := by
  subst hft
  exact ⟨readsAs_regOffset .ftCount h hi rfl,
    fun hlt => ⟨readsAs_regOffset .ftSym h hi (asWord_getElem?_of_lt Entry.sym hlt),
      readsAs_regOffset .ftFreq h hi (asWord_getElem?_of_lt Entry.freq hlt)⟩,
    fun hge => ⟨readsAs_regOffset .ftSym h hi (asWord_getElem?_of_ge Entry.sym hge),
      readsAs_regOffset .ftFreq h hi (asWord_getElem?_of_ge Entry.freq hge)⟩⟩

/-- CB_LEN and CB_BIT of the codes, valid or not (R55). -/
theorem readsAs_cb {cs : List Code} (hcs : s.cbCodes = cs) :
    (∀ hlt : s.ftIdx.toNat < cs.length, ReadsAs s 0x4C (BitVec.ofNat 32 cs[s.ftIdx.toNat].length)
      ∧ (∀ k : s.cbBitpos.toNat < cs[s.ftIdx.toNat].length,
        ReadsAs s 0x54 (if cs[s.ftIdx.toNat][s.cbBitpos.toNat] then 1 else 0))
      ∧ (cs[s.ftIdx.toNat].length ≤ s.cbBitpos.toNat → ReadsAs s 0x54 0))
    ∧ (cs.length ≤ s.ftIdx.toNat → ReadsAs s 0x4C 0 ∧ ReadsAs s 0x54 0) := by
  subst hcs
  have hbit : ∀ code : Code, s.cbCodes[s.ftIdx.toNat]?.getD [] = code →
      readRegister s .cbBit = asWord ((code[s.cbBitpos.toNat]?.map Bool.toNat).getD 0) := by
    rintro _ rfl
    rfl
  refine ⟨fun hlt => ?_, fun hge => ?_⟩
  · have hcode : s.cbCodes[s.ftIdx.toNat]?.getD [] = s.cbCodes[s.ftIdx.toNat] := by
      rw [List.getElem?_eq_getElem hlt, Option.getD_some]
    refine ⟨readsAs_regOffset .cbLen h hi (asWord_getElem?_of_lt List.length hlt),
      fun k => readsAs_regOffset .cbBit h hi ?_, fun k => readsAs_regOffset .cbBit h hi ?_⟩
    · rw [hbit _ hcode, asWord_getElem?_of_lt Bool.toNat k, ofNat_boolToNat]
    · rw [hbit _ hcode, asWord_getElem?_of_ge Bool.toNat k]
  · have hcode : s.cbCodes[s.ftIdx.toNat]?.getD [] = [] := by
      rw [List.getElem?_eq_none hge, Option.getD_none]
    refine ⟨readsAs_regOffset .cbLen h hi (asWord_getElem?_of_ge List.length hge),
      readsAs_regOffset .cbBit h hi ?_⟩
    rw [hbit _ hcode, asWord_getElem?_of_ge Bool.toNat (Nat.zero_le _)]

/-- BITS_LEN and BITS_DATA of the stream, valid or not (R56). -/
theorem readsAs_bits {b : List Bool} (hb : s.bitStream = b) : ReadsAs s 0x58 (BitVec.ofNat 32 b.length)
    ∧ (∀ hlt : s.bitsIdx.toNat < b.length, ReadsAs s 0x60 (if b[s.bitsIdx.toNat] then 1 else 0))
    ∧ (b.length ≤ s.bitsIdx.toNat → ReadsAs s 0x60 0) := by
  subst hb
  exact ⟨readsAs_regOffset .bitsLen h hi rfl,
    fun hlt => readsAs_regOffset .bitsData h hi ((asWord_getElem?_of_lt Bool.toNat hlt).trans (ofNat_boolToNat _)),
    fun hge => readsAs_regOffset .bitsData h hi (asWord_getElem?_of_ge Bool.toNat hge)⟩

/-- PK_LEN and PK_DATA of the bytes, valid or not (R57). -/
theorem readsAs_pk {p : List Byte} (hp : s.pkBytes = p) : ReadsAs s 0x64 (BitVec.ofNat 32 p.length)
    ∧ (∀ hlt : s.pkIdx.toNat < p.length, ReadsAs s 0x6C (p[s.pkIdx.toNat].setWidth 32))
    ∧ (p.length ≤ s.pkIdx.toNat → ReadsAs s 0x6C 0) := by
  subst hp
  exact ⟨readsAs_regOffset .pkLen h hi rfl,
    fun hlt => readsAs_regOffset .pkData h hi
      ((asWord_getElem?_of_lt BitVec.toNat hlt).trans (BitVec.ofNat_toNat 32 _)),
    fun hge => readsAs_regOffset .pkData h hi (asWord_getElem?_of_ge BitVec.toNat hge)⟩

end

/-- Settles O53: a store reads as its list, which is empty when the store is invalid. -/
theorem readbackRegisters : Obligations.ReadbackRegisters := by
  intro s h hi
  obtain ⟨hsoutLen, hsoutIn, hsoutOut⟩ := readsAs_sout h hi
  refine ⟨readsAs_regOffset .ctrl h hi (ctrl_eq_ite s), readsAs_regOffset .errcode h hi rfl,
    readsAs_regOffset .origBytes h hi rfl, readsAs_regOffset .compBytes h hi rfl, hsoutLen, hsoutIn, hsoutOut,
    fun hft => ?_, fun ft hft => readsAs_ft h hi (by rw [State.ftEntries, hft, Option.getD_some]),
    fun hcb => ?_, fun cs hcb => readsAs_cb h hi (by rw [State.cbCodes, hcb, Option.getD_some]),
    fun hbits => ?_, fun b hbits => readsAs_bits h hi (by rw [State.bitStream, hbits, Option.getD_some]),
    fun hpk => ?_, fun p hpk => readsAs_pk h hi (by rw [State.pkBytes, hpk, Option.getD_some])⟩
  · obtain ⟨hlen, -, hout⟩ := readsAs_ft h hi (ft := []) (by rw [State.ftEntries, hft, Option.getD_none])
    exact ⟨hlen, hout (Nat.zero_le _)⟩
  · exact (readsAs_cb h hi (cs := []) (by rw [State.cbCodes, hcb, Option.getD_none])).2 (Nat.zero_le _)
  · obtain ⟨hlen, -, hout⟩ := readsAs_bits h hi (b := []) (by rw [State.bitStream, hbits, Option.getD_none])
    exact ⟨hlen, hout (Nat.zero_le _)⟩
  · obtain ⟨hlen, -, hout⟩ := readsAs_pk h hi (p := []) (by rw [State.pkBytes, hpk, Option.getD_none])
    exact ⟨hlen, hout (Nat.zero_le _)⟩

end Sys2Proof.Machine
end

