-- ==== Sys2Proof/Proofs/Reset.lean ====
section
/-! PROOF. The values after reset, and soft and hard reset from every state (spec/10_state.md R75, R76;
spec/70_reset_and_hazards.md R450 to R452). -/

namespace Sys2Proof.Machine
open Sys2Proof

/-! ### The values after reset -/

/-- The registers to which R75 gives a reset value of 0, in the order of the map. -/
def zeroedRegs : List Reg :=
  [.ctrl, .status, .cmd, .errcode, .sinLen, .sinIdx, .cbufLen, .cbufIdx, .soutLen, .soutIdx, .ftCount, .ftIdx, .cbLen,
    .cbBitpos, .bitsLen, .bitsIdx, .pkLen, .pkIdx, .origBytes, .compBytes]

theorem readRegister_reset : ∀ r ∈ zeroedRegs, readRegister State.reset r = 0 := by decide

/-- Settles O55: each of the registers reads 0 at its own offset, and the rest is `State.reset`'s own fields. -/
theorem resetValues : Obligations.ResetValues := by
  refine ⟨?_, rfl, rfl, rfl, rfl, rfl, rfl, rfl, rfl⟩
  have hread : ∀ off ∈ zeroedRegs.map regOffset, ReadsAs State.reset off 0 :=
    List.forall_mem_map.2 fun r hr => readsAs_regOffset r rfl rfl (readRegister_reset r hr)
  exact hread

/-! ### Resets from every state -/

/-- A soft reset with the pin high gives the reset values and leaves the host's records (R452). -/
theorem hostWrite_ctrl_soft_reset {s : State} {v : Word} (h : s.rstN = true) (hv : v.getLsbD 1 = true) :
    hostTransaction (.write 0x08 .word v) s = { State.resetFor s.cfg with
      readData := s.readData, agenda := s.agenda, epoch := s.epoch + 1, draws := s.draws } := by
  have hwrite : hostTransaction (.write 0x08 .word v) s = writeCtrl v s := hostWrite_regOffset .ctrl v h
  rw [hwrite, writeCtrl, if_pos hv, resetBlock, h]
  rfl

/-- While the pin is low a Write has no effect (R450). -/
theorem hostWrite_of_low {s : State} (h : s.rstN = false) (off : BitVec 8) (size : AccessSize) (v : Word) :
    hostTransaction (.write off size v) s = s := by
  simp only [hostTransaction, hostWrite, h, Bool.false_eq_true, if_false]

/-- While the pin is low a Read answers 0 (R450). -/
theorem hostRead_of_low {s : State} (h : s.rstN = false) (off : BitVec 8) (size : AccessSize) :
    hostTransaction (.read off size) s = { s with readData := some 0 } := by
  simp only [hostTransaction, hostRead, h, Bool.false_eq_true, if_false]

/-- Settles O56: both resets are `resetBlock`, whose buffers are empty and so read the draws of the new epoch; while the
pin is low every move tests it first. -/
theorem resetsGiveTheResetState : Obligations.ResetsGiveTheResetState := by
  intro s v
  refine ⟨hostWrite_ctrl_soft_reset, rfl, fun a => ⟨rfl, rfl⟩, fun hlow =>
    ⟨fun off size => ⟨hostWrite_of_low hlow off size v, hostRead_of_low hlow off size⟩, fun ha => ?_,
      fun rest ha => ?_, rfl⟩⟩
  · rw [step_of_agenda_nil ha, engineMove_of_low hlow]
  · exact (step_of_agenda_cons ha).trans (engineMove_of_low hlow)

end Sys2Proof.Machine
end
